-- ==== Sys2Proof/Word.lean ====
section
/-! DEFINITION. The word types of the machine: widths only. -/

namespace Sys2Proof

/-- A byte of memory or of code (00_scope R7). -/
abbrev Byte := BitVec 8

/-- A 32-bit register, paging-structure entry or linear address (10_state R20, 20_memory R63). -/
abbrev Word := BitVec 32

/-- The value of a 64-bit model-specific register (10_state R37). -/
abbrev MsrWord := BitVec 64

/-- A paging-structure entry of any mode: 32 bits, zero-extended, or 64 bits (42_hierarchical_overview R161). -/
abbrev EntryBits := BitVec 64

/-- A physical address as 32-bit paging forms it: 40 bits (43_32bit_paging R190). -/
abbrev PhysAddr := BitVec 40

end Sys2Proof
end

