-- ==== Sys2Proof/Syntax.lean ====
section
/-! DEFINITION. Syntax: the instructions of the opcode table, the operations of a run, and the reasons the decoder refuses. -/

namespace Sys2Proof

/-- The eight 32-bit general registers, in the order of their numbers (30_encoding R96). -/
inductive Reg where
  | eax
  | ecx
  | edx
  | ebx
  | esp
  | ebp
  | esi
  | edi
  deriving DecidableEq, Repr

/-- The control registers that are state (10_state R20): `n` of `MovFromCR(n)` in 30_encoding R90. -/
inductive CtlReg where
  | cr0
  | cr3
  | cr4
  deriving DecidableEq, Repr

/-- One constructor per row of opcode_table.json. `md` is the ModR/M `mod` field, which the processor ignores
(30_encoding R92); it is kept so that an instruction has exactly one encoding. -/
inductive Instr where
  /-- MOV CR0, r32: `0F 22 /0` -/
  | movCr0R32 (md : BitVec 2) (r : Reg)
  /-- MOV CR3, r32: `0F 22 /3` -/
  | movCr3R32 (md : BitVec 2) (r : Reg)
  /-- MOV CR4, r32: `0F 22 /4` -/
  | movCr4R32 (md : BitVec 2) (r : Reg)
  /-- MOV r32, CR0: `0F 20 /0` -/
  | movR32Cr0 (md : BitVec 2) (r : Reg)
  /-- MOV r32, CR3: `0F 20 /3` -/
  | movR32Cr3 (md : BitVec 2) (r : Reg)
  /-- MOV r32, CR4: `0F 20 /4` -/
  | movR32Cr4 (md : BitVec 2) (r : Reg)
  /-- WRMSR: `0F 30` -/
  | wrmsr
  /-- RDMSR: `0F 32` -/
  | rdmsr
  deriving DecidableEq, Repr

/-- The kinds of access (00_scope R9). -/
inductive AccessKind where
  | read
  | write
  | fetch
  deriving DecidableEq, Repr

/-- The two modes of an access (00_scope R9, 60_exceptions R243). -/
inductive AccessMode where
  | user
  | supervisor
  deriving DecidableEq, Repr

/-- An access descriptor `acc` (00_scope R9). -/
structure Access where
  kind : AccessKind
  mode : AccessMode
  explicit : Bool
  deriving DecidableEq, Repr

/-- The operations a run is made of (30_encoding R90), with two forms for machine code (30_encoding R91): the bytes of
one instruction supplied from outside, and the instruction found by a fetch at EIP (10_state R41, 20_memory R79).

Of an access descriptor `acc` an operation gives `explicit`: false for an access the processor makes implicitly to a
system structure. Its kind is the operation's, and its mode is derived from CPL (10_state R42, 92 D14; entry 12). -/
inductive Op where
  | movToCr0 (v : Word)
  | movToCr3 (v : Word)
  | movToCr4 (v : Word)
  | wrmsr (idx : Word) (v : MsrWord)
  | movFromCr (n : CtlReg)
  | rdmsr (idx : Word)
  | vmxTransition
  /-- `Load(la, n, acc)`, acc.kind = read -/
  | load (la : Word) (n : Nat) (explicit : Bool)
  /-- `Store(la, n, v, acc)`, acc.kind = write; the bytes of `v`, lowest address first -/
  | store (la : Word) (v : List Byte) (explicit : Bool)
  /-- `Fetch(la, n, acc)`, acc.kind = fetch -/
  | fetch (la : Word) (n : Nat) (explicit : Bool)
  /-- one instruction, its bytes supplied from outside -/
  | code (bytes : List Byte)
  /-- fetch the instruction at EIP and run it -/
  | execute
  deriving DecidableEq, Repr

/-- What an operation hands back: the result column of 30_encoding R90. -/
inductive OpResult where
  | nothing
  | word (v : Word)
  | msr (v : MsrWord)
  /-- bytes, lowest address first -/
  | bytes (v : List Byte)
  deriving DecidableEq, Repr

/-- Why bytes are no instruction of this machine (30_encoding R97, R98; 93 U29). -/
inductive DecodeError where
  /-- the bytes end inside the instruction -/
  | truncated
  /-- a LOCK prefix (F0): outside the alphabet, refused (30_encoding R97, 93 U29) -/
  | lockPrefix
  /-- an operand-size prefix (66): outside the alphabet, refused (93 U29) -/
  | operandSizePrefix
  /-- control register 2, which the spec does not hold as state (30_encoding R97) -/
  | controlRegister2
  /-- control registers 1, 5, 6 and 7 do not exist (30_encoding R97) -/
  | noSuchControlRegister
  /-- an opcode outside the opcode table -/
  | unknownOpcode
  deriving DecidableEq, Repr

end Sys2Proof
end

