-- ==== Sys2Proof/WellFormed.lean ====
section
/-! DEFINITION. Well-formedness of instructions and of operations. -/

namespace Sys2Proof

/-- Every term of `Instr` is well formed: its operands are a register (of eight) and a two-bit field, and the
encodings admit every value of both (30_encoding R92 to R96). -/
def Instr.wf : Instr → Bool
  | .movCr0R32 _ _ => true
  | .movCr3R32 _ _ => true
  | .movCr4R32 _ _ => true
  | .movR32Cr0 _ _ => true
  | .movR32Cr3 _ _ => true
  | .movR32Cr4 _ _ => true
  | .wrmsr => true
  | .rdmsr => true

/-- An access of `n` bytes at `la` is one of the spec's: at least one byte (20_memory R70), none past the top of the
linear address space (20_memory R69). -/
def accessWf (la : Word) (n : Nat) : Bool :=
  decide (1 ≤ n) && decide (la.toNat + n ≤ 2 ^ 32)

/-- An operation is one of 30_encoding R90, with the lengths 20_memory R69 and R70 allow. -/
def Op.wf : Op → Bool
  | .load la n _ => accessWf la n
  | .store la v _ => accessWf la v.length
  | .fetch la n _ => accessWf la n
  | .code bytes => !bytes.isEmpty
  | .movToCr0 _ => true
  | .movToCr3 _ => true
  | .movToCr4 _ => true
  | .wrmsr _ _ => true
  | .movFromCr _ => true
  | .rdmsr _ => true
  | .vmxTransition => true
  | .execute => true

end Sys2Proof
end

