-- ==== Sys2Proof/Decode.lean ====
section
/-! DEFINITION. The decoder, total on any bytes and refusing by name, and the encoder (30_encoding R92 to R98).
Byte values are those of the spec, marked there as general knowledge. -/

namespace Sys2Proof

/-- The general register with a number (30_encoding R96). -/
def regOfNum (n : BitVec 3) : Reg :=
  if n = 0 then .eax
  else if n = 1 then .ecx
  else if n = 2 then .edx
  else if n = 3 then .ebx
  else if n = 4 then .esp
  else if n = 5 then .ebp
  else if n = 6 then .esi
  else .edi

/-- The number of a general register (30_encoding R96). -/
def numOfReg : Reg → BitVec 3
  | .eax => 0
  | .ecx => 1
  | .edx => 2
  | .ebx => 3
  | .esp => 4
  | .ebp => 5
  | .esi => 6
  | .edi => 7

/-- ModR/M bits 7:6 (30_encoding section 2). -/
def modrmMod (b : Byte) : BitVec 2 := b.extractLsb' 6 2

/-- ModR/M bits 5:3. -/
def modrmReg (b : Byte) : BitVec 3 := b.extractLsb' 3 3

/-- ModR/M bits 2:0, as a general register. -/
def modrmRm (b : Byte) : Reg := regOfNum (b.extractLsb' 0 3)

/-- The ModR/M byte with the given fields. -/
def modrm (md : BitVec 2) (reg : BitVec 3) (r : Reg) : Byte := md ++ reg ++ numOfReg r

/-- What the decoder reads: an instruction and the bytes after it, or the reason there is none. -/
inductive Decoded where
  | ok (i : Instr) (rest : List Byte)
  | refused (e : DecodeError)
  deriving DecidableEq, Repr

/-- The byte after `0F 22`: MOV to a control register (30_encoding R92, R97). -/
def decodeMovToCr : List Byte → Decoded
  | [] => .refused .truncated
  | b :: rest =>
    if modrmReg b = 0 then .ok (.movCr0R32 (modrmMod b) (modrmRm b)) rest
    else if modrmReg b = 3 then .ok (.movCr3R32 (modrmMod b) (modrmRm b)) rest
    else if modrmReg b = 4 then .ok (.movCr4R32 (modrmMod b) (modrmRm b)) rest
    else if modrmReg b = 2 then .refused .controlRegister2
    else .refused .noSuchControlRegister

/-- The byte after `0F 20`: MOV from a control register (30_encoding R93, R97). -/
def decodeMovFromCr : List Byte → Decoded
  | [] => .refused .truncated
  | b :: rest =>
    if modrmReg b = 0 then .ok (.movR32Cr0 (modrmMod b) (modrmRm b)) rest
    else if modrmReg b = 3 then .ok (.movR32Cr3 (modrmMod b) (modrmRm b)) rest
    else if modrmReg b = 4 then .ok (.movR32Cr4 (modrmMod b) (modrmRm b)) rest
    else if modrmReg b = 2 then .refused .controlRegister2
    else .refused .noSuchControlRegister

/-- The bytes after `0F`. -/
def decodeTwoByte : List Byte → Decoded
  | [] => .refused .truncated
  | b :: rest =>
    if b = 0x22 then decodeMovToCr rest
    else if b = 0x20 then decodeMovFromCr rest
    else if b = 0x30 then .ok .wrmsr rest
    else if b = 0x32 then .ok .rdmsr rest
    else .refused .unknownOpcode

/-- The instruction at the head of a list of bytes, first byte first (30_encoding R92 to R98). -/
def decode : List Byte → Decoded
  | [] => .refused .truncated
  | b :: rest =>
    if b = 0x0F then decodeTwoByte rest
    else if b = 0xF0 then .refused .lockPrefix
    else if b = 0x66 then .refused .operandSizePrefix
    else .refused .unknownOpcode

/-- The bytes of an instruction, first byte first (30_encoding R92 to R95). -/
def encode : Instr → List Byte
  | .movCr0R32 md r => [0x0F, 0x22, modrm md 0 r]
  | .movCr3R32 md r => [0x0F, 0x22, modrm md 3 r]
  | .movCr4R32 md r => [0x0F, 0x22, modrm md 4 r]
  | .movR32Cr0 md r => [0x0F, 0x20, modrm md 0 r]
  | .movR32Cr3 md r => [0x0F, 0x20, modrm md 3 r]
  | .movR32Cr4 md r => [0x0F, 0x20, modrm md 4 r]
  | .wrmsr => [0x0F, 0x30]
  | .rdmsr => [0x0F, 0x32]

/-- The length of an instruction in bytes (30_encoding R98): 3 for the MOV forms, 2 for WRMSR and RDMSR. -/
def instrLength (i : Instr) : Nat := (encode i).length

/-- Do the first two bytes of an instruction call for a ModR/M byte (30_encoding R92, R93)? -/
def needsModrm (bytes : List Byte) : Bool :=
  decide (bytes = [0x0F, 0x22]) || decide (bytes = [0x0F, 0x20])

/-- The `k` bytes of a number, least significant first. -/
def bytesLow : Nat → Nat → List Byte
  | 0, _ => []
  | k + 1, w => BitVec.ofNat 8 w :: bytesLow k (w / 256)

/-- The bytes, first byte first, of a table word of `nbits` bits. opcode_table.json numbers an instruction's bits as
one big-endian number, first byte most significant (30_encoding R101); a word whose bytes in that order are no
instruction is read with the first byte least significant. The two orders never give two instructions. Entry 15. -/
def tableBytes (nbits w : Nat) : List Byte :=
  let low := bytesLow ((nbits + 7) / 8) w
  let padded := fun bytes => bytes ++ List.replicate (3 - bytes.length) (0 : Byte)
  match decode (padded low.reverse) with
  | .ok _ _ => padded low.reverse
  | .refused _ =>
    match decode (padded low) with
    | .ok _ _ => padded low
    | .refused _ => padded low.reverse

/-- The instruction the decoder reads from a table word. -/
def decodeTableWord (nbits w : Nat) : Option Instr :=
  match decode (tableBytes nbits w) with
  | .ok i _ => some i
  | .refused _ => none

end Sys2Proof
end

