-- ==== Sys2Proof/Config.lean ====
section
/-! DEFINITION. What the spec leaves to an implementation or platform (00_scope R5), as plain data: the parameters, each
with the value the spec gives it; and the free values, constants without a body, of which nothing can be proved. -/

namespace Sys2Proof

/-- A fresh undetermined value for every number: the draws of 43_32bit_paging R208, 20_memory R69 and
70_reset_and_hazards R268. The machine applies it to a counter it advances. DESIGN CHOICE (entry 9), safe. -/
opaque Config.draw : Nat → Word

/-- What a byte of physical memory that nothing has written holds: any value (10_state R45, 93 U24), one per address.
DESIGN CHOICE (entry 6), safe. -/
opaque Config.powerOnByte : Nat → Byte

/-- The kinds of physical memory of 20_memory R61. -/
inductive MemKind where
  /-- read-write memory -/
  | ram
  /-- read-only memory -/
  | rom
  /-- memory-mapped I/O -/
  | mmio
  deriving DecidableEq, Repr

/-- A run of physical addresses of one kind. -/
structure Region where
  base : Nat
  size : Nat
  kind : MemKind
  deriving DecidableEq, Repr

/-- Which of the optional control bits exist (00_scope R5 `Features`). An absent flag is an unnamed bit (92 D2). -/
structure Features where
  pse : Bool
  pae : Bool
  pge : Bool
  pcide : Bool
  smep : Bool
  smap : Bool
  pke : Bool
  /-- the register IA32_EFER -/
  efer : Bool
  deriving DecidableEq, Repr

/-! ### `AccessPermitted` (00_scope R5, 92 D8) -/

/-- A test of an entry: the bits under a mask have a value. -/
structure BitTest where
  mask : Word
  value : Word
  deriving DecidableEq, Repr

/-- A test of the PTE of a translation, which there is not for a 4-MByte page. -/
inductive PteTest where
  /-- any page -/
  | any
  /-- a page without a PTE -/
  | absent
  /-- a page with a PTE that passes -/
  | present (test : BitTest)
  deriving DecidableEq, Repr

/-- A combination of the arguments of `AccessPermitted(acc, pde, pte or none, CR0.WP, CR4.SMEP, CR4.SMAP, AC)` in which an
access is permitted. An argument without a value may be anything. -/
structure RightsRule where
  kind : Option AccessKind := none
  mode : Option AccessMode := none
  explicit : Option Bool := none
  wp : Option Bool := none
  smep : Option Bool := none
  smap : Option Bool := none
  ac : Option Bool := none
  pde : BitTest := ⟨0, 0⟩
  pte : PteTest := .any
  deriving DecidableEq, Repr

/-- The access-rights predicate of an implementation. Its arguments are finitely many bits, so every predicate is a list
of rules (entry 26). -/
inductive AccessRights where
  /-- the default predicate of 43_32bit_paging R207 -/
  | standard
  /-- another predicate: an access is permitted when some rule of the list is met -/
  | byRules (rules : List RightsRule)
  deriving DecidableEq, Repr

/-! ### `ReservedBits32` (00_scope R5, 92 D9) -/

/-- The bits of a present entry that must be 0, by the kind of entry (43_32bit_paging R203). Those that `M`, `PSE36` and
`PAT_SUPPORTED` add are not listed here: they always join (92 D3, D9, D25). -/
structure ReservedBits where
  /-- of a PDE that references a page table -/
  pdeTable : Word
  /-- of a PDE that maps a 4-MByte page -/
  pde4M : Word
  /-- of a PTE -/
  pte : Word
  deriving DecidableEq, Repr

/-- The default: bit 21 of a 4-MByte PDE only (00_scope R5, 43_32bit_paging R203). -/
def ReservedBits.default : ReservedBits := { pdeTable := 0, pde4M := 0x00200000, pte := 0 }

/-! ### `ResetState` (00_scope R5, 92 D15) -/

/-- The eight general registers (30_encoding R96). -/
structure Gprs where
  eax : Word
  ecx : Word
  edx : Word
  ebx : Word
  esp : Word
  ebp : Word
  esi : Word
  edi : Word
  deriving DecidableEq, Repr

/-- Every general register at zero: the spec gives no reset value. DESIGN CHOICE (entry 2), unsafe. -/
def Gprs.reset : Gprs :=
  { eax := 0, ecx := 0, edx := 0, ebx := 0, esp := 0, ebp := 0, esi := 0, edi := 0 }

/-- The values of all state after reset. -/
structure ResetState where
  cr0 : Word
  cr3 : Word
  cr4 : Word
  efer : MsrWord
  eflags : Word
  cpl : BitVec 2
  gprs : Gprs
  eip : Word
  /-- what the platform put into memory, such as the contents of read-only memory (10_state R45) -/
  mem : List Host.Cell
  deriving DecidableEq, Repr

/-- The values of 10_state R45 and 70_reset_and_hazards R260; EIP from 20_memory R73 (entry 3), the general registers by
entry 2. No byte of memory has a defined value. -/
def ResetState.default : ResetState where
  cr0 := 0x60000010
  cr3 := 0
  cr4 := 0
  efer := 0
  eflags := 0x00000002
  cpl := 0
  gprs := Gprs.reset
  eip := 0xFFFFFFF0
  mem := []

/-! ### The parameters -/

/-- The implementation parameters of 00_scope R5. The widths the source fixes are in the types and in `walkParams`. -/
structure Params where
  /-- `M` - 32: how many physical-address bits there are above 32; 32 <= M <= 40 (92 D3) -/
  physBitsAbove32 : Fin 9
  /-- `Features` -/
  features : Features
  /-- `PSE36`: bits 20:13 of a 4-MByte PDE supply physical-address bits 39:32 -/
  pse36 : Bool
  /-- `PAT_SUPPORTED`: bit 7 of a PTE and bit 12 of a 4-MByte PDE are a memory-type flag, not reserved -/
  patSupported : Bool
  /-- `AccessPermitted` -/
  accessRights : AccessRights
  /-- `ReservedBits32` -/
  reservedBits : ReservedBits
  /-- `SetsAccessedDirty`: a translation writes the accessed and dirty flags -/
  setsAccessedDirty : Bool
  /-- `ResetState` -/
  resetState : ResetState
  /-- `PhysMem`, the platform's map; the first region that holds an address gives its kind -/
  physMem : List Region
  deriving DecidableEq, Repr

/-- `M`: one more than the highest physical-address bit. -/
def Params.physBits (p : Params) : Nat := 32 + p.physBitsAbove32

/-- The values 00_scope R5 decides. The map is the platform's: all of the 40-bit space as read-write memory is a
DESIGN CHOICE (entry 7), unsafe. -/
def Params.default : Params where
  physBitsAbove32 := 8
  features :=
    { pse := true, pae := true, pge := true, pcide := true, smep := true, smap := true, pke := true, efer := true }
  pse36 := true
  patSupported := true
  accessRights := .standard
  reservedBits := ReservedBits.default
  setsAccessedDirty := true
  resetState := ResetState.default
  physMem := [{ base := 0, size := 2 ^ 40, kind := .ram }]

end Sys2Proof
end

