-- ==== Sys2Proof/Machine/State.lean ====
section
/-! DEFINITION. The state of the machine as plain data, the reasons a step stops, and the state after reset. -/

namespace Sys2Proof.Machine

/-- The state of one logical processor and of physical memory (10_state R20), with the registers of the binary level,
the parameters, and the run still to be performed. INVENTORY.md lists every field. -/
structure State where
  /-- control register CR0 (10_state R21) -/
  cr0 : Word
  /-- control register CR3 (10_state R26) -/
  cr3 : Word
  /-- control register CR4 (10_state R28) -/
  cr4 : Word
  /-- IA32_EFER (10_state R37); bit 10 is not stored state, LMA is computed (41 R147) -/
  efer : MsrWord
  /-- EFLAGS, of which paging reads AC, bit 18 (10_state R36) -/
  eflags : Word
  /-- the current privilege level (10_state R42) -/
  cpl : BitVec 2
  /-- the general registers (10_state R40, 30_encoding R96) -/
  gprs : Gprs
  /-- the instruction pointer (10_state R41), moved by `Op.execute` only -/
  eip : Word
  /-- physical memory: the bytes that have been written, by address; addresses strictly rising -/
  mem : List Host.Cell
  /-- the implementation parameters (00_scope R5); no step changes them -/
  params : Params
  /-- the operations still to be performed (30_encoding R90, 10_state R41) -/
  run : List Op
  /-- what the last operation handed back (30_encoding R90) -/
  result : OpResult
  /-- the entries walks have read since translations were last made certain: address and value
  (70_reset_and_hazards R268). The model's own field. -/
  walked : List (Nat × Word)
  /-- how many free values have been drawn. The model's own field. -/
  draws : Nat
  deriving DecidableEq, Repr

/-- How the machine stops with a fault. -/
inductive Fault where
  /-- `fault(#GP, code)`: a general-protection exception (60_exceptions R230), raised by the operations of
  41_mode_enabling; `left` is the state it leaves. Delivery is not in the spec (60 R240). Safe. -/
  | generalProtection (code : Word) (left : State)
  /-- `fault(#PF, la, code)`: a page-fault exception (60_exceptions R234, R235), raised by an access; `left` is the
  state it leaves, accessed and dirty draws included. Delivery is not in the spec (60 R240). Safe. -/
  | pageFault (la : Word) (code : Word) (left : State)
  /-- An access to a physical address that no memory answers: no step (20_memory R61, 92 D26). Raised by every read
  or write of physical memory. Safe. -/
  | noMemory (pa : Nat)
  /-- A write to read-only memory: no step (20_memory R61, 92 D26). Raised by every write of physical memory, the
  walk's flag writes among them (70_reset_and_hazards R269). Safe. -/
  | readOnlyMemory (pa : Nat)
  deriving DecidableEq, Repr

/-- Why an operation has no meaning (00_scope R10): no claim about the hardware. All are safe. -/
inductive Refusal where
  /-- an instruction of the table without a meaning in this model -/
  | notModelled (mnemonic : String)
  /-- a write that changes a bit of CR0 or CR4 the source does not name (92 D18); MOV to CR0, MOV to CR4 -/
  | unnamedControlBits (n : CtlReg)
  /-- a write that changes a bit of IA32_EFER the source does not name (92 D18); WRMSR -/
  | unnamedEferBits
  /-- a model-specific register other than IA32_EFER (92 D24); WRMSR, RDMSR -/
  | otherMsr (idx : Word)
  /-- a translation under PAE paging (40 R112, 92 D16); any access -/
  | paeTranslation
  /-- a translation under 4-level paging (40 R112, 92 D16); any access -/
  | fourLevelTranslation
  /-- a VMX transition (41 R137, 92 D17) -/
  | vmxTransition
  /-- an access past the top of the linear address space (20_memory R69), or of no byte; any access -/
  | accessLength (la : Word) (n : Nat)
  /-- an access to memory-mapped I/O, whose device the spec does not give (20_memory R61, R71); any access -/
  | deviceAccess (pa : Nat)
  /-- bytes that are no instruction of the table (30_encoding R97, 93 U29) -/
  | undecodable (e : DecodeError)
  /-- the list of operations is exhausted: the run has ended and its last state is final (70_reset_and_hazards R272) -/
  | runExhausted
  deriving DecidableEq, Repr

/-- The machine right after reset, under given parameters (00_scope R5 `ResetState`). No run is supplied and nothing has
been walked or drawn. -/
def State.resetWith (p : Params) : State where
  cr0 := p.resetState.cr0
  cr3 := p.resetState.cr3
  cr4 := p.resetState.cr4
  efer := p.resetState.efer
  eflags := p.resetState.eflags
  cpl := p.resetState.cpl
  gprs := p.resetState.gprs
  eip := p.resetState.eip
  mem := p.resetState.mem
  params := p
  run := []
  result := .nothing
  walked := []
  draws := 0

/-- The machine right after reset (10_state R45, 70_reset_and_hazards R260), under the parameters the spec decides. -/
def State.reset : State := State.resetWith Params.default

end Sys2Proof.Machine
end

