-- ==== Sys2Proof/Machine/Ops.lean ====
section
/-! DEFINITION. The named operations over the state: results in sequence, field updates, general registers, physical
memory, raising an exception, and free draws. -/

namespace Sys2Proof.Machine

/-- How a part of a step ends: with a value, a fault or a refusal (00_scope R10). -/
abbrev Res (α : Type) := Host.Outcome α Fault Refusal

/-- Go on with the value, or stop as the first part stopped. -/
def andThen {α β : Type} (o : Res α) (f : α → Res β) : Res β :=
  match o with
  | .next a => f a
  | .fault r => .fault r
  | .refused r => .refused r

/-! ### Field updates -/

def State.setCr0 (s : State) (v : Word) : State := { s with cr0 := v }
def State.setCr3 (s : State) (v : Word) : State := { s with cr3 := v }
def State.setCr4 (s : State) (v : Word) : State := { s with cr4 := v }
def State.setEfer (s : State) (v : MsrWord) : State := { s with efer := v }
def State.setGprs (s : State) (g : Gprs) : State := { s with gprs := g }
def State.setEip (s : State) (v : Word) : State := { s with eip := v }
def State.setMem (s : State) (m : List Host.Cell) : State := { s with mem := m }
def State.setRun (s : State) (r : List Op) : State := { s with run := r }
def State.setResult (s : State) (r : OpResult) : State := { s with result := r }
def State.setWalked (s : State) (w : List (Nat × Word)) : State := { s with walked := w }
def State.setDraws (s : State) (k : Nat) : State := { s with draws := k }

/-! ### General registers (30_encoding R96): none is hard-wired (10_state R40) -/

/-- `x[r]` -/
def readGpr (s : State) : Reg → Word
  | .eax => s.gprs.eax
  | .ecx => s.gprs.ecx
  | .edx => s.gprs.edx
  | .ebx => s.gprs.ebx
  | .esp => s.gprs.esp
  | .ebp => s.gprs.ebp
  | .esi => s.gprs.esi
  | .edi => s.gprs.edi

/-- `x[r] <- v` -/
def writeGpr (r : Reg) (v : Word) (s : State) : State :=
  match r with
  | .eax => s.setGprs { s.gprs with eax := v }
  | .ecx => s.setGprs { s.gprs with ecx := v }
  | .edx => s.setGprs { s.gprs with edx := v }
  | .ebx => s.setGprs { s.gprs with ebx := v }
  | .esp => s.setGprs { s.gprs with esp := v }
  | .ebp => s.setGprs { s.gprs with ebp := v }
  | .esi => s.setGprs { s.gprs with esi := v }
  | .edi => s.setGprs { s.gprs with edi := v }

/-! ### Raising an exception

The spec describes what raising leaves, not delivery: "A fault is an outcome of the step" (00_scope R4, 92 D11). No register
saves the pc or the status, no mode changes and control goes nowhere (60_exceptions R240); there is no return (60 R241).
The outcome carries the state left, from which a user of the model may go on. -/

/-- `raise #GP(0)`: nothing is changed (60_exceptions R230). -/
def raiseGP0 {α : Type} (s : State) : Res α := .fault (.generalProtection 0 s)

/-- `raise #PF(la, code)`, leaving `s` (60_exceptions R234, R235). -/
def raisePF {α : Type} (la code : Word) (s : State) : Res α := .fault (.pageFault la code s)

/-- Issue an operation again from the state a fault left: the only restart the spec gives (60_exceptions R241). -/
def reissue (op : Op) (left : State) : State := left.setRun (op :: left.run)

/-! ### Physical memory -/

/-- The written byte at an address, if it has been written. -/
def lookupByte : List Host.Cell → Nat → Option Byte
  | [], _ => none
  | c :: cs, a => if a = c.1 then some c.2 else lookupByte cs a

/-- Write one byte, keeping the addresses strictly rising. -/
def insertByte : List Host.Cell → Nat → Byte → List Host.Cell
  | [], a, b => [(a, b)]
  | c :: cs, a, b =>
    if a < c.1 then (a, b) :: c :: cs
    else if a = c.1 then (a, b) :: cs
    else c :: insertByte cs a b

/-- `Mem[a]`. A byte nothing has written holds any value: a free one for its address (10_state R45, 93 U24; entry 6). -/
def byteAt (m : List Host.Cell) (a : Nat) : Byte :=
  (lookupByte m a).getD (Config.powerOnByte a)

/-- The addresses from `lo` on are strictly rising. -/
def risingFrom (lo : Nat) : List Host.Cell → Bool
  | [] => true
  | c :: cs => decide (lo ≤ c.1) && risingFrom (c.1 + 1) cs

/-- The canonical form of memory: addresses strictly rising, one entry an address. No entry equals what an unlisted
address holds in the list, which is no value (entry 6). -/
def Memory.wf (m : List Host.Cell) : Bool := risingFrom 0 m

/-- The kind of the first region that holds an address. -/
def regionKind : List Region → Nat → Option MemKind
  | [], _ => none
  | r :: rs, a => if r.base ≤ a ∧ a < r.base + r.size then some r.kind else regionKind rs a

/-- What answers at a physical address (20_memory R61): nothing beyond the M-bit space (20_memory R62), and within it
what the platform's map says. -/
def kindAt (p : Params) (a : Nat) : Option MemKind :=
  if a < 2 ^ p.physBits then regionKind p.physMem a else none

/-- May a byte be read? Read-only memory holds what the platform put there (10_state R45), so it may. -/
def checkRead (p : Params) (a : Nat) : Res Unit :=
  match kindAt p a with
  | some .ram => .next ()
  | some .rom => .next ()
  | some .mmio => .refused (.deviceAccess a)
  | none => .fault (.noMemory a)

/-- May a byte be written? -/
def checkWrite (p : Params) (a : Nat) : Res Unit :=
  match kindAt p a with
  | some .ram => .next ()
  | some .rom => .fault (.readOnlyMemory a)
  | some .mmio => .refused (.deviceAccess a)
  | none => .fault (.noMemory a)

/-- The `n` bytes from `a` on, lowest address first, no check made. -/
def bytesAt (m : List Host.Cell) (a : Nat) : Nat → List Byte
  | 0 => []
  | n + 1 => byteAt m a :: bytesAt m (a + 1) n

/-- Memory with bytes stored from `a` on, lowest address first, no check made. -/
def storeBytes (m : List Host.Cell) (a : Nat) : List Byte → List Host.Cell
  | [] => m
  | b :: bs => storeBytes (insertByte m a b) (a + 1) bs

/-- Every one of the `n` bytes from `a` on may be read. -/
def checkReads (p : Params) (a : Nat) : Nat → Res Unit
  | 0 => .next ()
  | n + 1 => andThen (checkRead p a) fun _ => checkReads p (a + 1) n

/-- Every one of the `n` bytes from `a` on may be written. -/
def checkWrites (p : Params) (a : Nat) : Nat → Res Unit
  | 0 => .next ()
  | n + 1 => andThen (checkWrite p a) fun _ => checkWrites p (a + 1) n

/-- `PhysRead(pa, n)`, as bytes from the lowest address up (20_memory R66). -/
def physRead (s : State) (a n : Nat) : Res (List Byte) :=
  andThen (checkReads s.params a n) fun _ => .next (bytesAt s.mem a n)

/-- `PhysWrite(pa, n, v)` with the bytes of `v` from the lowest address up (20_memory R66). -/
def physWrite (a : Nat) (bs : List Byte) (s : State) : Res State :=
  andThen (checkWrites s.params a bs.length) fun _ => .next (s.setMem (storeBytes s.mem a bs))

/-- The 32-bit number whose bytes stand at `a`, least significant first (20_memory R66). -/
def wordAt (m : List Host.Cell) (a : Nat) : Word :=
  byteAt m (a + 3) ++ byteAt m (a + 2) ++ byteAt m (a + 1) ++ byteAt m a

/-- The four bytes of a 32-bit number, least significant first (20_memory R66). -/
def wordBytes (v : Word) : List Byte :=
  [v.extractLsb' 0 8, v.extractLsb' 8 8, v.extractLsb' 16 8, v.extractLsb' 24 8]

/-! ### Free values -/

/-- The next free value, and the state that has drawn it. -/
def drawWord (s : State) : Word × State := (Config.draw s.draws, s.setDraws (s.draws + 1))

end Sys2Proof.Machine
end

