-- ==== Sys2Proof/Machine/Flags.lean ====
section
/-! DEFINITION. The control bits, each at the position the spec gives it, the paging mode, LMA, and the page-fault
error code. A bit of CR4, or IA32_EFER, that the implementation does not have reads as 0 (00_scope R5, 92 D2). -/

namespace Sys2Proof.Machine

/-! ### Bits of a value of CR0 (10_state R21) -/

def cr0Pe (v : Word) : Bool := v.getLsbD 0
def cr0Wp (v : Word) : Bool := v.getLsbD 16
def cr0Pg (v : Word) : Bool := v.getLsbD 31

/-! ### Bits of a value of CR4 (10_state R28) -/

def cr4Pse (f : Features) (v : Word) : Bool := f.pse && v.getLsbD 4
def cr4Pae (f : Features) (v : Word) : Bool := f.pae && v.getLsbD 5
def cr4Pge (f : Features) (v : Word) : Bool := f.pge && v.getLsbD 7
def cr4Pcide (f : Features) (v : Word) : Bool := f.pcide && v.getLsbD 17
def cr4Smep (f : Features) (v : Word) : Bool := f.smep && v.getLsbD 20
def cr4Smap (f : Features) (v : Word) : Bool := f.smap && v.getLsbD 21

/-- LME, bit 8 of a value of IA32_EFER (10_state R37). -/
def eferLme (f : Features) (v : MsrWord) : Bool := f.efer && v.getLsbD 8

/-! ### The bits of a state -/

def State.pe (s : State) : Bool := cr0Pe s.cr0
def State.wp (s : State) : Bool := cr0Wp s.cr0
def State.pg (s : State) : Bool := cr0Pg s.cr0
def State.pse (s : State) : Bool := cr4Pse s.params.features s.cr4
def State.pae (s : State) : Bool := cr4Pae s.params.features s.cr4
def State.pge (s : State) : Bool := cr4Pge s.params.features s.cr4
def State.pcide (s : State) : Bool := cr4Pcide s.params.features s.cr4
def State.smep (s : State) : Bool := cr4Smep s.params.features s.cr4
def State.smap (s : State) : Bool := cr4Smap s.params.features s.cr4
def State.lme (s : State) : Bool := eferLme s.params.features s.efer

/-- EFLAGS.AC, bit 18 (10_state R36). -/
def State.ac (s : State) : Bool := s.eflags.getLsbD 18

/-- `LMA()` = CR0.PG AND EFER.LME (41_mode_enabling R147). -/
def State.lma (s : State) : Bool := s.pg && s.lme

/-! ### The named bits (92 D18) -/

/-- A word with one bit, or none. -/
def bitIf (b : Bool) (i : Nat) : Word := if b then (1 : Word) <<< i else 0

/-- CR0 bits 0, 16 and 31. -/
def cr0Named : Word := 0x80010001

/-- CR4 bits 4, 5, 7, 17, 20, 21 and 22, those that exist. -/
def cr4Named (f : Features) : Word :=
  bitIf f.pse 4 ||| bitIf f.pae 5 ||| bitIf f.pge 7 ||| bitIf f.pcide 17 ||| bitIf f.smep 20 ||| bitIf f.smap 21
    ||| bitIf f.pke 22

/-- IA32_EFER bit 8. -/
def eferNamed : MsrWord := 0x100

/-- Does `new` differ from `old` in a bit outside `named`? -/
def changesOutside {n : Nat} (named old new : BitVec n) : Bool := decide ((new ^^^ old) &&& ~~~named ≠ 0)

/-! ### The paging mode -/

/-- No paging, and the three paging modes (40_paging_modes R113). -/
inductive PagingMode where
  | noPaging
  | paging32
  | pagingPae
  | paging4Level
  deriving DecidableEq, Repr

/-- `PagingMode()` (40_paging_modes R113). -/
def pagingMode (s : State) : PagingMode :=
  if !s.pg then .noPaging
  else if !s.pae then .paging32
  else if !s.lme then .pagingPae
  else .paging4Level

/-! ### The page-fault error code -/

/-- The error code of a page fault (60_exceptions R235): P, W/R, U/S, RSVD, and I/D for a fetch with CR4.SMEP = 1;
PK and bits 31:6 are 0. -/
def errorCode (s : State) (acc : Access) (p rsvd : Bool) : Word :=
  bitIf p 0 ||| bitIf (decide (acc.kind = .write)) 1 ||| bitIf (decide (acc.mode = .user)) 2 ||| bitIf rsvd 3
    ||| bitIf (decide (acc.kind = .fetch) && s.smep) 4

end Sys2Proof.Machine
end

