-- ==== Sys2Proof/Machine/Operands.lean ====
section
/-! DEFINITION. The operand forms of the instructions (30_encoding R96): a whole 32-bit general register, the register
number in ECX, and the 64-bit pair EDX:EAX. -/

namespace Sys2Proof.Machine

/-- `{ x[EDX], x[EAX] }` -/
def readEdxEax (s : State) : MsrWord := readGpr s .edx ++ readGpr s .eax

/-- `{ x[EDX], x[EAX] } <- v` -/
def writeEdxEax (v : MsrWord) (s : State) : State :=
  writeGpr .edx (v.extractLsb' 32 32) (writeGpr .eax (v.extractLsb' 0 32) s)

/-- The register number of WRMSR and RDMSR: `x[ECX]` (30_encoding R94, R95). -/
def msrIndex (s : State) : Word := readGpr s .ecx

end Sys2Proof.Machine
end

