-- ==== Sys2Proof/Machine/Modes.lean ====
section
/-! DEFINITION. The operations on the control registers and on IA32_EFER (41_mode_enabling), which the instructions and
the operations of a run share. Each completes, raises #GP(0) with nothing changed, or is refused; none touches memory,
EFLAGS or CPL (41 R130). Refusals come after faults (60_exceptions R239). -/

namespace Sys2Proof.Machine

/-- Translations are made certain again: no value read by an earlier walk can be used any more
(70_reset_and_hazards R268). -/
def forgetWalks (s : State) : State := s.setWalked []

/-- Forget the walks if a write changed one of the bits 70_reset_and_hazards R268 names. -/
def forgetWalksIf (changed : Bool) (s : State) : State := if changed then forgetWalks s else s

/-- The bits of CR0 whose change makes translations certain: PG and WP (70_reset_and_hazards R268). -/
def cr0ModeChange (old new : Word) : Bool := (cr0Pg old != cr0Pg new) || (cr0Wp old != cr0Wp new)

/-- The bits of CR4 whose change makes translations certain: PAE, PSE, PGE, SMEP and SMAP
(70_reset_and_hazards R268). -/
def cr4ModeChange (f : Features) (old new : Word) : Bool :=
  (cr4Pae f old != cr4Pae f new) || (cr4Pse f old != cr4Pse f new) || (cr4Pge f old != cr4Pge f new)
    || (cr4Smep f old != cr4Smep f new) || (cr4Smap f old != cr4Smap f new)

/-- `MovToCR0(v)` (41_mode_enabling R131). -/
def movToCr0 (v : Word) (s : State) : Res State :=
  if s.cpl ≠ 0 then raiseGP0 s
  else if cr0Pg v && !cr0Pe v then raiseGP0 s
  else if !s.pg && cr0Pg v && !s.pae && s.lme then raiseGP0 s
  else if s.pg && !cr0Pg v && s.pcide then raiseGP0 s
  else if changesOutside cr0Named s.cr0 v then .refused (.unnamedControlBits .cr0)
  else .next (forgetWalksIf (cr0ModeChange s.cr0 v) (s.setCr0 v))

/-- `MovToCR3(v)` (41_mode_enabling R132). No bit of `v` is checked. -/
def movToCr3 (v : Word) (s : State) : Res State :=
  if s.cpl ≠ 0 then raiseGP0 s
  else .next (forgetWalks (s.setCr3 v))

/-- `MovToCR4(v)` (41_mode_enabling R133). -/
def movToCr4 (v : Word) (s : State) : Res State :=
  if s.cpl ≠ 0 then raiseGP0 s
  else if s.pg && s.lme && s.pae && !cr4Pae s.params.features v then raiseGP0 s
  else if !s.pcide && cr4Pcide s.params.features v && (!(s.pg && s.lme) || decide (s.cr3.extractLsb' 0 12 ≠ 0)) then
    raiseGP0 s
  else if changesOutside (cr4Named s.params.features) s.cr4 v then .refused (.unnamedControlBits .cr4)
  else .next (forgetWalksIf (cr4ModeChange s.params.features s.cr4 v) (s.setCr4 v))

/-- The number of IA32_EFER (10_state R37). -/
def eferIndex : Word := 0xC0000080

/-- IA32_EFER as RDMSR returns it: bit 10 replaced by `LMA()` (41_mode_enabling R136). -/
def eferValue (s : State) : MsrWord := (s.efer &&& ~~~0x400) ||| (if s.lma then 0x400 else 0)

/-- `Wrmsr(idx, v)` (41_mode_enabling R134): only LME is written. A processor without IA32_EFER does not implement its
number (30_encoding R97). -/
def wrmsrTo (idx : Word) (v : MsrWord) (s : State) : Res State :=
  if s.cpl ≠ 0 then raiseGP0 s
  else if idx ≠ eferIndex then .refused (.otherMsr idx)
  else if !s.params.features.efer then raiseGP0 s
  else if s.pg && (eferLme s.params.features v != s.lme) then raiseGP0 s
  else if changesOutside eferNamed (eferValue s) v then .refused .unnamedEferBits
  else .next (s.setEfer ((s.efer &&& ~~~eferNamed) ||| (v &&& eferNamed)))

/-- The control register `n` names. -/
def ctlRegValue (s : State) : CtlReg → Word
  | .cr0 => s.cr0
  | .cr3 => s.cr3
  | .cr4 => s.cr4

/-- `MovFromCR(n)` (41_mode_enabling R135): all 32 bits as last written. -/
def movFromCr (n : CtlReg) (s : State) : Res Word :=
  if s.cpl ≠ 0 then raiseGP0 s
  else .next (ctlRegValue s n)

/-- `Rdmsr(idx)` (41_mode_enabling R136). A processor without IA32_EFER does not implement its number
(30_encoding R97). -/
def rdmsrFrom (idx : Word) (s : State) : Res MsrWord :=
  if s.cpl ≠ 0 then raiseGP0 s
  else if idx ≠ eferIndex then .refused (.otherMsr idx)
  else if !s.params.features.efer then raiseGP0 s
  else .next (eferValue s)

/-- `VmxTransition`: refused (41_mode_enabling R137, 92 D17). -/
def vmxTransition : Res State := .refused .vmxTransition

end Sys2Proof.Machine
end

