-- ==== Sys2Proof/Machine/Paging32.lean ====
section
/-! DEFINITION. 32-bit paging: the addresses of the entries, reserved bits, access rights, the walk, and the accessed
and dirty flags (43_32bit_paging). -/

namespace Sys2Proof.Machine

/-! ### Address formation: concatenations only (00_scope R8) -/

/-- The address of the PDE: bits 39:32 are 0, 31:12 from CR3, 11:2 are la[31:22], 1:0 are 0 (43_32bit_paging R193). -/
def pdeAddr (cr3 la : Word) : PhysAddr :=
  (0 : BitVec 8) ++ cr3.extractLsb' 12 20 ++ la.extractLsb' 22 10 ++ (0 : BitVec 2)

/-- The address of the PTE: bits 39:32 are 0, 31:12 from the PDE, 11:2 are la[21:12], 1:0 are 0
(43_32bit_paging R198). -/
def pteAddr (pde la : Word) : PhysAddr :=
  (0 : BitVec 8) ++ pde.extractLsb' 12 20 ++ la.extractLsb' 12 10 ++ (0 : BitVec 2)

/-- The final address in a 4-KByte page: 39:32 are 0, 31:12 from the PTE, 11:0 from la (43_32bit_paging R200). -/
def page4KAddr (pte la : Word) : PhysAddr :=
  (0 : BitVec 8) ++ pte.extractLsb' 12 20 ++ la.extractLsb' 0 12

/-- The final address in a 4-MByte page: 39:32 are pde[20:13], 31:22 are pde[31:22], 21:0 from la
(43_32bit_paging R196). -/
def page4MAddr (pde la : Word) : PhysAddr :=
  pde.extractLsb' 13 8 ++ pde.extractLsb' 22 10 ++ la.extractLsb' 0 22

/-- With paging off a linear address is the physical address (40_paging_modes R111, 20_memory R64). -/
def unpagedAddr (la : Word) : PhysAddr := la.setWidth 40

/-! ### Fields of an entry (43_32bit_paging R206) -/

def entryP (e : Word) : Bool := e.getLsbD 0
def entryRw (e : Word) : Bool := e.getLsbD 1
def entryUs (e : Word) : Bool := e.getLsbD 2
def entryPs (e : Word) : Bool := e.getLsbD 7

/-- The accessed flag, bit 5. -/
def maskA : Word := 0x20

/-- The dirty flag, bit 6. -/
def maskD : Word := 0x40

/-- A PDE with P = 1 maps a 4-MByte page when CR4.PSE = 1 and PS = 1 (43_32bit_paging R195). -/
def maps4M (s : State) (pde : Word) : Bool := s.pse && entryPs pde

/-! ### Reserved bits (43_32bit_paging R203) -/

/-- Bits 20:13 of a 4-MByte PDE that would supply physical-address bits at or above M: bits 20:(M-19). -/
def pdeBitsAboveM (m : Nat) : Word := ((0x001FE000 : Word) >>> (m - 19)) <<< (m - 19)

/-- Reserved bits of a PDE that references a page table: those of `ReservedBits32`, by default none. -/
def reservedPdeTable (p : Params) : Word := p.reservedBits.pdeTable

/-- Reserved bits of a PDE that maps a 4-MByte page: those of `ReservedBits32`, by default bit 21; bit 12 where it is no
memory-type flag; and those of bits 20:13 that supply no physical-address bit, all of 21:13 without `PSE36`. -/
def reservedPde4M (p : Params) : Word :=
  p.reservedBits.pde4M ||| (if p.patSupported then 0 else 0x00001000)
    ||| (if p.pse36 then pdeBitsAboveM p.physBits else 0x003FE000)

/-- Reserved bits of a PTE: those of `ReservedBits32`, by default none, and bit 7 where it is no memory-type flag. -/
def reservedPte (p : Params) : Word := p.reservedBits.pte ||| (if p.patSupported then 0 else 0x00000080)

/-- Does an entry have a reserved bit set? -/
def hasReserved (mask e : Word) : Bool := decide (e &&& mask ≠ 0)

/-! ### Access rights -/

/-- US, the combined user right of a translation (43_32bit_paging R207); no PTE for a 4-MByte page. -/
def combinedUs (pde : Word) : Option Word → Bool
  | none => entryUs pde
  | some pte => entryUs pde && entryUs pte

/-- RW, the combined write right of a translation (43_32bit_paging R207). -/
def combinedRw (pde : Word) : Option Word → Bool
  | none => entryRw pde
  | some pte => entryRw pde && entryRw pte

/-- `AccessPermitted(acc, US, RW)`, the default predicate (43_32bit_paging R207). -/
def standardRights (s : State) (acc : Access) (us rw : Bool) : Bool :=
  let smapOk := !s.smap || (s.ac && acc.explicit)
  match acc.mode, acc.kind with
  | .user, .read => us
  | .user, .write => us && rw
  | .user, .fetch => us
  | .supervisor, .read => !us || smapOk
  | .supervisor, .write => (!s.wp || rw) && (!us || smapOk)
  | .supervisor, .fetch => !us || !s.smep

/-- An entry passes a test. -/
def BitTest.holds (b : BitTest) (e : Word) : Bool := decide (e &&& b.mask = b.value)

/-- The PTE of a translation, or there being none, passes a test. -/
def PteTest.holds : PteTest → Option Word → Bool
  | .any, _ => true
  | .absent, pte => pte.isNone
  | .present b, pte => pte.any (BitTest.holds b)

/-- An argument of a rule has the value the rule names, if it names one. -/
def agrees {α : Type} [DecidableEq α] (want : Option α) (v : α) : Bool := want.all fun w => decide (w = v)

/-- A rule of a rights predicate given as data is met. -/
def RightsRule.holds (r : RightsRule) (s : State) (acc : Access) (pde : Word) (pte : Option Word) : Bool :=
  agrees r.kind acc.kind && agrees r.mode acc.mode && agrees r.explicit acc.explicit && agrees r.wp s.wp
    && agrees r.smep s.smep && agrees r.smap s.smap && agrees r.ac s.ac && BitTest.holds r.pde pde
    && PteTest.holds r.pte pte

/-- `AccessPermitted(acc, pde, pte or none, CR0.WP, CR4.SMEP, CR4.SMAP, AC)` (00_scope R5, 92 D8): the default predicate on
the combined rights, or the one the implementation replaces it by. -/
def accessPermitted (s : State) (acc : Access) (pde : Word) (pte : Option Word) : Bool :=
  match s.params.accessRights with
  | .standard => standardRights s acc (combinedUs pde pte) (combinedRw pde pte)
  | .byRules rules => rules.any fun r => RightsRule.holds r s acc pde pte

/-! ### Reading an entry -/

/-- An entry as a walk has it: where it stands, its value, and whether that is what memory holds (`fresh`) or what an
earlier walk read (70_reset_and_hazards R268). -/
structure EntryRead where
  addr : Nat
  value : Word
  fresh : Bool
  deriving DecidableEq, Repr

/-- The values earlier walks read at an address that memory does not hold there now: old values of the entry that are
still possible (70_reset_and_hazards R268).

DESIGN CHOICE (entry 10), unsafe for a processor that loads translations ahead of need: "the old entry" is a value that a
walk has used. Of two stores to an entry with no walk between that used what the first one stored, the second leaves the
value walks used before and the present one possible, never the value between the two. R268 speaks of the old entry of a
store, 93 U21 of a change "since a walk last read it"; this follows U21. -/
def staleValues (walked : List (Nat × Word)) (a : Nat) (now : Word) : List Word :=
  (walked.filter fun e => decide (e.1 = a) && decide (e.2 ≠ now)).map Prod.snd

/-- One of the old values or the present one, each choice by a draw: "either the one the old entry gave or the one the
new entry gives, not determined" (70_reset_and_hazards R268; entry 10). No draw is made when nothing is stale. -/
def chooseValue (now : Word) : List Word → State → (Word × Bool) × State
  | [], s => ((now, true), s)
  | old :: olds, s =>
    if (drawWord s).1.getLsbD 0 then ((old, false), (drawWord s).2)
    else chooseValue now olds (drawWord s).2

/-- Remember that a walk read a present entry; an entry with P = 0 leaves nothing stale (70_reset_and_hazards R268). -/
def recordWalk (a : Nat) (v : Word) (s : State) : State :=
  if entryP v && !s.walked.contains (a, v) then s.setWalked ((a, v) :: s.walked) else s

/-- Read one 32-bit entry: four aligned bytes at one instant (20_memory R70), not themselves translated (20_memory R60)
and subject to what memory stands there (20_memory R71). -/
def readEntry (a : PhysAddr) (s : State) : Res (EntryRead × State) :=
  andThen (checkReads s.params a.toNat 4) fun _ =>
    let now := wordAt s.mem a.toNat
    let chosen := chooseValue now (staleValues s.walked a.toNat now) s
    .next (⟨a.toNat, chosen.1.1, chosen.1.2⟩, recordWalk a.toNat chosen.1.1 chosen.2)

/-! ### Accessed and dirty flags (43_32bit_paging R208) -/

/-- Flags a translation sets in an entry it used; `certain` when the entry's present value was the one used. -/
structure FlagUpdate where
  addr : Nat
  mask : Word
  certain : Bool
  deriving DecidableEq, Repr

/-- The accessed flag of an entry. -/
def flagA (e : EntryRead) : FlagUpdate := ⟨e.addr, maskA, e.fresh⟩

/-- The accessed flag of the entry that maps the page, and on a write the dirty flag. -/
def flagAD (acc : Access) (e : EntryRead) : FlagUpdate :=
  ⟨e.addr, if acc.kind = .write then maskA ||| maskD else maskA, e.fresh⟩

/-- The processor's own update is no change of the entry by a store: what walks read moves with it
(70_reset_and_hazards R268). -/
def moveWalked (a : Nat) (old new : Word) (w : List (Nat × Word)) : List (Nat × Word) :=
  w.map fun e => if e = (a, old) then (a, new) else e

/-- `PhysWrite(addr, 4, entry OR bits)`, applied to what memory holds now (43_32bit_paging R208, R209). -/
def orEntry (a : Nat) (bits : Word) (s : State) : Res State :=
  let old := wordAt s.mem a
  andThen (physWrite a (wordBytes (old ||| bits)) s) fun s1 =>
    .next (s1.setWalked (moveWalked a old (old ||| bits) s1.walked))

/-- Set flags that may or may not become set: a draw for each bit; memory that cannot be written keeps the entry
(70_reset_and_hazards R269). -/
def maySetFlag (u : FlagUpdate) (s : State) : State :=
  let bits := u.mask &&& ~~~(wordAt s.mem u.addr) &&& (drawWord s).1
  if bits = 0 then (drawWord s).2
  else
    match orEntry u.addr bits (drawWord s).2 with
    | .next s' => s'
    | .fault _ => (drawWord s).2
    | .refused _ => (drawWord s).2

/-- The flag writes of translations that did not all succeed: draws (43_32bit_paging R208, 20_memory R69). -/
def maySetFlags : List FlagUpdate → State → State
  | [], s => s
  | u :: us, s => maySetFlags us (maySetFlag u s)

/-- Set the flags of one entry, each "when the bit is not already 1" (43_32bit_paging R208). Where an old value of the
entry was used, whether its present value gets the flags is a draw (entry 10). -/
def setFlag (u : FlagUpdate) (s : State) : Res State :=
  if u.certain then
    let bits := u.mask &&& ~~~(wordAt s.mem u.addr)
    if bits = 0 then .next s else orEntry u.addr bits s
  else .next (maySetFlag u s)

/-- The flag writes of translations that succeeded, in order (43_32bit_paging R209). -/
def setFlags : List FlagUpdate → State → Res State
  | [], s => .next s
  | u :: us, s => andThen (setFlag u s) (setFlags us)

/-! ### The walk -/

/-- The end of a translation: a physical address, or a page fault with its error code; and the flag updates of the
entries used, which are made if the access succeeds and drawn if it does not. -/
inductive Translation where
  | mapped (pa : PhysAddr) (flags : List FlagUpdate)
  | pageFault (code : Word) (flags : List FlagUpdate)
  deriving DecidableEq, Repr

/-- The last steps for a PDE that maps a 4-MByte page (43_32bit_paging R209, first branch). -/
def finish4M (s : State) (la : Word) (acc : Access) (pde : EntryRead) : Translation :=
  if hasReserved (reservedPde4M s.params) pde.value then .pageFault (errorCode s acc true true) []
  else if !accessPermitted s acc pde.value none then
    .pageFault (errorCode s acc true false) [flagA pde]
  else .mapped (page4MAddr pde.value la) [flagAD acc pde]

/-- The last steps for a PTE (43_32bit_paging R209, second branch). -/
def finish4K (s : State) (la : Word) (acc : Access) (pde pte : EntryRead) : Translation :=
  if !entryP pte.value then .pageFault (errorCode s acc false false) [flagA pde]
  else if hasReserved (reservedPte s.params) pte.value then .pageFault (errorCode s acc true true) [flagA pde]
  else if !accessPermitted s acc pde.value (some pte.value) then
    .pageFault (errorCode s acc true false) [flagA pde, flagA pte]
  else .mapped (page4KAddr pte.value la) [flagA pde, flagAD acc pte]

/-- `Translate32(la, acc)` (43_32bit_paging R209), its flag writes still to be made. A PDE that references a page table is
tested for reserved bits as every entry of a walk is (42_hierarchical_overview R166); by default it has none. -/
def translate32 (la : Word) (acc : Access) (s : State) : Res (Translation × State) :=
  andThen (readEntry (pdeAddr s.cr3 la) s) fun (pde, s1) =>
    if !entryP pde.value then .next (.pageFault (errorCode s acc false false) [], s1)
    else if maps4M s pde.value then .next (finish4M s la acc pde, s1)
    else if hasReserved (reservedPdeTable s.params) pde.value then .next (.pageFault (errorCode s acc true true) [], s1)
    else
      andThen (readEntry (pteAddr pde.value la) s1) fun (pte, s2) => .next (finish4K s la acc pde pte, s2)

/-- `Translate(la, acc)`: the dispatcher (40_paging_modes R112). -/
def translateLinear (la : Word) (acc : Access) (s : State) : Res (Translation × State) :=
  match pagingMode s with
  | .noPaging => .next (.mapped (unpagedAddr la) [], s)
  | .paging32 => translate32 la acc s
  | .pagingPae => .refused .paeTranslation
  | .paging4Level => .refused .fourLevelTranslation

end Sys2Proof.Machine
end

