-- ==== Sys2Proof/Machine/Access.lean ====
section
/-! DEFINITION. Accesses by linear address: splitting at page boundaries, translating every piece, then reading or
writing (20_memory R69, 30_encoding R90). -/

namespace Sys2Proof.Machine

/-- A part of an access that lies in one 4-KByte region. -/
structure Piece where
  la : Word
  len : Nat
  deriving DecidableEq, Repr

/-- A piece's place in physical memory. -/
structure Span where
  pa : PhysAddr
  len : Nat
  deriving DecidableEq, Repr

/-- How many bytes from `la` on lie before the next 4-KByte boundary. -/
def roomInPage (la : Word) : Nat := 4096 - la.toNat % 4096

/-- The `n` bytes at `la` split at every 4-KByte boundary, lowest first (20_memory R69); `fuel` bounds the number of
pieces, and `n` of it is enough. -/
def splitPieces : Nat → Word → Nat → List Piece
  | 0, _, _ => []
  | fuel + 1, la, n =>
    if n = 0 then []
    else if n ≤ roomInPage la then [⟨la, n⟩]
    else ⟨la, roomInPage la⟩ :: splitPieces fuel (la + BitVec.ofNat 32 (roomInPage la)) (n - roomInPage la)

/-- The pieces of an access. -/
def pieces (la : Word) (n : Nat) : List Piece := splitPieces n la n

/-- What translating the pieces of an access gives: where they all are, or the first failing piece; and the flag
updates of every walk made. -/
inductive Plan where
  | spans (places : List Span) (flags : List FlagUpdate)
  | pageFault (la : Word) (code : Word) (flags : List FlagUpdate)
  deriving DecidableEq, Repr

/-- A plan with a translated piece before it. -/
def Plan.after (sp : Span) (fl : List FlagUpdate) : Plan → Plan
  | .spans l fl' => .spans (sp :: l) (fl ++ fl')
  | .pageFault la code fl' => .pageFault la code (fl ++ fl')

/-- Translate the first byte of each piece, lowest piece first, up to the first that fails (20_memory R69,
60_exceptions R238). -/
def planPieces (acc : Access) : List Piece → State → Res (Plan × State)
  | [], s => .next (.spans [] [], s)
  | p :: ps, s =>
    andThen (translateLinear p.la acc s) fun (t, s1) =>
      match t with
      | .pageFault code fl => .next (.pageFault p.la code fl, s1)
      | .mapped pa fl => andThen (planPieces acc ps s1) fun (r, s2) => .next (r.after ⟨pa, p.len⟩ fl, s2)

/-- What a plan leads to: the places of the bytes with every accessed and dirty flag set, or the page fault of the
lowest failing piece with the flags drawn (20_memory R69, 43_32bit_paging R208, 60_exceptions R234). With
`setsAccessedDirty` false no flag is written (43_32bit_paging R208). -/
def commitPlan (plan : Plan) (s : State) : Res (List Span × State) :=
  match plan with
  | .spans l fl => if s.params.setsAccessedDirty then andThen (setFlags fl s) fun t => .next (l, t) else .next (l, s)
  | .pageFault la code fl => raisePF la code (if s.params.setsAccessedDirty then maySetFlags fl s else s)

/-- Translate an access whole (20_memory R69). -/
def beginAccess (la : Word) (n : Nat) (acc : Access) (s : State) : Res (List Span × State) :=
  if !accessWf la n then .refused (.accessLength la n)
  else andThen (planPieces acc (pieces la n) s) fun (plan, s1) => commitPlan plan s1

/-- The bytes at the places of an access, in order. -/
def readSpans : List Span → State → Res (List Byte)
  | [], _ => .next []
  | sp :: l, s =>
    andThen (physRead s sp.pa.toNat sp.len) fun bs => andThen (readSpans l s) fun rest => .next (bs ++ rest)

/-- Every place of an access may be written. -/
def checkSpans (p : Params) : List Span → Res Unit
  | [] => .next ()
  | sp :: l => andThen (checkWrites p sp.pa.toNat sp.len) fun _ => checkSpans p l

/-- Memory with bytes stored at the places of an access, in order. -/
def storeSpans (m : List Host.Cell) : List Span → List Byte → List Host.Cell
  | [], _ => m
  | sp :: l, bs => storeSpans (storeBytes m sp.pa.toNat (bs.take sp.len)) l (bs.drop sp.len)

/-- `MemRead(la, n, acc)` (00_scope R9, 20_memory R69). -/
def memRead (la : Word) (n : Nat) (acc : Access) (s : State) : Res (List Byte × State) :=
  andThen (beginAccess la n acc s) fun (l, s1) => andThen (readSpans l s1) fun bs => .next (bs, s1)

/-- `MemWrite(la, n, v, acc)`: no byte is written unless every byte can be (00_scope R9, 20_memory R69,
60_exceptions R249). -/
def memWrite (la : Word) (bs : List Byte) (acc : Access) (s : State) : Res State :=
  andThen (beginAccess la bs.length acc s) fun (l, s1) =>
    andThen (checkSpans s1.params l) fun _ => .next (s1.setMem (storeSpans s1.mem l bs))

/-- The mode of an access the processor makes at a privilege level: user when CPL = 3 and the access is not implicit
(10_state R42, 43_32bit_paging R207, 60_exceptions R243). -/
def modeAt (cpl : BitVec 2) (isImplicit : Bool) : AccessMode :=
  if cpl = 3 ∧ isImplicit = false then .user else .supervisor

/-- The access descriptor of an access of a kind, explicit or implicit, at the current privilege level: its mode is
derived from CPL (00_scope R9, 10_state R42, 92 D14). -/
def accessAt (s : State) (k : AccessKind) (explicit : Bool) : Access := ⟨k, modeAt s.cpl (!explicit), explicit⟩

/-- `Load(la, n, acc)` (30_encoding R90). -/
def load (la : Word) (n : Nat) (explicit : Bool) (s : State) : Res State :=
  andThen (memRead la n (accessAt s .read explicit) s) fun (bs, s1) => .next (s1.setResult (.bytes bs))

/-- `Store(la, n, v, acc)` (30_encoding R90). -/
def store (la : Word) (v : List Byte) (explicit : Bool) (s : State) : Res State :=
  memWrite la v (accessAt s .write explicit) s

/-- `Fetch(la, n, acc)` (30_encoding R90). -/
def fetch (la : Word) (n : Nat) (explicit : Bool) (s : State) : Res State :=
  andThen (memRead la n (accessAt s .fetch explicit) s) fun (bs, s1) => .next (s1.setResult (.bytes bs))

/-- An instruction fetch made by the program at the current privilege level (10_state R41, R42). -/
def codeAccess (s : State) : Access := accessAt s .fetch true

/-- Fetch the bytes of the instruction at EIP: one access of kind fetch, of the instruction's length. The length is
known from the first two bytes (30_encoding R98), looked at first; that look leaves no trace. Entry 28. -/
def fetchCode (s : State) : Res (List Byte × State) :=
  andThen (memRead s.eip 2 (codeAccess s) s) fun (bs, s1) =>
    if needsModrm bs then memRead s.eip 3 (codeAccess s) s else .next (bs, s1)

end Sys2Proof.Machine
end

