-- ==== Sys2Proof/Machine/MovCr.lean ====
section
/-! DEFINITION. The meanings of MOV to and from a control register. The `mod` field is ignored (30_encoding R92). -/

namespace Sys2Proof.Machine

/-- MOV CR0, r32: `MovToCR0( x[r] )` (30_encoding R92, 41_mode_enabling R131). -/
def execMovCr0R32 (_md : BitVec 2) (r : Reg) (s : State) : Res State := movToCr0 (readGpr s r) s

/-- MOV CR3, r32: `MovToCR3( x[r] )` (30_encoding R92, 41_mode_enabling R132). -/
def execMovCr3R32 (_md : BitVec 2) (r : Reg) (s : State) : Res State := movToCr3 (readGpr s r) s

/-- MOV CR4, r32: `MovToCR4( x[r] )` (30_encoding R92, 41_mode_enabling R133). -/
def execMovCr4R32 (_md : BitVec 2) (r : Reg) (s : State) : Res State := movToCr4 (readGpr s r) s

/-- MOV r32, CR0: `x[r] <- MovFromCR(0)` (30_encoding R93, 41_mode_enabling R135). -/
def execMovR32Cr0 (_md : BitVec 2) (r : Reg) (s : State) : Res State :=
  andThen (movFromCr .cr0 s) fun v => .next (writeGpr r v s)

/-- MOV r32, CR3: `x[r] <- MovFromCR(3)` (30_encoding R93, 41_mode_enabling R135). -/
def execMovR32Cr3 (_md : BitVec 2) (r : Reg) (s : State) : Res State :=
  andThen (movFromCr .cr3 s) fun v => .next (writeGpr r v s)

/-- MOV r32, CR4: `x[r] <- MovFromCR(4)` (30_encoding R93, 41_mode_enabling R135). -/
def execMovR32Cr4 (_md : BitVec 2) (r : Reg) (s : State) : Res State :=
  andThen (movFromCr .cr4 s) fun v => .next (writeGpr r v s)

end Sys2Proof.Machine
end

