-- ==== Sys2Proof/Machine/Msr.lean ====
section
/-! DEFINITION. The meanings of WRMSR and RDMSR. -/

namespace Sys2Proof.Machine

/-- WRMSR: `Wrmsr( x[ECX], { x[EDX], x[EAX] } )` (30_encoding R94, 41_mode_enabling R134). -/
def execWrmsr (s : State) : Res State := wrmsrTo (msrIndex s) (readEdxEax s) s

/-- RDMSR: `{ x[EDX], x[EAX] } <- Rdmsr( x[ECX] )` (30_encoding R95, 41_mode_enabling R136). -/
def execRdmsr (s : State) : Res State :=
  andThen (rdmsrFrom (msrIndex s) s) fun v => .next (writeEdxEax v s)

end Sys2Proof.Machine
end

