-- ==== Sys2Proof/Machine/Dispatch.lean ====
section
/-! DEFINITION. One arm per instruction of the table. -/

namespace Sys2Proof.Machine

def exec (i : Instr) (s : State) : Host.Outcome State Fault Refusal :=
  match i with
  | .movCr0R32 md r => Sys2Proof.Machine.execMovCr0R32 md r s
  | .movCr3R32 md r => Sys2Proof.Machine.execMovCr3R32 md r s
  | .movCr4R32 md r => Sys2Proof.Machine.execMovCr4R32 md r s
  | .movR32Cr0 md r => Sys2Proof.Machine.execMovR32Cr0 md r s
  | .movR32Cr3 md r => Sys2Proof.Machine.execMovR32Cr3 md r s
  | .movR32Cr4 md r => Sys2Proof.Machine.execMovR32Cr4 md r s
  | .wrmsr => Sys2Proof.Machine.execWrmsr s
  | .rdmsr => Sys2Proof.Machine.execRdmsr s

end Sys2Proof.Machine
end

