-- ==== Sys2Proof/Machine/Perform.lean ====
section
/-! DEFINITION. Performing one operation of a run (30_encoding R90), machine code among them (30_encoding R91). -/

namespace Sys2Proof.Machine

/-- Run the instruction at the head of some bytes; bytes that are no instruction are refused (30_encoding R97). -/
def runCode (bytes : List Byte) (s : State) : Res State :=
  match decode bytes with
  | .ok i _ => exec i s
  | .refused e => .refused (.undecodable e)

/-- Move EIP past an instruction (entry 3). -/
def advanceEip (i : Instr) (s : State) : State := s.setEip (s.eip + BitVec.ofNat 32 (instrLength i))

/-- Fetch the instruction at EIP, run it, and move EIP past it. A fault leaves EIP at the instruction
(60_exceptions R240). -/
def execute (s : State) : Res State :=
  andThen (fetchCode s) fun (bytes, s1) =>
    match decode bytes with
    | .ok i _ => andThen (exec i s1) fun s2 => .next (advanceEip i s2)
    | .refused e => .refused (.undecodable e)

/-- Perform one operation (30_encoding R90). -/
def perform (op : Op) (s : State) : Res State :=
  match op with
  | .movToCr0 v => movToCr0 v s
  | .movToCr3 v => movToCr3 v s
  | .movToCr4 v => movToCr4 v s
  | .wrmsr idx v => wrmsrTo idx v s
  | .movFromCr n => andThen (movFromCr n s) fun v => .next (s.setResult (.word v))
  | .rdmsr idx => andThen (rdmsrFrom idx s) fun v => .next (s.setResult (.msr v))
  | .vmxTransition => vmxTransition
  | .load la n explicit => load la n explicit s
  | .store la v explicit => store la v explicit s
  | .fetch la n explicit => fetch la n explicit s
  | .code bytes => runCode bytes s
  | .execute => execute s

/-- The state with the next operation taken off the run and no result yet. -/
def takeOp (rest : List Op) (s : State) : State := (s.setRun rest).setResult .nothing

end Sys2Proof.Machine
end

