-- ==== Sys2Proof/Machine/Step.lean ====
section
/-! DEFINITION. One step: the next operation of the run (30_encoding R90, 70_reset_and_hazards R272). -/

namespace Sys2Proof.Machine

/-- Perform the next operation of the run; an exhausted run has no further step (70_reset_and_hazards R272). -/
def step (s : State) : Host.Outcome State Fault Refusal :=
  match s.run with
  | [] => .refused .runExhausted
  | op :: rest => perform op (takeOp rest s)

/-- The state with the instruction of a table word as the next operation of its run: an instruction whose bytes are
supplied from outside (30_encoding R91). Entry 1 says how a program comes to run from reset. -/
def State.withFetchWord (s : State) (nbits w : Nat) : State := s.setRun (.code (tableBytes nbits w) :: s.run)

end Sys2Proof.Machine
end

