-- ==== Sys2Proof/Machine/Overview.lean ====
section
/-! DEFINITION. Hierarchical paging in general (42_hierarchical_overview): the parameters of the three modes, the
indices a linear address selects entries by, the addresses of entries, and the iterative procedure, for entries of 4 and
of 8 bytes. What the source gives of a mode is a definition; what it does not give of PAE and 4-level paging (R175) is an
argument of the procedure, `WalkRules`; the one open point that is settled here is what becomes of a linear address's bits
at and above W (entry 31). For 32-bit paging the procedure is instantiated. -/

namespace Sys2Proof.Machine

/-- The bits `hi:lo` of a linear address that select an entry. -/
structure Slice where
  hi : Nat
  lo : Nat
  deriving DecidableEq, Repr

/-- The parameters of a mode's walk (42_hierarchical_overview R176). -/
structure WalkParams where
  /-- W, the width of the linear address; the bits at and above it are ignored (`genericWalk`, entry 31) -/
  width : Nat
  /-- e, the size of an entry in bytes -/
  entryBytes : Nat
  /-- the index slices, top first -/
  slices : List Slice
  deriving DecidableEq, Repr

/-- The table of 42_hierarchical_overview R176 (R161, R162, R167 to R169); none with paging off. -/
def walkParams : PagingMode → Option WalkParams
  | .noPaging => none
  | .paging32 => some ⟨32, 4, [⟨31, 22⟩, ⟨21, 12⟩]⟩
  | .pagingPae => some ⟨32, 8, [⟨31, 30⟩, ⟨29, 21⟩, ⟨20, 12⟩]⟩
  | .paging4Level => some ⟨48, 8, [⟨47, 39⟩, ⟨38, 30⟩, ⟨29, 21⟩, ⟨20, 12⟩]⟩

/-- The number of entries a slice selects among: 2 to the number of its bits (42_hierarchical_overview R161, R162). -/
def Slice.entries (sl : Slice) : Nat := 2 ^ (sl.hi + 1 - sl.lo)

/-- `la[hi:lo]` -/
def Slice.index (sl : Slice) (la : Nat) : Nat := la / 2 ^ sl.lo % sl.entries

/-- The size in bytes of the structure a slice selects in (42_hierarchical_overview R160 to R162). -/
def WalkParams.structureBytes (p : WalkParams) (sl : Slice) : Nat := sl.entries * p.entryBytes

/-- The size in bytes of each paging structure of a mode, first structure first (42_hierarchical_overview R160,
R162). -/
def structureSizes (p : WalkParams) : List Nat := p.slices.map p.structureBytes

/-- The indices of a linear address, top first (42_hierarchical_overview R167 to R169). -/
def walkIndices (p : WalkParams) (la : Nat) : List Nat := p.slices.map fun sl => sl.index la

/-- The address of an entry: the structure's address with its low bits replaced by index * e, which puts a 10-bit index in
bits 11:2 of 4-byte entries, a 9-bit index in bits 11:3 of 8-byte entries, and the 2-bit index of the first structure of
PAE paging in bits 4:3 (42_hierarchical_overview R166, R174). -/
def WalkParams.entryAddr (p : WalkParams) (sl : Slice) (table la : Nat) : Nat :=
  table / p.structureBytes sl * p.structureBytes sl + sl.index la * p.entryBytes

/-- The page offset in a page of 2 to the `remaining` bytes (42_hierarchical_overview R163). -/
def pageOffset (la remaining : Nat) : Nat := la % 2 ^ remaining

/-- `PhysRead(a, e)` of an entry of 4 or 8 bytes, least significant byte first (20_memory R66). -/
def entryAt (m : List Host.Cell) (a e : Nat) : EntryBits :=
  if e = 8 then wordAt m (a + 4) ++ wordAt m a else (wordAt m a).setWidth 64

/-- The P flag of an entry of any mode: bit 0 (42_hierarchical_overview R170). -/
def entryPresent (e : EntryBits) : Bool := e.getLsbD 0

/-- The PS flag of an entry of any mode: bit 7 (42_hierarchical_overview R171). -/
def entryPageSize (e : EntryBits) : Bool := e.getLsbD 7

/-- What a mode adds to the iterative procedure (42_hierarchical_overview R166). The source gives it for 32-bit paging;
of PAE and 4-level paging it gives none of these (R175), so they are arguments there. -/
structure WalkRules where
  /-- the address of the first structure, from CR3 (R165) -/
  first : Nat
  /-- an entry read through a slice has a reserved bit set (R170) -/
  reserved : Slice → EntryBits → Bool
  /-- the mode honours the PS flag of an entry read through a slice (R171, R173) -/
  honoursPs : Slice → Bool
  /-- the physical address in an entry read through a slice that maps a page (R164) -/
  frame : Slice → EntryBits → Nat
  /-- the physical address in an entry that references a structure (R164) -/
  next : EntryBits → Nat

/-- The iterative procedure from a structure on (42_hierarchical_overview R166, R170 to R172): the physical address, or none
where there is no translation. The entry read through a slice ends the walk when it has P = 0 or a reserved bit; maps a
page, naturally aligned, when 12 bits of the address remain, or more and PS = 1; and else references the next
structure. -/
def walkFrom (p : WalkParams) (rules : WalkRules) (read : Nat → EntryBits) (la : Nat) : List Slice → Nat → Option Nat
  | [], _ => none
  | sl :: rest, table =>
    let e := read (p.entryAddr sl table la)
    if !entryPresent e || rules.reserved sl e then none
    else if sl.lo = 12 ∨ (12 < sl.lo ∧ entryPageSize e = true ∧ rules.honoursPs sl = true) then
      some (rules.frame sl e / 2 ^ sl.lo * 2 ^ sl.lo + pageOffset la sl.lo)
    else walkFrom p rules read la rest (rules.next e)

/-- `Walk(la)` of a mode over what memory holds (42_hierarchical_overview R166); none with paging off. An access in PAE or
4-level paging is refused all the same (R175, 92 D16).

DESIGN CHOICE (entry 31), unsafe for a claim about a wider address: `la` is any number, and its bits at and above the mode's
W are neither read nor checked (`genericWalk_mod_width`). What bits 63:48 of a linear address must be under 4-level paging
is not in the source (R175); no step of the machine calls this definition. -/
def genericWalk (mode : PagingMode) (rules : WalkRules) (m : List Host.Cell) (la : Nat) : Option Nat :=
  (walkParams mode).bind fun p => walkFrom p rules (fun a => entryAt m a p.entryBytes) la p.slices rules.first

/-- The rules of 32-bit paging (43_32bit_paging R191 to R203). -/
def rules32 (s : State) : WalkRules where
  first := s.cr3.toNat / 2 ^ 12 * 2 ^ 12
  reserved sl e :=
    let w := e.setWidth 32
    if sl.lo = 12 then hasReserved (reservedPte s.params) w
    else if maps4M s w then hasReserved (reservedPde4M s.params) w
    else hasReserved (reservedPdeTable s.params) w
  honoursPs _ := s.pse
  frame sl e :=
    if sl.lo = 12 then e.toNat / 2 ^ 12 * 2 ^ 12
    else e.toNat / 2 ^ 13 % 2 ^ 8 * 2 ^ 32 + e.toNat / 2 ^ 22 * 2 ^ 22
  next e := e.toNat / 2 ^ 12 * 2 ^ 12

/-- The iterative procedure of 32-bit paging over what memory holds, from the page directory CR3 locates. -/
def genericWalk32 (s : State) (la : Word) : Option Nat := genericWalk .paging32 (rules32 s) s.mem la.toNat

end Sys2Proof.Machine
end

