-- ==== Sys2Proof/Safety.lean ====
section
/-! DEFINITION. The terms claims are stated in: the invariants of the spec and of the model, states with nothing
stale, and what an access may change in memory. -/

namespace Sys2Proof.Machine

/-! ### Invariants -/

/-- (I1) CR0.PG = 1 implies CR0.PE = 1 (10_state R44, 41_mode_enabling R138). -/
def ProtectionInv (s : State) : Prop := s.pg = true → s.pe = true

/-- (I2) CR0.PG = 1 and EFER.LME = 1 imply CR4.PAE = 1 (10_state R44, 41_mode_enabling R138). -/
def LongModeInv (s : State) : Prop := s.pg = true → s.lme = true → s.pae = true

/-- (I1) and (I2). -/
def ModeInv (s : State) : Prop := ProtectionInv s ∧ LongModeInv s

/-- Memory is in canonical form and lists only addresses of the M-bit space (20_memory R62). -/
def MemoryInv (s : State) : Prop := Memory.wf s.mem = true ∧ ∀ c ∈ s.mem, c.1 < 2 ^ s.params.physBits

/-- An entry some walk may have read: present, 4-byte aligned (20_memory R67), below 4 GBytes (43_32bit_paging R210,
item 3). -/
def WalkedEntry (e : Nat × Word) : Prop := entryP e.2 = true ∧ e.1 % 4 = 0 ∧ e.1 < 2 ^ 32

/-- Every remembered entry is one some walk may have read. -/
def WalkedInv (s : State) : Prop := ∀ e ∈ s.walked, WalkedEntry e

/-- The invariants of the machine together. -/
def Inv (s : State) : Prop := ModeInv s ∧ MemoryInv s ∧ WalkedInv s

/-- A `ResetState` a model may take (10_state R45): it meets (I1) and (I2), where the bits exist, and its memory is in
canonical form and inside the M-bit space. -/
def ResetStateOk (p : Params) : Prop :=
  (p.resetState.cr0.getLsbD 31 = true → p.resetState.cr0.getLsbD 0 = true)
    ∧ (p.resetState.cr0.getLsbD 31 = true → p.features.efer = true → p.resetState.efer.getLsbD 8 = true →
      p.features.pae = true ∧ p.resetState.cr4.getLsbD 5 = true)
    ∧ Memory.wf p.resetState.mem = true ∧ ∀ c ∈ p.resetState.mem, c.1 < 2 ^ p.physBits

/-! ### Certain translations -/

/-- Nothing is stale: every remembered entry is what memory holds (70_reset_and_hazards R268). -/
def Settled (s : State) : Prop := ∀ e ∈ s.walked, wordAt s.mem e.1 = e.2

/-- Four bytes of memory that can be read and written stand at an address (20_memory R61). -/
def EntryInRam (s : State) (a : Nat) : Prop := ∀ i < 4, kindAt s.params (a + i) = some .ram

/-! ### Frames -/

/-- Every register and parameter of two states agrees: all fields but memory, the run, the result and the model's own
`walked` and `draws`. -/
def SameRegisters (s t : State) : Prop :=
  t.cr0 = s.cr0 ∧ t.cr3 = s.cr3 ∧ t.cr4 = s.cr4 ∧ t.efer = s.efer ∧ t.eflags = s.eflags ∧ t.cpl = s.cpl
    ∧ t.gprs = s.gprs ∧ t.eip = s.eip ∧ t.params = s.params

/-- A byte got accessed or dirty flags: bits 5 and 6 may have become 1, no bit became 0, no other bit changed
(43_32bit_paging R208). -/
def FlagsAdded (old new : Byte) : Prop := new ||| 0x60 = old ||| 0x60 ∧ old &&& new = old

/-- Memory changed only by accessed and dirty flags: every byte reads as before, but that the first byte of an aligned
word below 4 GBytes may have got flags (43_32bit_paging R208, 20_memory R71). -/
def FlagsOnly (m m' : List Host.Cell) : Prop :=
  ∀ a, byteAt m' a = byteAt m a ∨ (a % 4 = 0 ∧ a < 2 ^ 32 ∧ FlagsAdded (byteAt m a) (byteAt m' a))

/-- Memory changed only by given flag updates: a bit that changed became 1, and an update of its byte's address has it in
its mask (43_32bit_paging R208, 20_memory R71). The masks lie in the first byte of an entry. -/
def FlagsOf (fl : List FlagUpdate) (m m' : List Host.Cell) : Prop :=
  ∀ a i, (byteAt m' a).getLsbD i ≠ (byteAt m a).getLsbD i →
    (byteAt m' a).getLsbD i = true ∧ ∃ u ∈ fl, u.addr = a ∧ u.mask.getLsbD i = true

/-- The PDE that a walk of `la` reads, where it passes its own tests, P and the reserved bits (43_32bit_paging R209). -/
def WalkPassesPde (s : State) (la : Word) (e : EntryRead) : Prop :=
  entryP e.value = true
    ∧ hasReserved (if maps4M s e.value then reservedPde4M s.params else reservedPdeTable s.params) e.value = false
    ∧ ∃ s1, readEntry (pdeAddr s.cr3 la) s = .next (e, s1)

/-- The PTE that a walk of `la` reads, where it and the PDE that references its page table pass their own tests
(43_32bit_paging R209). -/
def WalkPassesPte (s : State) (la : Word) (e : EntryRead) : Prop :=
  entryP e.value = true ∧ hasReserved (reservedPte s.params) e.value = false
    ∧ ∃ pde s1 s2, readEntry (pdeAddr s.cr3 la) s = .next (pde, s1) ∧ entryP pde.value = true
      ∧ maps4M s pde.value = false ∧ hasReserved (reservedPdeTable s.params) pde.value = false
      ∧ readEntry (pteAddr pde.value la) s1 = .next (e, s2)

/-- A flag update that a walk of `la` may leave where it ends in a page fault: the accessed flag of an entry read before the
failing test (43_32bit_paging R208, 60_exceptions R234). An entry whose own P or reserved bits fail is none of these. -/
def FailedWalkFlag (s : State) (la : Word) (u : FlagUpdate) : Prop :=
  u.mask = 0x20 ∧ ∃ e, u.addr = e.addr ∧ (WalkPassesPde s la e ∨ WalkPassesPte s la e)

/-- A flag update of a walk of `la` that succeeds: the accessed flag of an entry it used, and on a write the dirty flag too of
the entry that maps the page, the PTE or a PDE that maps 4 MBytes (43_32bit_paging R208). -/
def WalkFlag (s : State) (la : Word) (acc : Access) (u : FlagUpdate) : Prop :=
  ∃ e, u.addr = e.addr
    ∧ ((u.mask = 0x20 ∧ (WalkPassesPde s la e ∨ WalkPassesPte s la e))
      ∨ (acc.kind = .write ∧ u.mask = 0x60
        ∧ (WalkPassesPte s la e ∨ (WalkPassesPde s la e ∧ maps4M s e.value = true))))

/-- A flag update of the walk of one of the pieces of an access, each translated after the pieces before it
(20_memory R69). -/
def PiecesFlag (acc : Access) (ps : List Piece) (s : State) (u : FlagUpdate) : Prop :=
  ∃ before p after l fl s1, ps = before ++ p :: after ∧ planPieces acc before s = .next (.spans l fl, s1)
    ∧ WalkFlag s1 p.la acc u

/-- An address is among the bytes of an access. -/
def InSpans (l : List Span) (a : Nat) : Prop := ∃ sp ∈ l, sp.pa.toNat ≤ a ∧ a < sp.pa.toNat + sp.len

/-! ### Register writes -/

/-- Two values agree in every bit whose position is not in a list. -/
def SameBitsBut {n : Nat} (named : List Nat) (old new : BitVec n) : Prop :=
  ∀ i < n, i ∉ named → new.getLsbD i = old.getLsbD i

/-- The positions of the bits of CR4 that are named and that the implementation has (92 D2, D18). -/
def cr4NamedBits (f : Features) : List Nat :=
  (if f.pse then [4] else []) ++ (if f.pae then [5] else []) ++ (if f.pge then [7] else [])
    ++ (if f.pcide then [17] else []) ++ (if f.smep then [20] else []) ++ (if f.smap then [21] else [])
    ++ (if f.pke then [22] else [])

/-- The conditions on which `MovToCR0(v)` raises #GP(0) (41_mode_enabling R131). -/
def Cr0WriteFaults (v : Word) (s : State) : Prop :=
  s.cpl ≠ 0 ∨ (v.getLsbD 31 = true ∧ v.getLsbD 0 = false)
    ∨ (s.pg = false ∧ v.getLsbD 31 = true ∧ s.pae = false ∧ s.lme = true)
    ∨ (s.pg = true ∧ v.getLsbD 31 = false ∧ s.pcide = true)

/-- The conditions on which `MovToCR4(v)` raises #GP(0) (41_mode_enabling R133). -/
def Cr4WriteFaults (v : Word) (s : State) : Prop :=
  s.cpl ≠ 0 ∨ (s.pg = true ∧ s.lme = true ∧ s.pae = true ∧ cr4Pae s.params.features v = false)
    ∨ (s.pcide = false ∧ cr4Pcide s.params.features v = true
      ∧ (¬ (s.pg = true ∧ s.lme = true) ∨ s.cr3.extractLsb' 0 12 ≠ 0))

/-- The conditions on which `Wrmsr(C0000080H, v)` raises #GP(0) (41_mode_enabling R134; 30_encoding R97 where there is no
IA32_EFER). -/
def EferWriteFaults (v : MsrWord) (s : State) : Prop :=
  s.cpl ≠ 0 ∨ s.params.features.efer = false ∨ (s.pg = true ∧ eferLme s.params.features v ≠ s.lme)

/-! ### Accesses -/

/-- The Load, Store or Fetch of an access of a kind, of as many bytes at `la` as `v` has; a Store stores `v`
(30_encoding R90). -/
def accessOp (k : AccessKind) (la : Word) (v : List Byte) (explicit : Bool) : Op :=
  match k with
  | .read => .load la v.length explicit
  | .write => .store la v explicit
  | .fetch => .fetch la v.length explicit

/-- An operation makes an access by linear address: Load, Store and Fetch the one they name (30_encoding R90); `execute` the
fetch at EIP, of two bytes or of three (entry 28); no other operation any. -/
def MakesAccess (op : Op) (s : State) (la : Word) (n : Nat) (acc : Access) : Prop :=
  match op with
  | .load a m explicit => la = a ∧ n = m ∧ acc = accessAt s .read explicit
  | .store a v explicit => la = a ∧ n = v.length ∧ acc = accessAt s .write explicit
  | .fetch a m explicit => la = a ∧ n = m ∧ acc = accessAt s .fetch explicit
  | .execute => la = s.eip ∧ (n = 2 ∨ n = 3) ∧ acc = codeAccess s
  | .movToCr0 _ | .movToCr3 _ | .movToCr4 _ | .wrmsr _ _ | .movFromCr _ | .rdmsr _ | .vmxTransition | .code _ => False

end Sys2Proof.Machine
end

