-- ==== Sys2Proof/Certificates/Slice0/Obligations.lean ====
section
/-! DEFINITION. The statements for the provers. Where a clause rests on a choice of the model or of the spec's own
decisions, the docstring says so. -/

open Sys2Proof Sys2Proof.Machine

/-! ### Reset -/

/-- The registers after reset hold the values 10_state R45 and 70_reset_and_hazards R260 list. The spec marks them as its
own decision (92 D15: general knowledge), so this is the spec's choice, not its source's. The general registers, EIP,
memory and the parameters, the model's choices (entries 2, 3, 6, 7), are not in it. -/
def Obligations.ResetRegistersHoldTheListedValues : Prop :=
  State.reset.cr0 = 0x60000010 ∧ State.reset.cr3 = 0 ∧ State.reset.cr4 = 0 ∧ State.reset.efer = 0
    ∧ State.reset.eflags = 0x00000002 ∧ State.reset.ac = false ∧ State.reset.cpl = 0
    ∧ pagingMode State.reset = .noPaging

/-- The state after reset meets the invariants that StepKeepsTheInvariants keeps, and so does the state after reset of every
implementation whose ResetState meets I1 and I2 (10_state R45, 70_reset_and_hazards R261; the canonical form of memory and
the remembered entries are the model's, entries 6 and 10). -/
def Obligations.ResetMeetsTheInvariants : Prop :=
  Inv State.reset ∧ ∀ p : Params, ResetStateOk p → Inv (State.resetWith p)

/-! ### Encoding -/

/-- Decoding the encoding of any well-formed instruction, whatever bytes follow, gives that instruction back and leaves
the bytes that follow: every register and every value of the ignored mod field. -/
def Obligations.DecodeReadsBackEveryEncoding : Prop :=
  ∀ (i : Instr) (rest : List Byte), i.wf = true → decode (encode i ++ rest) = .ok i rest

/-- Bytes the decoder reads as an instruction are the encoding of that instruction, followed by what it leaves. -/
def Obligations.EveryDecodedInstructionIsItsEncoding : Prop :=
  ∀ (bytes : List Byte) (i : Instr) (rest : List Byte), decode bytes = .ok i rest → bytes = encode i ++ rest

/-- The words 30_encoding R92 to R95 spell out decode to the instructions they stand for. -/
def Obligations.SpelledOutWordsDecode : Prop :=
  decode [0x0F, 0x22, 0xC0] = .ok (.movCr0R32 3 .eax) [] ∧ decode [0x0F, 0x22, 0xD8] = .ok (.movCr3R32 3 .eax) []
    ∧ decode [0x0F, 0x22, 0xE0] = .ok (.movCr4R32 3 .eax) [] ∧ decode [0x0F, 0x20, 0xC0] = .ok (.movR32Cr0 3 .eax) []
    ∧ decode [0x0F, 0x20, 0xD8] = .ok (.movR32Cr3 3 .eax) [] ∧ decode [0x0F, 0x20, 0xE0] = .ok (.movR32Cr4 3 .eax) []
    ∧ decode [0x0F, 0x30] = .ok .wrmsr [] ∧ decode [0x0F, 0x32] = .ok .rdmsr []

/-- Encodings outside the table are refused by name: control register 2, control registers 1, 5, 6 and 7, a LOCK prefix
and an operand-size prefix (30_encoding R97, 93 U29). -/
def Obligations.EncodingsOutsideTheTableAreRefused : Prop :=
  ∀ (b : Byte) (rest : List Byte),
    (modrmReg b = 2 → decode (0x0F :: 0x22 :: b :: rest) = .refused .controlRegister2
      ∧ decode (0x0F :: 0x20 :: b :: rest) = .refused .controlRegister2)
    ∧ (modrmReg b = 1 ∨ modrmReg b = 5 ∨ modrmReg b = 6 ∨ modrmReg b = 7 →
      decode (0x0F :: 0x22 :: b :: rest) = .refused .noSuchControlRegister
      ∧ decode (0x0F :: 0x20 :: b :: rest) = .refused .noSuchControlRegister)
    ∧ decode (0xF0 :: rest) = .refused .lockPrefix ∧ decode (0x66 :: rest) = .refused .operandSizePrefix

/-! ### Steps -/

/-- When the next operation of the run is an instruction supplied as bytes, and the bytes decode, a step is that
instruction at the state with the operation taken off the run. (A run of supplied operations: entry 1.) -/
def Obligations.StepRunsASuppliedInstruction : Prop :=
  ∀ (s : State) (bytes tail : List Byte) (rest : List Op) (i : Instr),
    s.run = .code bytes :: rest → decode bytes = .ok i tail → i.wf = true →
    step s = exec i ((s.setRun rest).setResult .nothing)

/-- When the next operation is to execute the instruction at EIP, and the bytes fetched there decode, a step is that
instruction at the state the fetch leaves; if it completes, EIP moves past it. (EIP is the model's, entry 3.) -/
def Obligations.StepExecutesTheInstructionAtEip : Prop :=
  ∀ (s s1 : State) (bytes tail : List Byte) (rest : List Op) (i : Instr),
    s.run = .execute :: rest → fetchCode ((s.setRun rest).setResult .nothing) = .next (bytes, s1) →
    decode bytes = .ok i tail → i.wf = true →
    step s = andThen (exec i s1) fun t => .next (t.setEip (t.eip + BitVec.ofNat 32 (encode i).length))

/-- With paging off, the fetch at EIP gives the bytes of the instruction that stands in memory there, and changes
nothing. (EIP and the fetch are the model's, entries 3 and 28.) -/
def Obligations.UnpagedFetchGivesTheBytesAtEip : Prop :=
  ∀ (s : State) (i : Instr), s.pg = false → s.eip.toNat + instrLength i ≤ 2 ^ 32 →
    (∀ k < instrLength i, kindAt s.params (s.eip.toNat + k) = some .ram) →
    bytesAt s.mem s.eip.toNat (instrLength i) = encode i → fetchCode s = .next (encode i, s)

/-- A table word given to the machine is what the next step runs (the host's way in: entries 1 and 15). -/
def Obligations.WithFetchWordRunsTheTableWord : Prop :=
  ∀ (s : State) (nbits w : Nat) (i : Instr), decodeTableWord nbits w = some i →
    step (s.withFetchWord nbits w) = exec i (s.setResult .nothing)

/-- A run ends when its list is exhausted: no step is left (70_reset_and_hazards R272, a decision of the spec; that the
model answers with a refusal is entry 1). -/
def Obligations.AnExhaustedRunHasNoStep : Prop :=
  ∀ s : State, s.run = [] → step s = .refused .runExhausted

/-! ### Instructions: completion and result -/

/-- MOV CR0, r32 completes exactly as 41_mode_enabling R131 says when no check raises #GP(0) and only PE, WP and PG
differ: CR0 holds the register's value, and nothing else of the spec's state changes. What walks remembered is forgotten
when PG or WP changed (the model's own field, entry 10). -/
def Obligations.MovToCr0Completes : Prop :=
  ∀ (md : BitVec 2) (r : Reg) (s : State), ¬ Cr0WriteFaults (readGpr s r) s →
    SameBitsBut [0, 16, 31] s.cr0 (readGpr s r) →
    exec (.movCr0R32 md r) s = .next { s with
      cr0 := readGpr s r
      walked := if (readGpr s r).getLsbD 31 = s.cr0.getLsbD 31 ∧ (readGpr s r).getLsbD 16 = s.cr0.getLsbD 16
        then s.walked else [] }

/-- MOV CR3, r32 at CPL 0 loads CR3, whatever the value, and changes nothing else of the spec's state; at any other CPL
it raises #GP(0) and changes nothing (41_mode_enabling R132). What walks remembered is forgotten (entry 10). -/
def Obligations.MovToCr3LoadsCr3OrFaults : Prop :=
  ∀ (md : BitVec 2) (r : Reg) (s : State),
    (s.cpl = 0 → exec (.movCr3R32 md r) s = .next { s with cr3 := readGpr s r, walked := [] })
    ∧ (s.cpl ≠ 0 → exec (.movCr3R32 md r) s = .fault (.generalProtection 0 s))

/-- MOV CR4, r32 completes as 41_mode_enabling R133 says when no check raises #GP(0) and only named bits differ: CR4
holds the register's value, and nothing else of the spec's state changes. What walks remembered is forgotten when PAE,
PSE, PGE, SMEP or SMAP changed (entry 10). -/
def Obligations.MovToCr4Completes : Prop :=
  ∀ (md : BitVec 2) (r : Reg) (s : State), ¬ Cr4WriteFaults (readGpr s r) s →
    SameBitsBut (cr4NamedBits s.params.features) s.cr4 (readGpr s r) →
    exec (.movCr4R32 md r) s = .next { s with
      cr4 := readGpr s r
      walked := if ∀ i ∈ ([4, 5, 7, 20, 21] : List Nat), (readGpr s r).getLsbD i = s.cr4.getLsbD i then s.walked else [] }

/-- MOV r32, CRn at CPL 0 writes the control register, all 32 bits as last written, to the named general register and
changes nothing else (41_mode_enabling R135). -/
def Obligations.MovFromControlRegistersWritesTheRegister : Prop :=
  ∀ (md : BitVec 2) (r : Reg) (s : State), s.cpl = 0 →
    (∃ t, exec (.movR32Cr0 md r) s = .next t ∧ readGpr t r = s.cr0 ∧ (∀ r', r' ≠ r → readGpr t r' = readGpr s r')
      ∧ t = { s with gprs := t.gprs })
    ∧ (∃ t, exec (.movR32Cr3 md r) s = .next t ∧ readGpr t r = s.cr3 ∧ (∀ r', r' ≠ r → readGpr t r' = readGpr s r')
      ∧ t = { s with gprs := t.gprs })
    ∧ (∃ t, exec (.movR32Cr4 md r) s = .next t ∧ readGpr t r = s.cr4 ∧ (∀ r', r' ≠ r → readGpr t r' = readGpr s r')
      ∧ t = { s with gprs := t.gprs })

/-- WRMSR to IA32_EFER completes as 41_mode_enabling R134 says when no check raises #GP(0) and EDX:EAX differs from what
RDMSR would return in bit 8 at most: LME takes bit 8 of EAX, every other bit of the register stays, and nothing else
changes. -/
def Obligations.WrmsrWritesLme : Prop :=
  ∀ s : State, readGpr s .ecx = 0xC0000080 → ¬ EferWriteFaults (readGpr s .edx ++ readGpr s .eax) s →
    SameBitsBut [8, 10] s.efer (readGpr s .edx ++ readGpr s .eax) → (readGpr s .eax).getLsbD 10 = s.lma →
    ∃ t, exec .wrmsr s = .next t ∧ t.efer.getLsbD 8 = (readGpr s .eax).getLsbD 8 ∧ SameBitsBut [8] s.efer t.efer
      ∧ t = { s with efer := t.efer }

/-- RDMSR of IA32_EFER at CPL 0 returns the register in EDX:EAX with bit 10 replaced by LMA and changes nothing else
(41_mode_enabling R136, R147). -/
def Obligations.RdmsrReturnsEferWithLma : Prop :=
  ∀ s : State, s.cpl = 0 → readGpr s .ecx = 0xC0000080 → s.params.features.efer = true →
    ∃ t, exec .rdmsr s = .next t
      ∧ (∀ i < 32, (readGpr t .eax).getLsbD i = if i = 10 then (s.pg && s.lme) else s.efer.getLsbD i)
      ∧ (∀ i < 32, (readGpr t .edx).getLsbD i = s.efer.getLsbD (32 + i))
      ∧ (∀ r, r ≠ .eax → r ≠ .edx → readGpr t r = readGpr s r) ∧ t = { s with gprs := t.gprs }

/-! ### Instructions: faults and refusals -/

/-- The three attempts the source says cause #GP(0), each with nothing changed (60_exceptions R231). -/
def Obligations.TheSourcesThreeForbiddenChangesFault : Prop :=
  (∀ s : State, readGpr s .ecx = 0xC0000080 → s.params.features.efer = true → s.pg = true →
      (readGpr s .eax).getLsbD 8 ≠ s.efer.getLsbD 8 → exec .wrmsr s = .fault (.generalProtection 0 s))
    ∧ (∀ (md : BitVec 2) (r : Reg) (s : State), s.pg = false → (readGpr s r).getLsbD 31 = true → s.pae = false →
      s.lme = true → exec (.movCr0R32 md r) s = .fault (.generalProtection 0 s))
    ∧ ∀ (md : BitVec 2) (r : Reg) (s : State), s.pg = true → s.lme = true → s.pae = true →
      (readGpr s r).getLsbD 5 = false → exec (.movCr4R32 md r) s = .fault (.generalProtection 0 s)

/-- The further attempts that raise #GP(0) with nothing changed: setting PG without PE, clearing PG with PCIDE set,
setting PCIDE outside 4-level paging or with CR3[11:0] not 0; and WRMSR and RDMSR of IA32_EFER's number on a processor that
does not implement the register. The spec adds these from general knowledge and by its decision D10 (60_exceptions R232,
30_encoding R97). -/
def Obligations.TheAddedForbiddenChangesFault : Prop :=
  (∀ (md : BitVec 2) (r : Reg) (s : State),
    ((readGpr s r).getLsbD 31 = true → (readGpr s r).getLsbD 0 = false →
      exec (.movCr0R32 md r) s = .fault (.generalProtection 0 s))
    ∧ (s.pg = true → (readGpr s r).getLsbD 31 = false → s.pcide = true →
      exec (.movCr0R32 md r) s = .fault (.generalProtection 0 s))
    ∧ (s.params.features.pcide = true → s.pcide = false → (readGpr s r).getLsbD 17 = true →
      (s.lma = false ∨ s.cr3.extractLsb' 0 12 ≠ 0) → exec (.movCr4R32 md r) s = .fault (.generalProtection 0 s)))
    ∧ ∀ s : State, readGpr s .ecx = 0xC0000080 → s.params.features.efer = false →
      exec .wrmsr s = .fault (.generalProtection 0 s) ∧ exec .rdmsr s = .fault (.generalProtection 0 s)

/-- Outside CPL 0 every instruction of the table raises #GP(0) and changes nothing. The spec's decision D14
(41_mode_enabling R144). -/
def Obligations.EveryInstructionNeedsPrivilegeLevelZero : Prop :=
  ∀ (i : Instr) (s : State), s.cpl ≠ 0 → exec i s = .fault (.generalProtection 0 s)

/-- The only fault an instruction of the table has is #GP(0), and it leaves the state exactly as it was
(60_exceptions R230). -/
def Obligations.InstructionsFaultWithGeneralProtectionOnly : Prop :=
  ∀ (i : Instr) (s : State) (f : Fault), exec i s = .fault f → f = .generalProtection 0 s

/-- A write that would change a bit the source does not name is refused, once no check raises #GP(0): in CR0, in CR4, and in
IA32_EFER, where bit 10 counts as LMA; so is a register number other than IA32_EFER's (41_mode_enabling R131, R133, R134,
R136). The spec's decisions D18 and D24. -/
def Obligations.UnnamedBitsAndRegistersAreRefused : Prop :=
  (∀ (md : BitVec 2) (r : Reg) (s : State), ¬ Cr0WriteFaults (readGpr s r) s →
      ¬ SameBitsBut [0, 16, 31] s.cr0 (readGpr s r) →
      exec (.movCr0R32 md r) s = .refused (.unnamedControlBits .cr0))
    ∧ (∀ (md : BitVec 2) (r : Reg) (s : State), ¬ Cr4WriteFaults (readGpr s r) s →
      ¬ SameBitsBut (cr4NamedBits s.params.features) s.cr4 (readGpr s r) →
      exec (.movCr4R32 md r) s = .refused (.unnamedControlBits .cr4))
    ∧ (∀ s : State, readGpr s .ecx = 0xC0000080 → ¬ EferWriteFaults (readGpr s .edx ++ readGpr s .eax) s →
      ¬ (SameBitsBut [8, 10] s.efer (readGpr s .edx ++ readGpr s .eax) ∧ (readGpr s .eax).getLsbD 10 = s.lma) →
      exec .wrmsr s = .refused .unnamedEferBits)
    ∧ ∀ s : State, s.cpl = 0 → readGpr s .ecx ≠ 0xC0000080 →
      exec .wrmsr s = .refused (.otherMsr (readGpr s .ecx)) ∧ exec .rdmsr s = .refused (.otherMsr (readGpr s .ecx))

/-- What no instruction of the table changes when it completes: every byte of memory, EFLAGS, CPL, EIP, the parameters,
the run, the result and the draws; and each changes at most the registers it names (41_mode_enabling R130). -/
def Obligations.InstructionsTouchOnlyTheirRegisters : Prop :=
  ∀ (i : Instr) (s t : State), exec i s = .next t →
    t.mem = s.mem ∧ t.eflags = s.eflags ∧ t.cpl = s.cpl ∧ t.eip = s.eip ∧ t.params = s.params ∧ t.run = s.run
      ∧ t.result = s.result ∧ t.draws = s.draws
      ∧ ((∀ md r, i ≠ .movCr0R32 md r) → t.cr0 = s.cr0) ∧ ((∀ md r, i ≠ .movCr3R32 md r) → t.cr3 = s.cr3)
      ∧ ((∀ md r, i ≠ .movCr4R32 md r) → t.cr4 = s.cr4) ∧ (i ≠ .wrmsr → t.efer = s.efer)
      ∧ ((∀ md r, i ≠ .movR32Cr0 md r) → (∀ md r, i ≠ .movR32Cr3 md r) → (∀ md r, i ≠ .movR32Cr4 md r) →
        i ≠ .rdmsr → t.gprs = s.gprs)

/-! ### Paging modes -/

/-- The paging mode is selected by CR0.PG, CR4.PAE and IA32_EFER.LME (40_paging_modes R113), where the implementation has
them. -/
def Obligations.PagingModeIsSelectedByPgPaeAndLme : Prop :=
  ∀ s : State, s.params.features.pae = true → s.params.features.efer = true →
    (s.cr0.getLsbD 31 = false → pagingMode s = .noPaging)
    ∧ (s.cr0.getLsbD 31 = true → s.cr4.getLsbD 5 = false → pagingMode s = .paging32)
    ∧ (s.cr0.getLsbD 31 = true → s.cr4.getLsbD 5 = true → s.efer.getLsbD 8 = false → pagingMode s = .pagingPae)
    ∧ (s.cr0.getLsbD 31 = true → s.cr4.getLsbD 5 = true → s.efer.getLsbD 8 = true → pagingMode s = .paging4Level)

/-- In every state with invariant I2, 4-level paging is used exactly when LMA is 1 (41_mode_enabling R147, general
knowledge in the spec). -/
def Obligations.LmaIsOneExactlyInFourLevelPaging : Prop :=
  ∀ s : State, LongModeInv s → (s.lma = true ↔ pagingMode s = .paging4Level)

/-- Clearing CR0.PG with MOV to CR0 disables paging in every paging mode, at CPL 0 and with CR4.PCIDE = 0, and leaves
CR3, CR4 and IA32_EFER as they were (41_mode_enabling R140; the two conditions are the spec's additions, R131). -/
def Obligations.ClearingPgDisablesPaging : Prop :=
  ∀ (md : BitVec 2) (r : Reg) (s : State), s.cpl = 0 → s.pcide = false → readGpr s r = s.cr0 &&& 0x7FFFFFFF →
    ∃ t, exec (.movCr0R32 md r) s = .next t ∧ pagingMode t = .noPaging ∧ t.cr0 = s.cr0 &&& 0x7FFFFFFF
      ∧ t.cr3 = s.cr3 ∧ t.cr4 = s.cr4 ∧ t.efer = s.efer

/-- At CPL 0 and with paging enabled and LME = 0, changing CR4.PAE moves between 32-bit paging and PAE paging
(41_mode_enabling R141). That entering PAE paging completes is the spec's decision D23 (entry 17). -/
def Obligations.ChangingPaeSwitchesBetween32BitAndPae : Prop :=
  ∀ (md : BitVec 2) (r : Reg) (s : State), s.cpl = 0 → s.params.features.pae = true → s.pg = true → s.lme = false →
    readGpr s r = s.cr4 ^^^ 0x20 →
    ∃ t, exec (.movCr4R32 md r) s = .next t
      ∧ (pagingMode s = .paging32 → pagingMode t = .pagingPae) ∧ (pagingMode s = .pagingPae → pagingMode t = .paging32)

/-- No step leads directly between 4-level paging and either of the other two modes (41_mode_enabling R142, R139), in
states with invariants I1 and I2. -/
def Obligations.NoStepLeadsDirectlyIntoOrOutOfFourLevelPaging : Prop :=
  ∀ s t : State, ModeInv s → step s = .next t →
    (pagingMode s = .paging4Level → pagingMode t = .paging4Level ∨ pagingMode t = .noPaging)
    ∧ (pagingMode t = .paging4Level → pagingMode s = .paging4Level ∨ pagingMode s = .noPaging)

/-! ### Invariants over every step -/

/-- Every step keeps the invariants: I1 and I2 (41_mode_enabling R138), memory in canonical form inside the M-bit space
(entry 6), and remembered entries present, aligned and below 4 GBytes (entry 10). -/
def Obligations.StepKeepsTheInvariants : Prop :=
  ∀ s t : State, Inv s → step s = .next t → Inv t

/-- The state an exception leaves meets the invariants too: I1 and I2 (60_exceptions R230, R234), and the model's own choices,
memory in canonical form inside the M-bit space (entry 6) and remembered entries present, aligned and below 4 GBytes
(entry 10). -/
def Obligations.ExceptionsLeaveTheInvariants : Prop :=
  ∀ (s left : State) (la code : Word), Inv s →
    (step s = .fault (.generalProtection code left) ∨ step s = .fault (.pageFault la code left)) → Inv left

/-- No step changes CPL, EFLAGS or the parameters (10_state R42, 41_mode_enabling R130; entry 8). -/
def Obligations.NoStepChangesPrivilegeFlagsOrParameters : Prop :=
  ∀ s t : State, step s = .next t → t.cpl = s.cpl ∧ t.eflags = s.eflags ∧ t.params = s.params

/-- What an exception leaves. A page fault is that of the first failing piece of the access the operation makes: every
register is as before, and memory has at most got the accessed flags of the entries read before the failing test of that
piece, and the accessed and dirty flags of the pieces below it (60_exceptions R234, R249, 43_32bit_paging R208,
20_memory R69; that the entry whose rights forbid the access is among them is entry 11). After a general-protection
exception the error code is 0 and memory is as before too (60_exceptions R230), but for the accessed flags of the fetch of
an instruction that execute fetches at EIP (the model's execute, entries 3 and 28). -/
def Obligations.ExceptionsLeaveRegistersAndMemory : Prop :=
  ∀ (s left : State) (la code : Word),
    (step s = .fault (.pageFault la code left) → SameRegisters s left
      ∧ ∃ op rest la0 n acc before p after l fl fl2 s1 s2, s.run = op :: rest ∧ MakesAccess op s la0 n acc
        ∧ pieces la0 n = before ++ p :: after ∧ p.la = la
        ∧ planPieces acc before (takeOp rest s) = .next (.spans l fl, s1)
        ∧ translateLinear la acc s1 = .next (.pageFault code fl2, s2) ∧ FlagsOf (fl ++ fl2) s.mem left.mem
        ∧ (∀ u ∈ fl, PiecesFlag acc before (takeOp rest s) u) ∧ ∀ u ∈ fl2, FailedWalkFlag s1 la u)
    ∧ (step s = .fault (.generalProtection code left) → code = 0 ∧ SameRegisters s left
      ∧ ((∀ rest, s.run ≠ .execute :: rest) → left.mem = s.mem)
      ∧ ∀ rest, s.run = .execute :: rest → ∃ bytes n l fl s1, fetchCode (takeOp rest s) = .next (bytes, left)
        ∧ (n = 2 ∨ n = 3) ∧ planPieces (codeAccess s) (pieces s.eip n) (takeOp rest s) = .next (.spans l fl, s1)
        ∧ FlagsOf fl s.mem left.mem
        ∧ ∀ u ∈ fl, u.mask = 0x20 ∧ PiecesFlag (codeAccess s) (pieces s.eip n) (takeOp rest s) u)

/-! ### Addresses -/

/-- With paging off every linear address is the physical address: no access is refused, faulted or checked, no memory is
read (40_paging_modes R111). -/
def Obligations.UnpagedTranslationIsTheIdentity : Prop :=
  ∀ (la : Word) (acc : Access) (s : State), s.cr0.getLsbD 31 = false →
    ∃ pa : PhysAddr, translateLinear la acc s = .next (.mapped pa [], s) ∧ pa.toNat = la.toNat

/-- The address of a PDE, bit by bit (43_32bit_paging R193). -/
def Obligations.PdeAddressBits : Prop :=
  ∀ cr3 la : Word, (pdeAddr cr3 la).extractLsb' 32 8 = 0 ∧ (pdeAddr cr3 la).extractLsb' 12 20 = cr3.extractLsb' 12 20
    ∧ (pdeAddr cr3 la).extractLsb' 2 10 = la.extractLsb' 22 10 ∧ (pdeAddr cr3 la).extractLsb' 0 2 = 0

/-- The address of a PTE, bit by bit (43_32bit_paging R198). -/
def Obligations.PteAddressBits : Prop :=
  ∀ pde la : Word, (pteAddr pde la).extractLsb' 32 8 = 0 ∧ (pteAddr pde la).extractLsb' 12 20 = pde.extractLsb' 12 20
    ∧ (pteAddr pde la).extractLsb' 2 10 = la.extractLsb' 12 10 ∧ (pteAddr pde la).extractLsb' 0 2 = 0

/-- The final address in a 4-KByte page, bit by bit (43_32bit_paging R200). -/
def Obligations.FourKBytePageAddressBits : Prop :=
  ∀ pte la : Word, (page4KAddr pte la).extractLsb' 32 8 = 0
    ∧ (page4KAddr pte la).extractLsb' 12 20 = pte.extractLsb' 12 20
    ∧ (page4KAddr pte la).extractLsb' 0 12 = la.extractLsb' 0 12

/-- The final address in a 4-MByte page, bit by bit (43_32bit_paging R196). -/
def Obligations.FourMBytePageAddressBits : Prop :=
  ∀ pde la : Word, (page4MAddr pde la).extractLsb' 32 8 = pde.extractLsb' 13 8
    ∧ (page4MAddr pde la).extractLsb' 22 10 = pde.extractLsb' 22 10
    ∧ (page4MAddr pde la).extractLsb' 0 22 = la.extractLsb' 0 22

/-- The sizes of entries and structures in the three modes, and how many entries a structure holds
(42_hierarchical_overview R160 to R162): entries of 4 bytes and 1024 of them in 32-bit paging, entries of 8 bytes and 512
of them in the other two, structures of 4096 bytes but for the first of PAE paging, of 32 bytes and 4 entries. -/
def Obligations.StructureSizesAndEntryCounts : Prop :=
  (walkParams .paging32).map (·.entryBytes) = some 4 ∧ (walkParams .pagingPae).map (·.entryBytes) = some 8
    ∧ (walkParams .paging4Level).map (·.entryBytes) = some 8
    ∧ (walkParams .paging32).map structureSizes = some [4096, 4096]
    ∧ (walkParams .pagingPae).map structureSizes = some [32, 4096, 4096]
    ∧ (walkParams .paging4Level).map structureSizes = some [4096, 4096, 4096, 4096]
    ∧ (walkParams .paging32).map (·.slices.map Slice.entries) = some [1024, 1024]
    ∧ (walkParams .pagingPae).map (·.slices.map Slice.entries) = some [4, 512, 512]
    ∧ (walkParams .paging4Level).map (·.slices.map Slice.entries) = some [512, 512, 512, 512]

/-! ### The walk -/

/-- Translate32 agrees with the generic iterative procedure of 42_hierarchical_overview R166 over what memory holds, in
every state with nothing stale: a mapped address is the procedure's, and a page fault says P = 0 or a reserved bit exactly
where the procedure finds no translation. That nothing is stale
(Settled) is judged by the entries walks have read: an entry to which a later store gave back the value they used counts as
not stale, where 70_reset_and_hazards R268 leaves it undetermined. That is the model's choice (entry 10). -/
def Obligations.TranslationFollowsTheIterativeProcedure : Prop :=
  ∀ (la : Word) (acc : Access) (s t : State) (r : Translation), pagingMode s = .paging32 → Settled s →
    translateLinear la acc s = .next (r, t) →
    (∀ pa fl, r = .mapped pa fl → genericWalk32 s la = some pa.toNat)
    ∧ (∀ code fl, r = .pageFault code fl →
      (genericWalk32 s la = none ↔ (code.getLsbD 0 = false ∨ code.getLsbD 3 = true)))

/-- Where a PDE or PTE ends the walk in a page fault: a clear P flag; a set reserved bit; or, in the last entry, access rights
that forbid the access, with P = 1 and RSVD = 0 (60_exceptions R233, R234, 43_32bit_paging R201 to R204), tested in the order
of 60_exceptions R238. In a state with nothing stale and the entries the walk reads in read-write memory: a PDE that ends
the walk asks nothing of a PTE. Of a PDE that references a page table no bit is reserved by default. That nothing is stale
(Settled) is judged by the entries walks have read: an entry to which a later store gave back the value they used counts as
not stale, where 70_reset_and_hazards R268 leaves it undetermined. That is the model's choice (entry 10). -/
def Obligations.NotPresentReservedAndForbiddenEntriesPageFault : Prop :=
  ∀ (la : Word) (acc : Access) (s : State) (pde : Word), pagingMode s = .paging32 → Settled s →
    EntryInRam s (pdeAddr s.cr3 la).toNat → pde = wordAt s.mem (pdeAddr s.cr3 la).toNat →
    (pde.getLsbD 0 = false → ∃ t, translateLinear la acc s = .next (.pageFault (errorCode s acc false false) [], t))
    ∧ (pde.getLsbD 0 = true → maps4M s pde = true →
      (hasReserved (reservedPde4M s.params) pde = true →
        ∃ t, translateLinear la acc s = .next (.pageFault (errorCode s acc true true) [], t))
      ∧ (hasReserved (reservedPde4M s.params) pde = false → accessPermitted s acc pde none = false →
        ∃ t fl, translateLinear la acc s = .next (.pageFault (errorCode s acc true false) fl, t)))
    ∧ (pde.getLsbD 0 = true → maps4M s pde = false → hasReserved (reservedPdeTable s.params) pde = true →
      ∃ t, translateLinear la acc s = .next (.pageFault (errorCode s acc true true) [], t))
    ∧ (pde.getLsbD 0 = true → maps4M s pde = false → hasReserved (reservedPdeTable s.params) pde = false →
      ∀ pte : Word, EntryInRam s (pteAddr pde la).toNat → pte = wordAt s.mem (pteAddr pde la).toNat →
        (pte.getLsbD 0 = false → ∃ t fl, translateLinear la acc s = .next (.pageFault (errorCode s acc false false) fl, t))
        ∧ (pte.getLsbD 0 = true → hasReserved (reservedPte s.params) pte = true →
          ∃ t fl, translateLinear la acc s = .next (.pageFault (errorCode s acc true true) fl, t))
        ∧ (pte.getLsbD 0 = true → hasReserved (reservedPte s.params) pte = false →
          accessPermitted s acc pde (some pte) = false →
          ∃ t fl, translateLinear la acc s = .next (.pageFault (errorCode s acc true false) fl, t)))

/-- A Load, Store or Fetch inside one 4-KByte region whose translation fails raises that page fault with the address of
its first byte, leaves registers as they were, and changes memory by accessed flags of the entries its walk read before the
failing test at most: no dirty flag, and no flag of an entry whose own P or reserved bits failed (60_exceptions R233, R234,
43_32bit_paging R208; that the entry whose rights forbid the access counts as read before that test is entry 11). -/
def Obligations.AFailedTranslationRaisesThePageFault : Prop :=
  ∀ (k : AccessKind) (la : Word) (v : List Byte) (explicit : Bool) (s t : State) (code : Word) (fl : List FlagUpdate),
    1 ≤ v.length → v.length ≤ roomInPage la →
    translateLinear la (accessAt s k explicit) s = .next (.pageFault code fl, t) →
    ∃ left, perform (accessOp k la v explicit) s = .fault (.pageFault la code left) ∧ SameRegisters s left
      ∧ FlagsOf fl s.mem left.mem ∧ ∀ u ∈ fl, u.mask = 0x20 ∧ FailedWalkFlag s la u

/-- The page-fault error code, bit by bit (60_exceptions R235, general knowledge in the spec). -/
def Obligations.ErrorCodeBits : Prop :=
  ∀ (s : State) (acc : Access) (p rsvd : Bool),
    (errorCode s acc p rsvd).getLsbD 0 = p ∧ ((errorCode s acc p rsvd).getLsbD 1 = true ↔ acc.kind = .write)
      ∧ ((errorCode s acc p rsvd).getLsbD 2 = true ↔ acc.mode = .user) ∧ (errorCode s acc p rsvd).getLsbD 3 = rsvd
      ∧ ((errorCode s acc p rsvd).getLsbD 4 = true ↔ acc.kind = .fetch ∧ s.smep = true)
      ∧ ∀ i, 5 ≤ i → (errorCode s acc p rsvd).getLsbD i = false

/-- An access of a run is a user-mode access exactly at CPL 3 and explicit (10_state R42, the spec's decision D14), and a
user-mode access translates under 32-bit paging only through entries that are user entries, a user-mode write only through
writable ones: the PDE, and the PTE where there is one (the default rights of 43_32bit_paging R207, general knowledge in
the spec). Stale entries included. -/
def Obligations.UserModeReachesUserPagesOnly : Prop :=
  (∀ (s : State) (k : AccessKind) (explicit : Bool), (accessAt s k explicit).mode = .user ↔ s.cpl = 3 ∧ explicit = true)
    ∧ ∀ (la : Word) (acc : Access) (s t : State) (pa : PhysAddr) (fl : List FlagUpdate), pagingMode s = .paging32 →
      s.params.accessRights = .standard → acc.mode = .user → translateLinear la acc s = .next (.mapped pa fl, t) →
      ∃ pde s1, readEntry (pdeAddr s.cr3 la) s = .next (pde, s1) ∧ entryUs pde.value = true
        ∧ (acc.kind = .write → entryRw pde.value = true)
        ∧ (maps4M s pde.value = false → ∃ pte s2, readEntry (pteAddr pde.value la) s1 = .next (pte, s2)
          ∧ entryUs pte.value = true ∧ (acc.kind = .write → entryRw pte.value = true))

/-- What CR0.WP, CR4.SMEP, CR4.SMAP and EFLAGS.AC ask of a supervisor-mode access that translates under 32-bit paging,
with US and RW combined over the entries used: with WP = 1 a write needs RW; with SMEP = 1 a fetch needs a supervisor
page; with SMAP = 1 a read or write of a user page needs AC = 1 and an explicit access (the default rights of
43_32bit_paging R207, general knowledge in the spec). Stale entries included. -/
def Obligations.SupervisorModeObeysWpSmepAndSmap : Prop :=
  ∀ (la : Word) (acc : Access) (s t : State) (pa : PhysAddr) (fl : List FlagUpdate), pagingMode s = .paging32 →
    s.params.accessRights = .standard → acc.mode = .supervisor → translateLinear la acc s = .next (.mapped pa fl, t) →
    ∃ pde s1 us rw, readEntry (pdeAddr s.cr3 la) s = .next (pde, s1)
      ∧ (maps4M s pde.value = true → us = entryUs pde.value ∧ rw = entryRw pde.value)
      ∧ (maps4M s pde.value = false → ∃ pte s2, readEntry (pteAddr pde.value la) s1 = .next (pte, s2)
        ∧ us = (entryUs pde.value && entryUs pte.value) ∧ rw = (entryRw pde.value && entryRw pte.value))
      ∧ (acc.kind = .write → s.cr0.getLsbD 16 = true → rw = true)
      ∧ (acc.kind = .fetch → s.smep = true → us = false)
      ∧ (acc.kind ≠ .fetch → s.smap = true → us = true → s.eflags.getLsbD 18 = true ∧ acc.explicit = true)

/-- Linear addresses on the same 4-KByte region are translated to corresponding physical addresses: the same frame, and
the offset of the linear address (40_paging_modes R117, 20_memory R69). -/
def Obligations.SamePageTranslatesToSameFrame : Prop :=
  ∀ (la la' : Word) (acc : Access) (s t t' : State) (pa pa' : PhysAddr) (fl fl' : List FlagUpdate),
    la.toNat / 4096 = la'.toNat / 4096 → translateLinear la acc s = .next (.mapped pa fl, t) →
    translateLinear la' acc s = .next (.mapped pa' fl', t') →
    pa.toNat / 4096 = pa'.toNat / 4096 ∧ pa.toNat % 4096 = la.toNat % 4096

/-- Only a 4-MByte page lies above 4 GBytes (43_32bit_paging R212). -/
def Obligations.OnlyFourMBytePagesLieAboveFourGBytes : Prop :=
  ∀ (la : Word) (acc : Access) (s t : State) (pa : PhysAddr) (fl : List FlagUpdate),
    translateLinear la acc s = .next (.mapped pa fl, t) → 2 ^ 32 ≤ pa.toNat →
    pagingMode s = .paging32 ∧ s.pse = true
      ∧ ∃ pde s1, readEntry (pdeAddr s.cr3 la) s = .next (pde, s1) ∧ pde.value.getLsbD 7 = true

/-- A translated address fits in the M bits of the implementation, whatever M from 32 to 40 (43_32bit_paging R215, R203). -/
def Obligations.TranslatedAddressesFitTheImplementation : Prop :=
  ∀ (la : Word) (acc : Access) (s t : State) (pa : PhysAddr) (fl : List FlagUpdate),
    translateLinear la acc s = .next (.mapped pa fl, t) → pa.toNat < 2 ^ s.params.physBits

/-! ### Accesses -/

/-- A Load through a present, permitting 4-KByte page under 32-bit paging completes with the bytes at the final address,
both entries get their accessed flag, and no other byte of memory and no register changes (43_32bit_paging R209; the
flags are R208's, general knowledge in the spec). Inside one 4-KByte region, with nothing stale, the entries and the data
in read-write memory. That nothing is stale
(Settled) is judged by the entries walks have read: an entry to which a later store gave back the value they used counts as
not stale, where 70_reset_and_hazards R268 leaves it undetermined. That is the model's choice (entry 10). -/
def Obligations.LoadThroughAFourKBytePage : Prop :=
  ∀ (la : Word) (n : Nat) (explicit : Bool) (s : State) (pdeA pteA pa : Nat) (pde pte : Word),
    pagingMode s = .paging32 → Settled s → s.params.setsAccessedDirty = true → 1 ≤ n → n ≤ roomInPage la →
    pdeA = (pdeAddr s.cr3 la).toNat → EntryInRam s pdeA → pde = wordAt s.mem pdeA →
    entryP pde = true → maps4M s pde = false → hasReserved (reservedPdeTable s.params) pde = false →
    pteA = (pteAddr pde la).toNat → EntryInRam s pteA → pte = wordAt s.mem pteA →
    entryP pte = true → hasReserved (reservedPte s.params) pte = false →
    accessPermitted s (accessAt s .read explicit) pde (some pte) = true →
    pa = (page4KAddr pte la).toNat → (∀ i < n, kindAt s.params (pa + i) = some .ram) →
    ∃ t, perform (.load la n explicit) s = .next t ∧ t.result = .bytes (bytesAt t.mem pa n)
      ∧ (wordAt t.mem pdeA).getLsbD 5 = true ∧ (wordAt t.mem pteA).getLsbD 5 = true
      ∧ (∀ a, a ≠ pdeA → a ≠ pteA → byteAt t.mem a = byteAt s.mem a) ∧ FlagsOnly s.mem t.mem
      ∧ SameRegisters s t ∧ t.run = s.run

/-- A Store through a present, permitting 4-MByte page under 32-bit paging completes: the bytes stand at the final
address, no byte changes but those and the first byte of the PDE (which gets its accessed and dirty flags, unless the
store itself overwrites it), and no register changes (43_32bit_paging R209, R196, R208). Inside one 4-KByte region, with
nothing stale, the entry and the data in read-write memory. That nothing is stale
(Settled) is judged by the entries walks have read: an entry to which a later store gave back the value they used counts as
not stale, where 70_reset_and_hazards R268 leaves it undetermined. That is the model's choice (entry 10). -/
def Obligations.StoreThroughAFourMBytePage : Prop :=
  ∀ (la : Word) (v : List Byte) (explicit : Bool) (s : State) (pdeA pa : Nat) (pde : Word),
    pagingMode s = .paging32 → Settled s → s.params.setsAccessedDirty = true → 1 ≤ v.length →
    v.length ≤ roomInPage la →
    pdeA = (pdeAddr s.cr3 la).toNat → EntryInRam s pdeA → pde = wordAt s.mem pdeA →
    entryP pde = true → maps4M s pde = true → hasReserved (reservedPde4M s.params) pde = false →
    accessPermitted s (accessAt s .write explicit) pde none = true →
    pa = (page4MAddr pde la).toNat → (∀ i < v.length, kindAt s.params (pa + i) = some .ram) →
    ∃ t, perform (.store la v explicit) s = .next t ∧ bytesAt t.mem pa v.length = v
      ∧ (∀ a, a ≠ pdeA → (a < pa ∨ pa + v.length ≤ a) → byteAt t.mem a = byteAt s.mem a)
      ∧ ((pdeA < pa ∨ pa + v.length ≤ pdeA) → byteAt t.mem pdeA = byteAt s.mem pdeA ||| 0x60)
      ∧ SameRegisters s t ∧ t.run = s.run ∧ t.result = s.result

/-- A Fetch with paging off completes with the bytes at the linear address taken as physical, at every CPL, and changes
nothing but the result (40_paging_modes R111). -/
def Obligations.UnpagedFetchCompletes : Prop :=
  ∀ (la : Word) (n : Nat) (explicit : Bool) (s : State), s.pg = false → 1 ≤ n → la.toNat + n ≤ 2 ^ 32 →
    (∀ i < n, kindAt s.params (la.toNat + i) = some .ram) →
    perform (.fetch la n explicit) s = .next (s.setResult (.bytes (bytesAt s.mem la.toNat n)))

/-- A Load or a Fetch that completes changes no register, not the run, and memory by accessed flags only: of the entries its
translations used, as planPieces gives them, bit 5 may have become 1 and no other bit of memory changed, no dirty flag
among them; and where flags are written, each entry used as memory holds it has its accessed flag (20_memory R71,
43_32bit_paging R208). -/
def Obligations.ReadingSetsAccessedFlagsOnly : Prop :=
  ∀ (k : AccessKind) (la : Word) (v : List Byte) (explicit : Bool) (s t : State), k ≠ .write →
    perform (accessOp k la v explicit) s = .next t →
    SameRegisters s t ∧ t.run = s.run
      ∧ ∃ l fl s1, planPieces (accessAt s k explicit) (pieces la v.length) s = .next (.spans l fl, s1)
        ∧ (∀ u ∈ fl, u.mask = 0x20) ∧ FlagsOf fl s.mem t.mem
        ∧ (s.params.setsAccessedDirty = true → ∀ u ∈ fl, u.certain = true → (byteAt t.mem u.addr).getLsbD 5 = true)

/-- A Store that completes changes, besides the accessed and dirty flags of the entries its translations used, only the bytes
at the places its translation computes, and no register (20_memory R69, R71). The places are those beginAccess gives for the
store's own access, the entries and their flags those planPieces gives. -/
def Obligations.StoringChangesItsBytesAndFlagsOnly : Prop :=
  ∀ (la : Word) (v : List Byte) (explicit : Bool) (s s1 t : State) (l : List Span),
    beginAccess la v.length (accessAt s .write explicit) s = .next (l, s1) →
    perform (.store la v explicit) s = .next t →
    SameRegisters s t ∧ t.run = s.run ∧ t.result = s.result ∧ FlagsOnly s.mem s1.mem
      ∧ (∃ fl s0, planPieces (accessAt s .write explicit) (pieces la v.length) s = .next (.spans l fl, s0)
        ∧ FlagsOf fl s.mem s1.mem)
      ∧ ∀ a, ¬ InSpans l a → byteAt t.mem a = byteAt s1.mem a

/-- With SetsAccessedDirty false no walk writes memory (43_32bit_paging R208, the parameter of 00_scope R5): where an access
of any kind and mode begins, or ends in a page fault, memory is exactly as it was; so a completed Load or Fetch, and a page
fault of a Load, Store or Fetch, leave it so, and a completed Store changes bytes at its own places only. -/
def Obligations.WithoutFlagUpdatesWalksWriteNothing : Prop :=
  ∀ s : State, s.params.setsAccessedDirty = false →
    (∀ la n acc l t, beginAccess la n acc s = .next (l, t) → t.mem = s.mem)
    ∧ (∀ la n acc la' code t, beginAccess la n acc s = .fault (.pageFault la' code t) → t.mem = s.mem)
    ∧ (∀ k la v explicit t, k ≠ .write → perform (accessOp k la v explicit) s = .next t → t.mem = s.mem)
    ∧ (∀ la v explicit t, perform (.store la v explicit) s = .next t →
      ∃ l s1, beginAccess la v.length (accessAt s .write explicit) s = .next (l, s1)
        ∧ ∀ a, ¬ InSpans l a → byteAt t.mem a = byteAt s.mem a)
    ∧ (∀ k la v explicit la' code t, perform (accessOp k la v explicit) s = .fault (.pageFault la' code t) →
      t.mem = s.mem)

/-- A Load, Store or Fetch that crosses a page boundary and whose first piece fails raises the page fault of that piece; one
whose second piece fails, the first having translated, raises that of the second, with the address of its first byte; and
so for the first failing piece among any number. No byte is written, none is handed back, and memory changes at most by the
accessed and dirty flags of the translations of the pieces below and by the accessed flags of the entries read before the
failing test of the piece that fails (20_memory R69, 60_exceptions R234, R249, 43_32bit_paging R208; the spec's decision
D13; that the entry whose rights forbid the access is among the latter is entry 11). -/
def Obligations.ACrossingAccessIsAllOrNothing : Prop :=
  ∀ (k : AccessKind) (la : Word) (v : List Byte) (explicit : Bool) (s : State),
    roomInPage la < v.length → la.toNat + v.length ≤ 2 ^ 32 →
    (∀ code fl t, translateLinear la (accessAt s k explicit) s = .next (.pageFault code fl, t) →
      ∃ left, perform (accessOp k la v explicit) s = .fault (.pageFault la code left) ∧ SameRegisters s left
        ∧ left.result = s.result ∧ FlagsOf fl s.mem left.mem ∧ ∀ u ∈ fl, FailedWalkFlag s la u)
    ∧ (∀ la2 pa fl fl2 code s1 s2, la2 = la + BitVec.ofNat 32 (roomInPage la) →
      translateLinear la (accessAt s k explicit) s = .next (.mapped pa fl, s1) →
      translateLinear la2 (accessAt s k explicit) s1 = .next (.pageFault code fl2, s2) →
      ∃ left, perform (accessOp k la v explicit) s = .fault (.pageFault la2 code left) ∧ SameRegisters s left
        ∧ left.result = s.result ∧ FlagsOf (fl ++ fl2) s.mem left.mem
        ∧ (∀ u ∈ fl, WalkFlag s la (accessAt s k explicit) u) ∧ ∀ u ∈ fl2, FailedWalkFlag s1 la2 u)
    ∧ (∀ before p after l fl fl2 code s1 s2, pieces la v.length = before ++ p :: after →
      planPieces (accessAt s k explicit) before s = .next (.spans l fl, s1) →
      translateLinear p.la (accessAt s k explicit) s1 = .next (.pageFault code fl2, s2) →
      ∃ left, perform (accessOp k la v explicit) s = .fault (.pageFault p.la code left) ∧ SameRegisters s left
        ∧ left.result = s.result ∧ FlagsOf (fl ++ fl2) s.mem left.mem
        ∧ (∀ u ∈ fl, PiecesFlag (accessAt s k explicit) before s u) ∧ ∀ u ∈ fl2, FailedWalkFlag s1 p.la u)

/-- Every Load, Store and Fetch is refused in PAE paging and in 4-level paging (40_paging_modes R112), and so is one past the
top of the linear address space (20_memory R69). The spec's decisions D16 and D13. -/
def Obligations.AccessesTheSpecRefuses : Prop :=
  ∀ (k : AccessKind) (la : Word) (v : List Byte) (explicit : Bool) (s : State), 1 ≤ v.length →
    (la.toNat + v.length ≤ 2 ^ 32 → pagingMode s = .pagingPae →
      perform (accessOp k la v explicit) s = .refused .paeTranslation)
    ∧ (la.toNat + v.length ≤ 2 ^ 32 → pagingMode s = .paging4Level →
      perform (accessOp k la v explicit) s = .refused .fourLevelTranslation)
    ∧ (2 ^ 32 < la.toNat + v.length → perform (accessOp k la v explicit) s = .refused (.accessLength la v.length))

/-! ### Stale translations -/

/-- After a store has changed a PTE that a walk read, a translation through it is the one the old entry gave or the one
the new entry gives (70_reset_and_hazards R268, the spec's decision D6): stated where the PDE is not stale and `old` is
the one value walks read at the PTE. That after several stores with no walk between the old entry is the one walks read, and
never a value between two stores, is the model's choice (entry 10). -/
def Obligations.AStaleTranslationIsTheOldOrTheNew : Prop :=
  ∀ (la : Word) (acc : Access) (s t : State) (pde old new : Word) (pa : PhysAddr) (fl : List FlagUpdate),
    pagingMode s = .paging32 → pde = wordAt s.mem (pdeAddr s.cr3 la).toNat →
    (∀ v, ((pdeAddr s.cr3 la).toNat, v) ∈ s.walked → v = pde) → maps4M s pde = false →
    new = wordAt s.mem (pteAddr pde la).toNat → (∀ v, ((pteAddr pde la).toNat, v) ∈ s.walked → v = old) →
    (pteAddr pde la).toNat ≠ (pdeAddr s.cr3 la).toNat → translateLinear la acc s = .next (.mapped pa fl, t) →
    pa = page4KAddr new la ∨ pa = page4KAddr old la

/-- Translations are certain again after a completed MOV to CR3, after a MOV to CR0 that changed PG or WP, and after a MOV
to CR4 that changed PAE, PSE, PGE, SMEP or SMAP (70_reset_and_hazards R268, the spec's decision D6; the remembered entries
by which Settled judges that are the model's, entry 10). -/
def Obligations.ModeWritesMakeTranslationsCertain : Prop :=
  ∀ (v : Word) (s t : State),
    (perform (.movToCr3 v) s = .next t → Settled t)
    ∧ (perform (.movToCr0 v) s = .next t → (v.getLsbD 31 ≠ s.cr0.getLsbD 31 ∨ v.getLsbD 16 ≠ s.cr0.getLsbD 16) →
      Settled t)
    ∧ (perform (.movToCr4 v) s = .next t → (∃ i ∈ [4, 5, 7, 20, 21], v.getLsbD i ≠ s.cr4.getLsbD i) → Settled t)

/-- Only a store can make a translation uncertain: any other operation that completes in a state with nothing stale leaves
nothing stale, the processor's own accessed and dirty updates included (70_reset_and_hazards R268, the spec's decision
D6; the remembered entries are the model's, entry 10). -/
def Obligations.OnlyStoresMakeTranslationsUncertain : Prop :=
  ∀ (op : Op) (rest : List Op) (s t : State), (∀ la v explicit, op ≠ .store la v explicit) → s.run = op :: rest →
    WalkedInv s → Settled s → step s = .next t → Settled t

/-! ### Memory and VMX -/

/-- A byte string written to physical memory reads back, every other byte reads as before, and memory stays canonical
(20_memory R66; the canonical form is the model's, entry 6). -/
def Obligations.PhysicalWritesReadBack : Prop :=
  ∀ (a : Nat) (bs : List Byte) (s t : State), MemoryInv s → physWrite a bs s = .next t →
    physRead t a bs.length = .next bs ∧ (∀ x, x < a ∨ a + bs.length ≤ x → byteAt t.mem x = byteAt s.mem x)
      ∧ MemoryInv t ∧ t = { s with mem := t.mem }

/-- A VMX transition is refused (41_mode_enabling R137; the spec's decision D17). -/
def Obligations.VmxTransitionsAreRefused : Prop :=
  ∀ (s : State) (rest : List Op), s.run = .vmxTransition :: rest → step s = .refused .vmxTransition
end

