-- ==== Sys2Proof/Laws/Memory.lean ====
section
/-! SUPPORT. Laws of memory: read after write, the canonical form, and 32-bit words. -/

namespace Sys2Proof.Machine

/-! ### One byte -/

theorem lookupByte_insertByte (m : List Host.Cell) (a x : Nat) (b : Byte) :
    lookupByte (insertByte m a b) x = if x = a then some b else lookupByte m x := by
  induction m with
  | nil => simp [insertByte, lookupByte]
  | cons c cs ih =>
    rcases lt_trichotomy a c.1 with h1 | h1 | h1
    · simp [insertByte, h1, lookupByte]
    · simp only [insertByte, h1, lt_irrefl, if_false, if_true, lookupByte]
      split_ifs <;> rfl
    · rw [insertByte, if_neg (by omega), if_neg (by omega), lookupByte, ih, lookupByte]
      split_ifs with h2 h3 <;> first | rfl | omega

@[simp] theorem byteAt_insertByte_same (m : List Host.Cell) (a : Nat) (b : Byte) :
    byteAt (insertByte m a b) a = b := by
  simp [byteAt, lookupByte_insertByte]

theorem byteAt_insertByte_other (m : List Host.Cell) {a x : Nat} (b : Byte) (h : x ≠ a) :
    byteAt (insertByte m a b) x = byteAt m x := by
  simp [byteAt, lookupByte_insertByte, h]

/-! ### The canonical form -/

theorem risingFrom_mono {m : List Host.Cell} {lo lo' : Nat} (h : lo' ≤ lo) (hm : risingFrom lo m = true) :
    risingFrom lo' m = true := by
  cases m with
  | nil => rfl
  | cons c cs =>
    simp only [risingFrom, Bool.and_eq_true, decide_eq_true_eq] at *
    exact ⟨le_trans h hm.1, hm.2⟩

theorem risingFrom_insertByte {m : List Host.Cell} {lo a : Nat} (b : Byte) (hm : risingFrom lo m = true)
    (ha : lo ≤ a) : risingFrom lo (insertByte m a b) = true := by
  induction m generalizing lo with
  | nil => simp [insertByte, risingFrom, ha]
  | cons c cs ih =>
    simp only [risingFrom, Bool.and_eq_true, decide_eq_true_eq] at hm
    unfold insertByte
    split_ifs with h1 h2
    · simp only [risingFrom, Bool.and_eq_true, decide_eq_true_eq]
      exact ⟨ha, by omega, hm.2⟩
    · subst h2
      simp only [risingFrom, Bool.and_eq_true, decide_eq_true_eq]
      exact ⟨ha, hm.2⟩
    · simp only [risingFrom, Bool.and_eq_true, decide_eq_true_eq]
      exact ⟨hm.1, ih hm.2 (by omega)⟩

theorem wf_insertByte {m : List Host.Cell} (a : Nat) (b : Byte) (hm : Memory.wf m = true) :
    Memory.wf (insertByte m a b) = true :=
  risingFrom_insertByte b hm (Nat.zero_le a)

theorem mem_insertByte {m : List Host.Cell} {a : Nat} {b : Byte} {c : Host.Cell} (h : c ∈ insertByte m a b) :
    c.1 = a ∨ c ∈ m := by
  induction m with
  | nil => simp only [insertByte, List.mem_singleton] at h; exact .inl (by rw [h])
  | cons d ds ih =>
    unfold insertByte at h
    split_ifs at h with h1 h2
    · rcases List.mem_cons.mp h with h | h
      · exact .inl (by rw [h])
      · exact .inr h
    · rcases List.mem_cons.mp h with h | h
      · exact .inl (by rw [h])
      · exact .inr (List.mem_cons_of_mem _ h)
    · rcases List.mem_cons.mp h with h | h
      · exact .inr (by simp [h])
      · exact (ih h).imp id (List.mem_cons_of_mem _)

/-! ### Several bytes -/

/-- Storing bytes changes those bytes only. -/
theorem byteAt_storeBytes_other (m : List Host.Cell) {a x : Nat} (bs : List Byte)
    (h : x < a ∨ a + bs.length ≤ x) : byteAt (storeBytes m a bs) x = byteAt m x := by
  induction bs generalizing m a with
  | nil => rfl
  | cons b bs ih =>
    simp only [List.length_cons] at h
    rw [storeBytes, ih _ (by omega), byteAt_insertByte_other _ _ (by omega)]

/-- A stored byte reads back. -/
theorem byteAt_storeBytes_at (m : List Host.Cell) (a : Nat) (bs : List Byte) (i : Nat) (h : i < bs.length) :
    byteAt (storeBytes m a bs) (a + i) = bs[i] := by
  induction bs generalizing m a i with
  | nil => simp at h
  | cons b bs ih =>
    rw [storeBytes]
    cases i with
    | zero => rw [byteAt_storeBytes_other _ _ (by omega)]; simp
    | succ i =>
      have := ih (insertByte m a b) (a + 1) i (by simpa using h)
      rw [show a + (i + 1) = a + 1 + i by omega, this]; simp

theorem wf_storeBytes {m : List Host.Cell} (a : Nat) (bs : List Byte) (hm : Memory.wf m = true) :
    Memory.wf (storeBytes m a bs) = true := by
  induction bs generalizing m a with
  | nil => exact hm
  | cons b bs ih => exact ih (a + 1) (wf_insertByte a b hm)

theorem mem_storeBytes {m : List Host.Cell} {a : Nat} {bs : List Byte} {c : Host.Cell}
    (h : c ∈ storeBytes m a bs) : (a ≤ c.1 ∧ c.1 < a + bs.length) ∨ c ∈ m := by
  induction bs generalizing m a with
  | nil => exact .inr h
  | cons b bs ih =>
    simp only [List.length_cons]
    rcases ih h with h | h
    · exact .inl (by omega)
    · rcases mem_insertByte h with h | h
      · exact .inl (by omega)
      · exact .inr h

/-- Bytes stored read back as they were stored. -/
theorem bytesAt_storeBytes (m : List Host.Cell) (a : Nat) (bs : List Byte) :
    bytesAt (storeBytes m a bs) a bs.length = bs := by
  induction bs generalizing m a with
  | nil => rfl
  | cons b bs ih =>
    simp only [List.length_cons, bytesAt, storeBytes, ih]
    rw [byteAt_storeBytes_other _ _ (by omega)]; simp

@[simp] theorem length_bytesAt (m : List Host.Cell) (a n : Nat) : (bytesAt m a n).length = n := by
  induction n generalizing a with
  | zero => rfl
  | succ n ih => simp [bytesAt, ih]

/-! ### 32-bit words -/

@[simp] theorem length_wordBytes (v : Word) : (wordBytes v).length = 4 := rfl

theorem wordAt_congr {m m' : List Host.Cell} {a : Nat} (h : ∀ i < 4, byteAt m' (a + i) = byteAt m (a + i)) :
    wordAt m' a = wordAt m a := by
  have h0 := h 0 (by omega)
  simp only [Nat.add_zero] at h0
  simp only [wordAt, h0, h 1 (by omega), h 2 (by omega), h 3 (by omega)]

theorem wordBytes_append (v : Word) :
    v.extractLsb' 24 8 ++ v.extractLsb' 16 8 ++ v.extractLsb' 8 8 ++ v.extractLsb' 0 8 = v := by
  apply BitVec.eq_of_getLsbD_eq
  intro i hi
  simp only [BitVec.getLsbD_append, BitVec.getLsbD_extractLsb']
  split_ifs with h1 h2 h3
  · rw [decide_eq_true (by omega), Bool.true_and]; congr 1; omega
  · rw [decide_eq_true (by omega), Bool.true_and]; congr 1; omega
  · rw [decide_eq_true (by omega), Bool.true_and]; congr 1; omega
  · rw [decide_eq_true (by omega), Bool.true_and]; congr 1; omega

/-- A 32-bit word stored reads back (20_memory R66). -/
theorem wordAt_storeBytes (m : List Host.Cell) (a : Nat) (v : Word) :
    wordAt (storeBytes m a (wordBytes v)) a = v := by
  have h := fun i hi => byteAt_storeBytes_at m a (wordBytes v) i hi
  have h0 := h 0 (by simp)
  have h1 := h 1 (by simp)
  have h2 := h 2 (by simp)
  have h3 := h 3 (by simp)
  simp only [Nat.add_zero] at h0
  rw [wordAt, h0, h1, h2, h3]
  exact wordBytes_append v

end Sys2Proof.Machine
end

