-- ==== Sys2Proof/Laws/State.lean ====
section
/-! SUPPORT. One lemma per field per update of State, each true by rfl. -/

namespace Sys2Proof.Machine

@[simp] theorem State.setCr0_cr0 (s : State) (v : Word) : (s.setCr0 v).cr0 = v := rfl
@[simp] theorem State.setCr0_cr3 (s : State) (v : Word) : (s.setCr0 v).cr3 = s.cr3 := rfl
@[simp] theorem State.setCr0_cr4 (s : State) (v : Word) : (s.setCr0 v).cr4 = s.cr4 := rfl
@[simp] theorem State.setCr0_efer (s : State) (v : Word) : (s.setCr0 v).efer = s.efer := rfl
@[simp] theorem State.setCr0_eflags (s : State) (v : Word) : (s.setCr0 v).eflags = s.eflags := rfl
@[simp] theorem State.setCr0_cpl (s : State) (v : Word) : (s.setCr0 v).cpl = s.cpl := rfl
@[simp] theorem State.setCr0_gprs (s : State) (v : Word) : (s.setCr0 v).gprs = s.gprs := rfl
@[simp] theorem State.setCr0_eip (s : State) (v : Word) : (s.setCr0 v).eip = s.eip := rfl
@[simp] theorem State.setCr0_mem (s : State) (v : Word) : (s.setCr0 v).mem = s.mem := rfl
@[simp] theorem State.setCr0_params (s : State) (v : Word) : (s.setCr0 v).params = s.params := rfl
@[simp] theorem State.setCr0_run (s : State) (v : Word) : (s.setCr0 v).run = s.run := rfl
@[simp] theorem State.setCr0_result (s : State) (v : Word) : (s.setCr0 v).result = s.result := rfl
@[simp] theorem State.setCr0_walked (s : State) (v : Word) : (s.setCr0 v).walked = s.walked := rfl
@[simp] theorem State.setCr0_draws (s : State) (v : Word) : (s.setCr0 v).draws = s.draws := rfl

@[simp] theorem State.setCr3_cr0 (s : State) (v : Word) : (s.setCr3 v).cr0 = s.cr0 := rfl
@[simp] theorem State.setCr3_cr3 (s : State) (v : Word) : (s.setCr3 v).cr3 = v := rfl
@[simp] theorem State.setCr3_cr4 (s : State) (v : Word) : (s.setCr3 v).cr4 = s.cr4 := rfl
@[simp] theorem State.setCr3_efer (s : State) (v : Word) : (s.setCr3 v).efer = s.efer := rfl
@[simp] theorem State.setCr3_eflags (s : State) (v : Word) : (s.setCr3 v).eflags = s.eflags := rfl
@[simp] theorem State.setCr3_cpl (s : State) (v : Word) : (s.setCr3 v).cpl = s.cpl := rfl
@[simp] theorem State.setCr3_gprs (s : State) (v : Word) : (s.setCr3 v).gprs = s.gprs := rfl
@[simp] theorem State.setCr3_eip (s : State) (v : Word) : (s.setCr3 v).eip = s.eip := rfl
@[simp] theorem State.setCr3_mem (s : State) (v : Word) : (s.setCr3 v).mem = s.mem := rfl
@[simp] theorem State.setCr3_params (s : State) (v : Word) : (s.setCr3 v).params = s.params := rfl
@[simp] theorem State.setCr3_run (s : State) (v : Word) : (s.setCr3 v).run = s.run := rfl
@[simp] theorem State.setCr3_result (s : State) (v : Word) : (s.setCr3 v).result = s.result := rfl
@[simp] theorem State.setCr3_walked (s : State) (v : Word) : (s.setCr3 v).walked = s.walked := rfl
@[simp] theorem State.setCr3_draws (s : State) (v : Word) : (s.setCr3 v).draws = s.draws := rfl

@[simp] theorem State.setCr4_cr0 (s : State) (v : Word) : (s.setCr4 v).cr0 = s.cr0 := rfl
@[simp] theorem State.setCr4_cr3 (s : State) (v : Word) : (s.setCr4 v).cr3 = s.cr3 := rfl
@[simp] theorem State.setCr4_cr4 (s : State) (v : Word) : (s.setCr4 v).cr4 = v := rfl
@[simp] theorem State.setCr4_efer (s : State) (v : Word) : (s.setCr4 v).efer = s.efer := rfl
@[simp] theorem State.setCr4_eflags (s : State) (v : Word) : (s.setCr4 v).eflags = s.eflags := rfl
@[simp] theorem State.setCr4_cpl (s : State) (v : Word) : (s.setCr4 v).cpl = s.cpl := rfl
@[simp] theorem State.setCr4_gprs (s : State) (v : Word) : (s.setCr4 v).gprs = s.gprs := rfl
@[simp] theorem State.setCr4_eip (s : State) (v : Word) : (s.setCr4 v).eip = s.eip := rfl
@[simp] theorem State.setCr4_mem (s : State) (v : Word) : (s.setCr4 v).mem = s.mem := rfl
@[simp] theorem State.setCr4_params (s : State) (v : Word) : (s.setCr4 v).params = s.params := rfl
@[simp] theorem State.setCr4_run (s : State) (v : Word) : (s.setCr4 v).run = s.run := rfl
@[simp] theorem State.setCr4_result (s : State) (v : Word) : (s.setCr4 v).result = s.result := rfl
@[simp] theorem State.setCr4_walked (s : State) (v : Word) : (s.setCr4 v).walked = s.walked := rfl
@[simp] theorem State.setCr4_draws (s : State) (v : Word) : (s.setCr4 v).draws = s.draws := rfl

@[simp] theorem State.setEfer_cr0 (s : State) (v : MsrWord) : (s.setEfer v).cr0 = s.cr0 := rfl
@[simp] theorem State.setEfer_cr3 (s : State) (v : MsrWord) : (s.setEfer v).cr3 = s.cr3 := rfl
@[simp] theorem State.setEfer_cr4 (s : State) (v : MsrWord) : (s.setEfer v).cr4 = s.cr4 := rfl
@[simp] theorem State.setEfer_efer (s : State) (v : MsrWord) : (s.setEfer v).efer = v := rfl
@[simp] theorem State.setEfer_eflags (s : State) (v : MsrWord) : (s.setEfer v).eflags = s.eflags := rfl
@[simp] theorem State.setEfer_cpl (s : State) (v : MsrWord) : (s.setEfer v).cpl = s.cpl := rfl
@[simp] theorem State.setEfer_gprs (s : State) (v : MsrWord) : (s.setEfer v).gprs = s.gprs := rfl
@[simp] theorem State.setEfer_eip (s : State) (v : MsrWord) : (s.setEfer v).eip = s.eip := rfl
@[simp] theorem State.setEfer_mem (s : State) (v : MsrWord) : (s.setEfer v).mem = s.mem := rfl
@[simp] theorem State.setEfer_params (s : State) (v : MsrWord) : (s.setEfer v).params = s.params := rfl
@[simp] theorem State.setEfer_run (s : State) (v : MsrWord) : (s.setEfer v).run = s.run := rfl
@[simp] theorem State.setEfer_result (s : State) (v : MsrWord) : (s.setEfer v).result = s.result := rfl
@[simp] theorem State.setEfer_walked (s : State) (v : MsrWord) : (s.setEfer v).walked = s.walked := rfl
@[simp] theorem State.setEfer_draws (s : State) (v : MsrWord) : (s.setEfer v).draws = s.draws := rfl

@[simp] theorem State.setGprs_cr0 (s : State) (v : Gprs) : (s.setGprs v).cr0 = s.cr0 := rfl
@[simp] theorem State.setGprs_cr3 (s : State) (v : Gprs) : (s.setGprs v).cr3 = s.cr3 := rfl
@[simp] theorem State.setGprs_cr4 (s : State) (v : Gprs) : (s.setGprs v).cr4 = s.cr4 := rfl
@[simp] theorem State.setGprs_efer (s : State) (v : Gprs) : (s.setGprs v).efer = s.efer := rfl
@[simp] theorem State.setGprs_eflags (s : State) (v : Gprs) : (s.setGprs v).eflags = s.eflags := rfl
@[simp] theorem State.setGprs_cpl (s : State) (v : Gprs) : (s.setGprs v).cpl = s.cpl := rfl
@[simp] theorem State.setGprs_gprs (s : State) (v : Gprs) : (s.setGprs v).gprs = v := rfl
@[simp] theorem State.setGprs_eip (s : State) (v : Gprs) : (s.setGprs v).eip = s.eip := rfl
@[simp] theorem State.setGprs_mem (s : State) (v : Gprs) : (s.setGprs v).mem = s.mem := rfl
@[simp] theorem State.setGprs_params (s : State) (v : Gprs) : (s.setGprs v).params = s.params := rfl
@[simp] theorem State.setGprs_run (s : State) (v : Gprs) : (s.setGprs v).run = s.run := rfl
@[simp] theorem State.setGprs_result (s : State) (v : Gprs) : (s.setGprs v).result = s.result := rfl
@[simp] theorem State.setGprs_walked (s : State) (v : Gprs) : (s.setGprs v).walked = s.walked := rfl
@[simp] theorem State.setGprs_draws (s : State) (v : Gprs) : (s.setGprs v).draws = s.draws := rfl

@[simp] theorem State.setEip_cr0 (s : State) (v : Word) : (s.setEip v).cr0 = s.cr0 := rfl
@[simp] theorem State.setEip_cr3 (s : State) (v : Word) : (s.setEip v).cr3 = s.cr3 := rfl
@[simp] theorem State.setEip_cr4 (s : State) (v : Word) : (s.setEip v).cr4 = s.cr4 := rfl
@[simp] theorem State.setEip_efer (s : State) (v : Word) : (s.setEip v).efer = s.efer := rfl
@[simp] theorem State.setEip_eflags (s : State) (v : Word) : (s.setEip v).eflags = s.eflags := rfl
@[simp] theorem State.setEip_cpl (s : State) (v : Word) : (s.setEip v).cpl = s.cpl := rfl
@[simp] theorem State.setEip_gprs (s : State) (v : Word) : (s.setEip v).gprs = s.gprs := rfl
@[simp] theorem State.setEip_eip (s : State) (v : Word) : (s.setEip v).eip = v := rfl
@[simp] theorem State.setEip_mem (s : State) (v : Word) : (s.setEip v).mem = s.mem := rfl
@[simp] theorem State.setEip_params (s : State) (v : Word) : (s.setEip v).params = s.params := rfl
@[simp] theorem State.setEip_run (s : State) (v : Word) : (s.setEip v).run = s.run := rfl
@[simp] theorem State.setEip_result (s : State) (v : Word) : (s.setEip v).result = s.result := rfl
@[simp] theorem State.setEip_walked (s : State) (v : Word) : (s.setEip v).walked = s.walked := rfl
@[simp] theorem State.setEip_draws (s : State) (v : Word) : (s.setEip v).draws = s.draws := rfl

@[simp] theorem State.setMem_cr0 (s : State) (v : List Host.Cell) : (s.setMem v).cr0 = s.cr0 := rfl
@[simp] theorem State.setMem_cr3 (s : State) (v : List Host.Cell) : (s.setMem v).cr3 = s.cr3 := rfl
@[simp] theorem State.setMem_cr4 (s : State) (v : List Host.Cell) : (s.setMem v).cr4 = s.cr4 := rfl
@[simp] theorem State.setMem_efer (s : State) (v : List Host.Cell) : (s.setMem v).efer = s.efer := rfl
@[simp] theorem State.setMem_eflags (s : State) (v : List Host.Cell) : (s.setMem v).eflags = s.eflags := rfl
@[simp] theorem State.setMem_cpl (s : State) (v : List Host.Cell) : (s.setMem v).cpl = s.cpl := rfl
@[simp] theorem State.setMem_gprs (s : State) (v : List Host.Cell) : (s.setMem v).gprs = s.gprs := rfl
@[simp] theorem State.setMem_eip (s : State) (v : List Host.Cell) : (s.setMem v).eip = s.eip := rfl
@[simp] theorem State.setMem_mem (s : State) (v : List Host.Cell) : (s.setMem v).mem = v := rfl
@[simp] theorem State.setMem_params (s : State) (v : List Host.Cell) : (s.setMem v).params = s.params := rfl
@[simp] theorem State.setMem_run (s : State) (v : List Host.Cell) : (s.setMem v).run = s.run := rfl
@[simp] theorem State.setMem_result (s : State) (v : List Host.Cell) : (s.setMem v).result = s.result := rfl
@[simp] theorem State.setMem_walked (s : State) (v : List Host.Cell) : (s.setMem v).walked = s.walked := rfl
@[simp] theorem State.setMem_draws (s : State) (v : List Host.Cell) : (s.setMem v).draws = s.draws := rfl

@[simp] theorem State.setRun_cr0 (s : State) (v : List Op) : (s.setRun v).cr0 = s.cr0 := rfl
@[simp] theorem State.setRun_cr3 (s : State) (v : List Op) : (s.setRun v).cr3 = s.cr3 := rfl
@[simp] theorem State.setRun_cr4 (s : State) (v : List Op) : (s.setRun v).cr4 = s.cr4 := rfl
@[simp] theorem State.setRun_efer (s : State) (v : List Op) : (s.setRun v).efer = s.efer := rfl
@[simp] theorem State.setRun_eflags (s : State) (v : List Op) : (s.setRun v).eflags = s.eflags := rfl
@[simp] theorem State.setRun_cpl (s : State) (v : List Op) : (s.setRun v).cpl = s.cpl := rfl
@[simp] theorem State.setRun_gprs (s : State) (v : List Op) : (s.setRun v).gprs = s.gprs := rfl
@[simp] theorem State.setRun_eip (s : State) (v : List Op) : (s.setRun v).eip = s.eip := rfl
@[simp] theorem State.setRun_mem (s : State) (v : List Op) : (s.setRun v).mem = s.mem := rfl
@[simp] theorem State.setRun_params (s : State) (v : List Op) : (s.setRun v).params = s.params := rfl
@[simp] theorem State.setRun_run (s : State) (v : List Op) : (s.setRun v).run = v := rfl
@[simp] theorem State.setRun_result (s : State) (v : List Op) : (s.setRun v).result = s.result := rfl
@[simp] theorem State.setRun_walked (s : State) (v : List Op) : (s.setRun v).walked = s.walked := rfl
@[simp] theorem State.setRun_draws (s : State) (v : List Op) : (s.setRun v).draws = s.draws := rfl

@[simp] theorem State.setResult_cr0 (s : State) (v : OpResult) : (s.setResult v).cr0 = s.cr0 := rfl
@[simp] theorem State.setResult_cr3 (s : State) (v : OpResult) : (s.setResult v).cr3 = s.cr3 := rfl
@[simp] theorem State.setResult_cr4 (s : State) (v : OpResult) : (s.setResult v).cr4 = s.cr4 := rfl
@[simp] theorem State.setResult_efer (s : State) (v : OpResult) : (s.setResult v).efer = s.efer := rfl
@[simp] theorem State.setResult_eflags (s : State) (v : OpResult) : (s.setResult v).eflags = s.eflags := rfl
@[simp] theorem State.setResult_cpl (s : State) (v : OpResult) : (s.setResult v).cpl = s.cpl := rfl
@[simp] theorem State.setResult_gprs (s : State) (v : OpResult) : (s.setResult v).gprs = s.gprs := rfl
@[simp] theorem State.setResult_eip (s : State) (v : OpResult) : (s.setResult v).eip = s.eip := rfl
@[simp] theorem State.setResult_mem (s : State) (v : OpResult) : (s.setResult v).mem = s.mem := rfl
@[simp] theorem State.setResult_params (s : State) (v : OpResult) : (s.setResult v).params = s.params := rfl
@[simp] theorem State.setResult_run (s : State) (v : OpResult) : (s.setResult v).run = s.run := rfl
@[simp] theorem State.setResult_result (s : State) (v : OpResult) : (s.setResult v).result = v := rfl
@[simp] theorem State.setResult_walked (s : State) (v : OpResult) : (s.setResult v).walked = s.walked := rfl
@[simp] theorem State.setResult_draws (s : State) (v : OpResult) : (s.setResult v).draws = s.draws := rfl

@[simp] theorem State.setWalked_cr0 (s : State) (v : List (Nat × Word)) : (s.setWalked v).cr0 = s.cr0 := rfl
@[simp] theorem State.setWalked_cr3 (s : State) (v : List (Nat × Word)) : (s.setWalked v).cr3 = s.cr3 := rfl
@[simp] theorem State.setWalked_cr4 (s : State) (v : List (Nat × Word)) : (s.setWalked v).cr4 = s.cr4 := rfl
@[simp] theorem State.setWalked_efer (s : State) (v : List (Nat × Word)) : (s.setWalked v).efer = s.efer := rfl
@[simp] theorem State.setWalked_eflags (s : State) (v : List (Nat × Word)) : (s.setWalked v).eflags = s.eflags := rfl
@[simp] theorem State.setWalked_cpl (s : State) (v : List (Nat × Word)) : (s.setWalked v).cpl = s.cpl := rfl
@[simp] theorem State.setWalked_gprs (s : State) (v : List (Nat × Word)) : (s.setWalked v).gprs = s.gprs := rfl
@[simp] theorem State.setWalked_eip (s : State) (v : List (Nat × Word)) : (s.setWalked v).eip = s.eip := rfl
@[simp] theorem State.setWalked_mem (s : State) (v : List (Nat × Word)) : (s.setWalked v).mem = s.mem := rfl
@[simp] theorem State.setWalked_params (s : State) (v : List (Nat × Word)) : (s.setWalked v).params = s.params := rfl
@[simp] theorem State.setWalked_run (s : State) (v : List (Nat × Word)) : (s.setWalked v).run = s.run := rfl
@[simp] theorem State.setWalked_result (s : State) (v : List (Nat × Word)) : (s.setWalked v).result = s.result := rfl
@[simp] theorem State.setWalked_walked (s : State) (v : List (Nat × Word)) : (s.setWalked v).walked = v := rfl
@[simp] theorem State.setWalked_draws (s : State) (v : List (Nat × Word)) : (s.setWalked v).draws = s.draws := rfl

@[simp] theorem State.setDraws_cr0 (s : State) (v : Nat) : (s.setDraws v).cr0 = s.cr0 := rfl
@[simp] theorem State.setDraws_cr3 (s : State) (v : Nat) : (s.setDraws v).cr3 = s.cr3 := rfl
@[simp] theorem State.setDraws_cr4 (s : State) (v : Nat) : (s.setDraws v).cr4 = s.cr4 := rfl
@[simp] theorem State.setDraws_efer (s : State) (v : Nat) : (s.setDraws v).efer = s.efer := rfl
@[simp] theorem State.setDraws_eflags (s : State) (v : Nat) : (s.setDraws v).eflags = s.eflags := rfl
@[simp] theorem State.setDraws_cpl (s : State) (v : Nat) : (s.setDraws v).cpl = s.cpl := rfl
@[simp] theorem State.setDraws_gprs (s : State) (v : Nat) : (s.setDraws v).gprs = s.gprs := rfl
@[simp] theorem State.setDraws_eip (s : State) (v : Nat) : (s.setDraws v).eip = s.eip := rfl
@[simp] theorem State.setDraws_mem (s : State) (v : Nat) : (s.setDraws v).mem = s.mem := rfl
@[simp] theorem State.setDraws_params (s : State) (v : Nat) : (s.setDraws v).params = s.params := rfl
@[simp] theorem State.setDraws_run (s : State) (v : Nat) : (s.setDraws v).run = s.run := rfl
@[simp] theorem State.setDraws_result (s : State) (v : Nat) : (s.setDraws v).result = s.result := rfl
@[simp] theorem State.setDraws_walked (s : State) (v : Nat) : (s.setDraws v).walked = s.walked := rfl
@[simp] theorem State.setDraws_draws (s : State) (v : Nat) : (s.setDraws v).draws = v := rfl

end Sys2Proof.Machine
end

