-- ==== Sys2Proof/Laws/Ops.lean ====
section
/-! SUPPORT. What the shared operations of Machine/Ops.lean can do: sequencing, general registers, and checked access to
physical memory. -/

namespace Sys2Proof.Machine

/-! ### Sequencing -/

@[simp] theorem andThen_next {α β : Type} (a : α) (f : α → Res β) : andThen (.next a) f = f a := rfl
@[simp] theorem andThen_fault {α β : Type} (r : Fault) (f : α → Res β) : andThen (.fault r) f = .fault r := rfl
@[simp] theorem andThen_refused {α β : Type} (r : Refusal) (f : α → Res β) :
    andThen (.refused r) f = .refused r := rfl

theorem andThen_eq_next {α β : Type} {o : Res α} {f : α → Res β} {b : β} :
    andThen o f = .next b ↔ ∃ a, o = .next a ∧ f a = .next b := by
  cases o <;> simp

theorem andThen_eq_fault {α β : Type} {o : Res α} {f : α → Res β} {r : Fault} :
    andThen o f = .fault r ↔ o = .fault r ∨ ∃ a, o = .next a ∧ f a = .fault r := by
  cases o <;> simp

/-! ### General registers -/

@[simp] theorem readGpr_writeGpr_same (r : Reg) (v : Word) (s : State) : readGpr (writeGpr r v s) r = v := by
  cases r <;> rfl

theorem readGpr_writeGpr_other {r r' : Reg} (v : Word) (s : State) (h : r' ≠ r) :
    readGpr (writeGpr r v s) r' = readGpr s r' := by
  cases r <;> cases r' <;> first | rfl | exact absurd rfl h

/-- Writing a general register changes the general registers only. -/
theorem writeGpr_eq_setGprs (r : Reg) (v : Word) (s : State) : ∃ g, writeGpr r v s = s.setGprs g := by
  cases r <;> exact ⟨_, rfl⟩

/-! ### Physical memory -/

theorem kindAt_lt {p : Params} {a : Nat} {k : MemKind} (h : kindAt p a = some k) : a < 2 ^ p.physBits := by
  unfold kindAt at h
  split_ifs at h with h1
  exact h1

theorem checkWrite_eq_next {p : Params} {a : Nat} : checkWrite p a = .next () ↔ kindAt p a = some .ram := by
  unfold checkWrite
  cases kindAt p a with
  | none => simp
  | some k => cases k <;> simp

theorem checkWrites_eq_next {p : Params} {a n : Nat} :
    checkWrites p a n = .next () ↔ ∀ i < n, kindAt p (a + i) = some .ram := by
  induction n generalizing a with
  | zero => simp [checkWrites]
  | succ n ih =>
    simp only [checkWrites, andThen_eq_next, ih]
    constructor
    · rintro ⟨u, h1, h2⟩ i hi
      cases i with
      | zero => exact checkWrite_eq_next.mp h1
      | succ i => rw [show a + (i + 1) = a + 1 + i by omega]; exact h2 i (by omega)
    · intro h
      exact ⟨(), checkWrite_eq_next.mpr (h 0 (by omega)), fun i hi => by
        rw [show a + 1 + i = a + (i + 1) by omega]; exact h (i + 1) (by omega)⟩

/-- Bytes of read-write memory can be read. -/
theorem checkReads_of_ram {p : Params} {a n : Nat} (h : ∀ i < n, kindAt p (a + i) = some .ram) :
    checkReads p a n = .next () := by
  induction n generalizing a with
  | zero => rfl
  | succ n ih =>
    have h0 : checkRead p a = .next () := by
      unfold checkRead; rw [show kindAt p a = some .ram from h 0 (by omega)]
    rw [checkReads, h0, andThen_next]
    exact ih fun i hi => by rw [show a + 1 + i = a + (i + 1) by omega]; exact h (i + 1) (by omega)

/-- A fault of physical memory itself: nothing answers, or it cannot be written. -/
def IsMemoryFault (f : Fault) : Prop := (∃ pa, f = .noMemory pa) ∨ ∃ pa, f = .readOnlyMemory pa

theorem checkRead_fault {p : Params} {a : Nat} {f : Fault} (h : checkRead p a = .fault f) : IsMemoryFault f := by
  unfold checkRead at h
  split at h <;> simp at h
  exact .inl ⟨a, h.symm⟩

theorem checkWrite_fault {p : Params} {a : Nat} {f : Fault} (h : checkWrite p a = .fault f) : IsMemoryFault f := by
  unfold checkWrite at h
  split at h <;> simp at h
  · exact .inr ⟨a, h.symm⟩
  · exact .inl ⟨a, h.symm⟩

theorem checkReads_fault {p : Params} {a n : Nat} {f : Fault} (h : checkReads p a n = .fault f) :
    IsMemoryFault f := by
  induction n generalizing a with
  | zero => simp [checkReads] at h
  | succ n ih =>
    rcases andThen_eq_fault.mp h with h | ⟨_, _, h⟩
    · exact checkRead_fault h
    · exact ih h

theorem checkWrites_fault {p : Params} {a n : Nat} {f : Fault} (h : checkWrites p a n = .fault f) :
    IsMemoryFault f := by
  induction n generalizing a with
  | zero => simp [checkWrites] at h
  | succ n ih =>
    rcases andThen_eq_fault.mp h with h | ⟨_, _, h⟩
    · exact checkWrite_fault h
    · exact ih h

/-- PhysWrite, where it succeeds, stores the bytes in read-write memory. -/
theorem physWrite_eq_next {a : Nat} {bs : List Byte} {s t : State} :
    physWrite a bs s = .next t ↔
      (∀ i < bs.length, kindAt s.params (a + i) = some .ram) ∧ t = s.setMem (storeBytes s.mem a bs) := by
  unfold physWrite
  rw [andThen_eq_next]
  constructor
  · rintro ⟨_, h1, h2⟩
    exact ⟨checkWrites_eq_next.mp h1, by simpa using h2.symm⟩
  · rintro ⟨h1, rfl⟩
    exact ⟨(), checkWrites_eq_next.mpr h1, rfl⟩

/-- PhysRead, where it succeeds, gives the bytes memory holds. -/
theorem physRead_eq_next {a n : Nat} {bs : List Byte} {s : State} (h : physRead s a n = .next bs) :
    bs = bytesAt s.mem a n := by
  obtain ⟨_, _, h⟩ := andThen_eq_next.mp h
  simpa using h.symm

/-- Storing in read-write memory keeps memory canonical and inside the M-bit space. -/
theorem memoryInv_storeBytes {s : State} {a : Nat} {bs : List Byte}
    (hr : ∀ i < bs.length, kindAt s.params (a + i) = some .ram) (h : MemoryInv s) :
    MemoryInv (s.setMem (storeBytes s.mem a bs)) := by
  refine ⟨wf_storeBytes a bs h.1, fun c hc => ?_⟩
  rcases mem_storeBytes hc with hc | hc
  · have := kindAt_lt (hr (c.1 - a) (by omega))
    rw [show a + (c.1 - a) = c.1 by omega] at this
    exact this
  · exact h.2 c hc

end Sys2Proof.Machine
end

