-- ==== Sys2Proof/Laws/Paging.lean ====
section
/-! SUPPORT. What the parts of a 32-bit paging walk can do: an entry read, the accessed and dirty flag writes, and a
translation. -/

namespace Sys2Proof.Machine

/-! ### States that differ by a walk's traces -/

/-- What a walk and its flag writes may do to a state: the registers, the run and the result stay, memory gets
accessed and dirty flags only, and the invariants of memory and of the remembered entries are kept. -/
structure FlagStep (s t : State) : Prop where
  regs : SameRegisters s t
  run : t.run = s.run
  result : t.result = s.result
  flags : FlagsOnly s.mem t.mem
  memoryInv : MemoryInv s → MemoryInv t
  walkedInv : WalkedInv s → WalkedInv t

theorem SameRegisters.refl (s : State) : SameRegisters s s := ⟨rfl, rfl, rfl, rfl, rfl, rfl, rfl, rfl, rfl⟩

theorem SameRegisters.trans {s t u : State} (h : SameRegisters s t) (k : SameRegisters t u) : SameRegisters s u := by
  obtain ⟨h1, h2, h3, h4, h5, h6, h7, h8, h9⟩ := h
  obtain ⟨k1, k2, k3, k4, k5, k6, k7, k8, k9⟩ := k
  exact ⟨k1.trans h1, k2.trans h2, k3.trans h3, k4.trans h4, k5.trans h5, k6.trans h6, k7.trans h7, k8.trans h8,
    k9.trans h9⟩

theorem FlagsAdded.trans {a b c : Byte} (h : FlagsAdded a b) (k : FlagsAdded b c) : FlagsAdded a c := by
  refine ⟨k.1.trans h.1, ?_⟩
  calc a &&& c = (a &&& b) &&& c := by rw [h.2]
    _ = a &&& (b &&& c) := BitVec.and_assoc _ _ _
    _ = a := by rw [k.2, h.2]

theorem FlagsOnly.refl (m : List Host.Cell) : FlagsOnly m m := fun _ => .inl rfl

theorem FlagsOnly.trans {m n o : List Host.Cell} (h : FlagsOnly m n) (k : FlagsOnly n o) : FlagsOnly m o := by
  intro a
  rcases h a with h | ⟨h1, h2, h⟩ <;> rcases k a with k | ⟨k1, k2, k⟩
  · exact .inl (k.trans h)
  · exact .inr ⟨k1, k2, h ▸ k⟩
  · exact .inr ⟨h1, h2, k ▸ h⟩
  · exact .inr ⟨h1, h2, h.trans k⟩

theorem FlagStep.refl (s : State) : FlagStep s s :=
  ⟨.refl s, rfl, rfl, .refl _, id, id⟩

theorem FlagStep.trans {s t u : State} (h : FlagStep s t) (k : FlagStep t u) : FlagStep s u :=
  ⟨h.regs.trans k.regs, k.run.trans h.run, k.result.trans h.result, h.flags.trans k.flags,
    fun hs => k.memoryInv (h.memoryInv hs), fun hs => k.walkedInv (h.walkedInv hs)⟩

theorem SameRegisters.params_eq {s t : State} (h : SameRegisters s t) : t.params = s.params :=
  h.2.2.2.2.2.2.2.2

/-- Drawing a free value leaves everything else. -/
theorem flagStep_setDraws (s : State) (k : Nat) : FlagStep s (s.setDraws k) :=
  ⟨.refl s, rfl, rfl, .refl _, id, id⟩

/-! ### Reading an entry -/

theorem mem_staleValues {w : List (Nat × Word)} {a : Nat} {now v : Word} :
    v ∈ staleValues w a now ↔ (a, v) ∈ w ∧ v ≠ now := by
  simp only [staleValues, List.mem_map, List.mem_filter, Bool.and_eq_true, decide_eq_true_eq]
  constructor
  · rintro ⟨⟨b, v'⟩, ⟨h1, rfl, h3⟩, rfl⟩
    exact ⟨h1, h3⟩
  · rintro ⟨h1, h2⟩
    exact ⟨(a, v), ⟨h1, rfl, h2⟩, rfl⟩

/-- Nothing is stale at any address of a settled state. -/
theorem Settled.staleValues_eq_nil {s : State} (h : Settled s) (a : Nat) :
    staleValues s.walked a (wordAt s.mem a) = [] := by
  rw [List.eq_nil_iff_forall_not_mem]
  intro v hv
  obtain ⟨h1, h2⟩ := mem_staleValues.mp hv
  exact h2 (h _ h1).symm

/-- The value chosen is the present one or an old one, and only draws are made. -/
theorem chooseValue_spec (now : Word) (olds : List Word) (s : State) :
    ((chooseValue now olds s).1 = (now, true) ∨ ∃ old ∈ olds, (chooseValue now olds s).1 = (old, false))
      ∧ ∃ k, (chooseValue now olds s).2 = s.setDraws k := by
  induction olds generalizing s with
  | nil => exact ⟨.inl rfl, s.draws, rfl⟩
  | cons old olds ih =>
    rw [chooseValue]
    split_ifs with h
    · exact ⟨.inr ⟨old, by simp, rfl⟩, _, rfl⟩
    · obtain ⟨h1, k, h2⟩ := ih (drawWord s).2
      refine ⟨h1.imp id fun ⟨o, ho, he⟩ => ⟨o, List.mem_cons_of_mem _ ho, he⟩, k, ?_⟩
      rw [h2]; rfl

theorem recordWalk_eq (a : Nat) (v : Word) (s : State) :
    ∃ w, recordWalk a v s = s.setWalked w ∧ ∀ e ∈ w, e ∈ s.walked ∨ (e = (a, v) ∧ entryP v = true) := by
  unfold recordWalk
  split_ifs with h
  · refine ⟨_, rfl, fun e he => ?_⟩
    rcases List.mem_cons.mp he with he | he
    · exact .inr ⟨he, by simp only [Bool.and_eq_true] at h; exact h.1⟩
    · exact .inl he
  · exact ⟨s.walked, rfl, fun e he => .inl he⟩

/-- All that reading an entry can do: it gives the present value, or a value an earlier walk read there; and it
changes nothing but the remembered entries and the draws. -/
theorem readEntry_spec {a : PhysAddr} {s t : State} {e : EntryRead} (h : readEntry a s = .next (e, t)) :
    e.addr = a.toNat
      ∧ ((e.value = wordAt s.mem a.toNat ∧ e.fresh = true) ∨ ((a.toNat, e.value) ∈ s.walked ∧ e.fresh = false))
      ∧ ∃ w k, t = (s.setDraws k).setWalked w
        ∧ ∀ x ∈ w, x ∈ s.walked ∨ (x = (a.toNat, e.value) ∧ entryP e.value = true) := by
  obtain ⟨_, _, h⟩ := andThen_eq_next.mp h
  simp only [Host.Outcome.next.injEq, Prod.mk.injEq] at h
  obtain ⟨rfl, rfl⟩ := h
  obtain ⟨h1, k, h2⟩ := chooseValue_spec (wordAt s.mem a.toNat)
    (staleValues s.walked a.toNat (wordAt s.mem a.toNat)) s
  refine ⟨rfl, ?_, ?_⟩
  · rcases h1 with h1 | ⟨o, ho, h1⟩
    · exact .inl (by simp [h1])
    · exact .inr (by simpa [h1] using (mem_staleValues.mp ho).1)
  · obtain ⟨w, hw, hm⟩ := recordWalk_eq a.toNat
      (chooseValue (wordAt s.mem a.toNat) (staleValues s.walked a.toNat (wordAt s.mem a.toNat)) s).1.1
      (chooseValue (wordAt s.mem a.toNat) (staleValues s.walked a.toNat (wordAt s.mem a.toNat)) s).2
    refine ⟨w, k, by rw [hw, h2], fun x hx => ?_⟩
    have := hm x hx
    rw [h2] at this
    exact this

theorem readEntry_fault {a : PhysAddr} {s : State} {f : Fault} (h : readEntry a s = .fault f) : IsMemoryFault f := by
  rcases andThen_eq_fault.mp h with h | ⟨_, _, h⟩
  · exact checkReads_fault h
  · simp at h

/-- Where nothing is stale and memory answers, an entry read gives what memory holds and makes no draw. -/
theorem readEntry_settled {a : PhysAddr} {s : State} (hs : Settled s) (hr : EntryInRam s a.toNat) :
    readEntry a s
      = .next (⟨a.toNat, wordAt s.mem a.toNat, true⟩, recordWalk a.toNat (wordAt s.mem a.toNat) s) := by
  unfold readEntry
  rw [checkReads_of_ram hr, andThen_next]
  simp only [hs.staleValues_eq_nil, chooseValue]

/-- Reading an entry of a settled state leaves a settled state. -/
theorem settled_recordWalk {s : State} (hs : Settled s) (a : Nat) :
    Settled (recordWalk a (wordAt s.mem a) s) := by
  obtain ⟨w, hw, hm⟩ := recordWalk_eq a (wordAt s.mem a) s
  rw [hw]
  intro e he
  rcases hm e he with h | ⟨rfl, _⟩
  · exact hs e h
  · rfl

theorem flagStep_walk {s : State} {w : List (Nat × Word)} {k : Nat}
    (h : WalkedInv s → ∀ e ∈ w, WalkedEntry e) : FlagStep s ((s.setDraws k).setWalked w) :=
  ⟨.refl s, rfl, rfl, .refl _, id, h⟩

theorem readEntry_flagStep {a : PhysAddr} {s t : State} {e : EntryRead} (ha : a.toNat % 4 = 0)
    (hb : a.toNat < 2 ^ 32) (h : readEntry a s = .next (e, t)) : FlagStep s t := by
  obtain ⟨_, _, w, k, rfl, hw⟩ := readEntry_spec h
  refine flagStep_walk fun hs x hx => ?_
  rcases hw x hx with hx | ⟨rfl, hp⟩
  · exact hs x hx
  · exact ⟨hp, ha, hb⟩

/-! ### Entry addresses as numbers -/

theorem append_toNat {m n : Nat} (x : BitVec m) (y : BitVec n) : (x ++ y).toNat = x.toNat * 2 ^ n + y.toNat := by
  rw [BitVec.toNat_append, Nat.shiftLeft_eq, ← Nat.shiftLeft_eq, Nat.shiftLeft_add_eq_or_of_lt y.isLt,
    Nat.shiftLeft_eq]

theorem pdeAddr_toNat (cr3 la : Word) :
    (pdeAddr cr3 la).toNat = cr3.toNat / 2 ^ 12 * 2 ^ 12 + la.toNat / 2 ^ 22 * 4 := by
  have h1 := cr3.isLt
  have h2 := la.isLt
  simp only [pdeAddr, append_toNat, BitVec.extractLsb'_toNat, Nat.shiftRight_eq_div_pow,
    BitVec.ofNat_eq_ofNat, BitVec.toNat_ofNat]
  omega

theorem pteAddr_toNat (pde la : Word) :
    (pteAddr pde la).toNat = pde.toNat / 2 ^ 12 * 2 ^ 12 + la.toNat / 2 ^ 12 % 2 ^ 10 * 4 := by
  have h1 := pde.isLt
  have h2 := la.isLt
  simp only [pteAddr, append_toNat, BitVec.extractLsb'_toNat, Nat.shiftRight_eq_div_pow,
    BitVec.ofNat_eq_ofNat, BitVec.toNat_ofNat]
  omega

theorem page4KAddr_toNat (pte la : Word) :
    (page4KAddr pte la).toNat = pte.toNat / 2 ^ 12 * 2 ^ 12 + la.toNat % 2 ^ 12 := by
  have h1 := pte.isLt
  have h2 := la.isLt
  simp only [page4KAddr, append_toNat, BitVec.extractLsb'_toNat, Nat.shiftRight_eq_div_pow,
    BitVec.ofNat_eq_ofNat, BitVec.toNat_ofNat, pow_zero, Nat.div_one]
  omega

theorem page4MAddr_toNat (pde la : Word) :
    (page4MAddr pde la).toNat
      = pde.toNat / 2 ^ 13 % 2 ^ 8 * 2 ^ 32 + pde.toNat / 2 ^ 22 * 2 ^ 22 + la.toNat % 2 ^ 22 := by
  have h1 := pde.isLt
  have h2 := la.isLt
  simp only [page4MAddr, append_toNat, BitVec.extractLsb'_toNat, Nat.shiftRight_eq_div_pow]
  omega

theorem pdeAddr_aligned (cr3 la : Word) : (pdeAddr cr3 la).toNat % 4 = 0 ∧ (pdeAddr cr3 la).toNat < 2 ^ 32 := by
  have h1 := cr3.isLt
  have h2 := la.isLt
  rw [pdeAddr_toNat]; omega

theorem pteAddr_aligned (pde la : Word) : (pteAddr pde la).toNat % 4 = 0 ∧ (pteAddr pde la).toNat < 2 ^ 32 := by
  have h1 := pde.isLt
  have h2 := la.isLt
  rw [pteAddr_toNat]; omega

/-! ### Accessed and dirty flags -/

/-- A flag update of a walk: bits 5 and 6 only, in an aligned entry below 4 GBytes. -/
def FlagUpdateOk (u : FlagUpdate) : Prop := u.mask ||| 0x60 = 0x60 ∧ u.addr % 4 = 0 ∧ u.addr < 2 ^ 32

theorem and_or_mask {x y k : Word} (h : x ||| k = k) : (x &&& y) ||| k = k := by
  apply BitVec.eq_of_getLsbD_eq
  intro i hi
  have := congrArg (fun v => v.getLsbD i) h
  simp only [BitVec.getLsbD_or, BitVec.getLsbD_and] at *
  cases hx : x.getLsbD i <;> cases hk : k.getLsbD i <;> simp_all

/-- The bytes of an entry with flags added: the first gets flags, the others stay. -/
theorem flags_of_or {old bits : Word} (hb : bits ||| 0x60 = 0x60) :
    FlagsAdded (old.extractLsb' 0 8) ((old ||| bits).extractLsb' 0 8)
      ∧ ∀ k, 8 ≤ k → (old ||| bits).extractLsb' k 8 = old.extractLsb' k 8 := by
  have hbit : ∀ i, bits.getLsbD i = true → (0x60 : Word).getLsbD i = true := by
    intro i hi
    have := congrArg (fun v => v.getLsbD i) hb
    simpa [hi] using this.symm
  have hlow : ∀ i < 8, (0x60 : Word).getLsbD i = (0x60 : Byte).getLsbD i := by decide
  have hhigh : ∀ i < 32, 8 ≤ i → (0x60 : Word).getLsbD i = false := by decide
  refine ⟨⟨?_, ?_⟩, fun k hk => ?_⟩
  · apply BitVec.eq_of_getLsbD_eq
    intro i hi
    simp only [BitVec.getLsbD_or, BitVec.getLsbD_extractLsb', hi, Nat.zero_add, ← hlow i hi]
    cases h1 : bits.getLsbD i
    · simp
    · rw [hbit i h1]; simp
  · apply BitVec.eq_of_getLsbD_eq
    intro i hi
    simp only [BitVec.getLsbD_and, BitVec.getLsbD_or, BitVec.getLsbD_extractLsb', hi, Nat.zero_add]
    cases old.getLsbD i <;> simp
  · apply BitVec.eq_of_getLsbD_eq
    intro i hi
    simp only [BitVec.getLsbD_or, BitVec.getLsbD_extractLsb', hi]
    cases h1 : bits.getLsbD (k + i)
    · simp
    · have h2 := hbit _ h1
      by_cases h3 : k + i < 32
      · rw [hhigh _ h3 (by omega)] at h2; simp at h2
      · rw [BitVec.getLsbD_of_ge _ _ (by omega)] at h1; simp at h1

/-- The four bytes of the 32-bit word at an address. -/
theorem wordAt_bytes (m : List Host.Cell) (a : Nat) :
    (wordAt m a).extractLsb' 0 8 = byteAt m a ∧ (wordAt m a).extractLsb' 8 8 = byteAt m (a + 1)
      ∧ (wordAt m a).extractLsb' 16 8 = byteAt m (a + 2) ∧ (wordAt m a).extractLsb' 24 8 = byteAt m (a + 3) := by
  refine ⟨?_, ?_, ?_, ?_⟩ <;>
  · apply BitVec.eq_of_getLsbD_eq
    intro i hi
    simp only [wordAt, BitVec.getLsbD_extractLsb', BitVec.getLsbD_append, hi, decide_true, Bool.true_and]
    split_ifs <;> first | omega | (congr 1; omega)

/-- Storing an entry with flags added changes memory by flags only. -/
theorem flagsOnly_orWord {m : List Host.Cell} {a : Nat} {bits : Word} (hb : bits ||| 0x60 = 0x60) (ha : a % 4 = 0)
    (hl : a < 2 ^ 32) : FlagsOnly m (storeBytes m a (wordBytes (wordAt m a ||| bits))) := by
  intro x
  by_cases hx : x < a ∨ a + 4 ≤ x
  · exact .inl (byteAt_storeBytes_other m _ hx)
  · obtain ⟨f0, fk⟩ := flags_of_or (old := wordAt m a) hb
    obtain ⟨b0, b1, b2, b3⟩ := wordAt_bytes m a
    have hs := fun i hi => byteAt_storeBytes_at m a (wordBytes (wordAt m a ||| bits)) i hi
    obtain ⟨i, rfl⟩ : ∃ i, x = a + i := ⟨x - a, by omega⟩
    have hi : i < 4 := by omega
    interval_cases i
    · right
      have h0 := hs 0 (by simp)
      rw [Nat.add_zero] at *
      refine ⟨ha, hl, ?_⟩
      rw [h0, ← b0]
      exact f0
    · left; rw [hs 1 (by simp), ← b1]; exact fk 8 (by omega)
    · left; rw [hs 2 (by simp), ← b2]; exact fk 16 (by omega)
    · left; rw [hs 3 (by simp), ← b3]; exact fk 24 (by omega)

theorem mem_moveWalked {a : Nat} {old new : Word} {w : List (Nat × Word)} {e : Nat × Word}
    (h : e ∈ moveWalked a old new w) : e ∈ w ∨ (e = (a, new) ∧ (a, old) ∈ w) := by
  obtain ⟨x, hx, rfl⟩ := List.mem_map.mp h
  split_ifs with hc
  · subst hc; exact .inr ⟨rfl, hx⟩
  · exact .inl hx

theorem entryP_or {e bits : Word} (h : entryP e = true) : entryP (e ||| bits) = true := by
  simp only [entryP, BitVec.getLsbD_or, Bool.or_eq_true] at *
  exact .inl h

/-- What writing flags into an entry does, where it succeeds. -/
theorem orEntry_eq_next {a : Nat} {bits : Word} {s t : State} :
    orEntry a bits s = .next t ↔ EntryInRam s a ∧
      t = (s.setMem (storeBytes s.mem a (wordBytes (wordAt s.mem a ||| bits)))).setWalked
        (moveWalked a (wordAt s.mem a) (wordAt s.mem a ||| bits) s.walked) := by
  unfold orEntry
  simp only [andThen_eq_next, physWrite_eq_next, length_wordBytes]
  constructor
  · rintro ⟨s1, ⟨h1, rfl⟩, h2⟩
    exact ⟨h1, by simpa using h2.symm⟩
  · rintro ⟨h1, rfl⟩
    exact ⟨_, ⟨h1, rfl⟩, rfl⟩

theorem orEntry_flagStep {a : Nat} {bits : Word} {s t : State} (hb : bits ||| 0x60 = 0x60) (ha : a % 4 = 0)
    (hl : a < 2 ^ 32) (h : orEntry a bits s = .next t) : FlagStep s t := by
  obtain ⟨hr, rfl⟩ := orEntry_eq_next.mp h
  refine ⟨.refl s, rfl, rfl, flagsOnly_orWord hb ha hl, fun hm => memoryInv_storeBytes hr hm, fun hw e he => ?_⟩
  rcases mem_moveWalked he with he | ⟨rfl, ho⟩
  · exact hw e he
  · have := hw _ ho
    exact ⟨entryP_or this.1, this.2⟩

theorem maySetFlag_flagStep {u : FlagUpdate} (s : State) (hu : FlagUpdateOk u) : FlagStep s (maySetFlag u s) := by
  have hb : (u.mask &&& ~~~(wordAt s.mem u.addr) &&& (drawWord s).1) ||| 0x60 = 0x60 :=
    and_or_mask (and_or_mask hu.1)
  have hd : FlagStep s (drawWord s).2 := flagStep_setDraws s _
  unfold maySetFlag
  dsimp only
  split_ifs with h0
  · exact hd
  · split
    · rename_i t ht
      exact hd.trans (orEntry_flagStep hb hu.2.1 hu.2.2 ht)
    · exact hd
    · exact hd

theorem maySetFlags_flagStep {us : List FlagUpdate} (s : State) (hu : ∀ u ∈ us, FlagUpdateOk u) :
    FlagStep s (maySetFlags us s) := by
  induction us generalizing s with
  | nil => exact .refl s
  | cons u us ih =>
    exact (maySetFlag_flagStep s (hu u (by simp))).trans (ih _ fun v hv => hu v (List.mem_cons_of_mem _ hv))

theorem setFlag_flagStep {u : FlagUpdate} {s t : State} (hu : FlagUpdateOk u) (h : setFlag u s = .next t) :
    FlagStep s t := by
  unfold setFlag at h
  dsimp only at h
  split_ifs at h with hc h0
  · obtain rfl : s = t := by simpa using h
    exact .refl s
  · exact orEntry_flagStep (and_or_mask hu.1) hu.2.1 hu.2.2 h
  · obtain rfl : maySetFlag u s = t := by simpa using h
    exact maySetFlag_flagStep s hu

theorem setFlags_flagStep {us : List FlagUpdate} {s t : State} (hu : ∀ u ∈ us, FlagUpdateOk u)
    (h : setFlags us s = .next t) : FlagStep s t := by
  induction us generalizing s with
  | nil => obtain rfl : s = t := by simpa [setFlags] using h
           exact .refl s
  | cons u us ih =>
    obtain ⟨s1, h1, h2⟩ := andThen_eq_next.mp h
    exact (setFlag_flagStep (hu u (by simp)) h1).trans (ih (fun v hv => hu v (List.mem_cons_of_mem _ hv)) h2)

theorem orEntry_fault {a : Nat} {bits : Word} {s : State} {f : Fault} (h : orEntry a bits s = .fault f) :
    IsMemoryFault f := by
  rcases andThen_eq_fault.mp h with h | ⟨_, _, h⟩
  · rcases andThen_eq_fault.mp h with h | ⟨_, _, h⟩
    · exact checkWrites_fault h
    · simp at h
  · simp at h

theorem setFlags_fault {us : List FlagUpdate} {s : State} {f : Fault} (h : setFlags us s = .fault f) :
    IsMemoryFault f := by
  induction us generalizing s with
  | nil => simp [setFlags] at h
  | cons u us ih =>
    rcases andThen_eq_fault.mp h with h | ⟨_, _, h⟩
    · unfold setFlag at h
      dsimp only at h
      split_ifs at h
      exact orEntry_fault h
    · exact ih h

/-! ### Which bits flag updates change -/

theorem FlagsOf.refl (fl : List FlagUpdate) (m : List Host.Cell) : FlagsOf fl m m := fun _ _ h => absurd rfl h

theorem FlagsOf.mono {fl fl' : List FlagUpdate} {m n : List Host.Cell} (h : FlagsOf fl m n) (k : fl ⊆ fl') :
    FlagsOf fl' m n := fun a i d =>
  let ⟨h1, u, hu, h2⟩ := h a i d
  ⟨h1, u, k hu, h2⟩

theorem FlagsOf.trans {fl : List FlagUpdate} {m n o : List Host.Cell} (h : FlagsOf fl m n) (k : FlagsOf fl n o) :
    FlagsOf fl m o := by
  intro a i d
  by_cases hk : (byteAt o a).getLsbD i = (byteAt n a).getLsbD i
  · rw [hk] at d ⊢
    exact h a i d
  · exact k a i hk

/-- Storing an entry with bits of a mask added changes no byte but the first, and there adds the bits. -/
theorem byteAt_orWord {m : List Host.Cell} {a : Nat} {bits : Word} (hb : bits ||| 0x60 = 0x60) (ha : a % 4 = 0)
    (hl : a < 2 ^ 32) :
    byteAt (storeBytes m a (wordBytes (wordAt m a ||| bits))) a = byteAt m a ||| bits.extractLsb' 0 8
      ∧ ∀ x, x ≠ a → byteAt (storeBytes m a (wordBytes (wordAt m a ||| bits))) x = byteAt m x := by
  constructor
  · rw [← (wordAt_bytes (storeBytes _ _ _) a).1, wordAt_storeBytes, ← (wordAt_bytes m a).1]
    apply BitVec.eq_of_getLsbD_eq
    intro i hi
    simp only [BitVec.getLsbD_extractLsb', BitVec.getLsbD_or, hi, decide_true, Bool.true_and]
  · intro x hx
    by_cases hr : x < a ∨ a + 4 ≤ x
    · exact byteAt_storeBytes_other _ _ hr
    · rcases flagsOnly_orWord (m := m) hb ha hl x with h | ⟨h, _⟩
      · exact h
      · omega

theorem orEntry_flagsOf {u : FlagUpdate} {bits : Word} {s t : State} (hu : FlagUpdateOk u)
    (hb : ∀ i, bits.getLsbD i = true → u.mask.getLsbD i = true) (h : orEntry u.addr bits s = .next t) :
    FlagsOf [u] s.mem t.mem := by
  obtain ⟨_, rfl⟩ := orEntry_eq_next.mp h
  have hb6 : bits ||| 0x60 = 0x60 := by
    apply BitVec.eq_of_getLsbD_eq
    intro i _
    have := congrArg (fun v => v.getLsbD i) hu.1
    simp only [BitVec.getLsbD_or] at *
    cases h1 : bits.getLsbD i
    · simp
    · rw [hb i h1] at this; simpa using this
  obtain ⟨h0, hx⟩ := byteAt_orWord (m := s.mem) hb6 hu.2.1 hu.2.2
  intro a i d
  by_cases ha : a = u.addr
  · subst ha
    change (byteAt (storeBytes _ _ _) _).getLsbD i ≠ _ at d
    change (byteAt (storeBytes _ _ _) _).getLsbD i = true ∧ _
    rw [h0, BitVec.getLsbD_or] at d ⊢
    cases hbit : (bits.extractLsb' 0 8).getLsbD i
    · rw [hbit, Bool.or_false] at d; exact absurd rfl d
    · refine ⟨Bool.or_true _, u, by simp, rfl, hb i ?_⟩
      simp only [BitVec.getLsbD_extractLsb', Bool.and_eq_true, Nat.zero_add] at hbit
      exact hbit.2
  · exact absurd (congrArg (fun b => b.getLsbD i) (hx a ha)) d

theorem maySetFlag_flagsOf {u : FlagUpdate} (s : State) (hu : FlagUpdateOk u) :
    FlagsOf [u] s.mem (maySetFlag u s).mem := by
  unfold maySetFlag
  dsimp only
  split_ifs
  · exact .refl _ _
  · split
    · rename_i t ht
      refine orEntry_flagsOf (s := (drawWord s).2) hu (fun i hi => ?_) ht
      simp only [BitVec.getLsbD_and, Bool.and_eq_true] at hi
      exact hi.1.1
    · exact .refl _ _
    · exact .refl _ _

theorem setFlag_flagsOf {u : FlagUpdate} {s t : State} (hu : FlagUpdateOk u) (h : setFlag u s = .next t) :
    FlagsOf [u] s.mem t.mem := by
  unfold setFlag at h
  dsimp only at h
  split_ifs at h
  · obtain rfl : s = t := by simpa using h
    exact .refl _ _
  · refine orEntry_flagsOf hu (fun i hi => ?_) h
    simp only [BitVec.getLsbD_and, Bool.and_eq_true] at hi
    exact hi.1
  · obtain rfl : maySetFlag u s = t := by simpa using h
    exact maySetFlag_flagsOf s hu

/-- The flag writes of an access change bits of their own masks only. -/
theorem setFlags_flagsOf {us : List FlagUpdate} {s t : State} (hu : ∀ u ∈ us, FlagUpdateOk u)
    (h : setFlags us s = .next t) : FlagsOf us s.mem t.mem := by
  induction us generalizing s with
  | nil =>
    obtain rfl : s = t := by simpa [setFlags] using h
    exact .refl _ _
  | cons u us ih =>
    obtain ⟨s1, h1, h2⟩ := andThen_eq_next.mp h
    exact ((setFlag_flagsOf (hu u (by simp)) h1).mono (by simp)).trans
      ((ih (fun v hv => hu v (List.mem_cons_of_mem _ hv)) h2).mono (List.subset_cons_self _ _))

/-- So do the flag writes of an access that does not succeed. -/
theorem maySetFlags_flagsOf {us : List FlagUpdate} (s : State) (hu : ∀ u ∈ us, FlagUpdateOk u) :
    FlagsOf us s.mem (maySetFlags us s).mem := by
  induction us generalizing s with
  | nil => exact .refl _ _
  | cons u us ih =>
    exact ((maySetFlag_flagsOf s (hu u (by simp))).mono (by simp)).trans
      ((ih _ fun v hv => hu v (List.mem_cons_of_mem _ hv)).mono (List.subset_cons_self _ _))

/-! ### A translation -/

/-- The flag updates of a translation. -/
def Translation.flagUpdates : Translation → List FlagUpdate
  | .mapped _ fl => fl
  | .pageFault _ fl => fl

theorem flagA_ok {e : EntryRead} (ha : e.addr % 4 = 0) (hl : e.addr < 2 ^ 32) : FlagUpdateOk (flagA e) :=
  ⟨by simp only [flagA]; decide, ha, hl⟩

theorem flagAD_ok {e : EntryRead} (acc : Access) (ha : e.addr % 4 = 0) (hl : e.addr < 2 ^ 32) :
    FlagUpdateOk (flagAD acc e) := by
  refine ⟨?_, ha, hl⟩
  simp only [flagAD]
  split_ifs <;> decide

theorem finish4M_flags {s : State} {la : Word} {acc : Access} {pde : EntryRead} (ha : pde.addr % 4 = 0)
    (hl : pde.addr < 2 ^ 32) : ∀ u ∈ (finish4M s la acc pde).flagUpdates, FlagUpdateOk u := by
  unfold finish4M
  split_ifs <;> simp only [Translation.flagUpdates, List.mem_singleton, List.not_mem_nil, false_imp_iff, implies_true,
    forall_eq]
  · exact flagA_ok ha hl
  · exact flagAD_ok acc ha hl

theorem finish4K_flags {s : State} {la : Word} {acc : Access} {pde pte : EntryRead} (ha : pde.addr % 4 = 0)
    (hl : pde.addr < 2 ^ 32) (ha' : pte.addr % 4 = 0) (hl' : pte.addr < 2 ^ 32) :
    ∀ u ∈ (finish4K s la acc pde pte).flagUpdates, FlagUpdateOk u := by
  unfold finish4K
  split_ifs <;> simp only [Translation.flagUpdates, List.mem_cons, List.not_mem_nil, or_false, forall_eq_or_imp,
    forall_eq]
  · exact flagA_ok ha hl
  · exact flagA_ok ha hl
  · exact ⟨flagA_ok ha hl, flagA_ok ha' hl'⟩
  · exact ⟨flagA_ok ha hl, flagAD_ok acc ha' hl'⟩

/-- All that a translation can do to the state: remember entries and draw; and its flag updates are in order. -/
theorem translate32_spec {la : Word} {acc : Access} {s t : State} {r : Translation}
    (h : translate32 la acc s = .next (r, t)) : FlagStep s t ∧ ∀ u ∈ r.flagUpdates, FlagUpdateOk u := by
  obtain ⟨⟨pde, s1⟩, h1, h⟩ := andThen_eq_next.mp h
  dsimp only at h
  obtain ⟨ha, hl⟩ := pdeAddr_aligned s.cr3 la
  have hs1 := readEntry_flagStep ha hl h1
  have e1 := (readEntry_spec h1).1
  split_ifs at h with hp h4 hr
  · obtain ⟨rfl, rfl⟩ : _ = r ∧ s1 = t := by simpa using h
    exact ⟨hs1, by simp [Translation.flagUpdates]⟩
  · obtain ⟨rfl, rfl⟩ : _ = r ∧ s1 = t := by simpa using h
    exact ⟨hs1, finish4M_flags (e1 ▸ ha) (e1 ▸ hl)⟩
  · obtain ⟨rfl, rfl⟩ : _ = r ∧ s1 = t := by simpa using h
    exact ⟨hs1, by simp [Translation.flagUpdates]⟩
  · obtain ⟨⟨pte, s2⟩, h2, h⟩ := andThen_eq_next.mp h
    obtain ⟨ha', hl'⟩ := pteAddr_aligned pde.value la
    have e2 := (readEntry_spec h2).1
    obtain ⟨rfl, rfl⟩ : _ = r ∧ s2 = t := by simpa using h
    exact ⟨hs1.trans (readEntry_flagStep ha' hl' h2), finish4K_flags (e1 ▸ ha) (e1 ▸ hl) (e2 ▸ ha') (e2 ▸ hl')⟩

theorem translateLinear_spec {la : Word} {acc : Access} {s t : State} {r : Translation}
    (h : translateLinear la acc s = .next (r, t)) : FlagStep s t ∧ ∀ u ∈ r.flagUpdates, FlagUpdateOk u := by
  unfold translateLinear at h
  split at h
  · obtain ⟨rfl, rfl⟩ : _ = r ∧ s = t := by simpa using h
    exact ⟨.refl s, by simp [Translation.flagUpdates]⟩
  · exact translate32_spec h
  · simp at h
  · simp at h

theorem walkFlag_flagA {s : State} {la : Word} {acc : Access} {e : EntryRead}
    (h : WalkPassesPde s la e ∨ WalkPassesPte s la e) : WalkFlag s la acc (flagA e) :=
  ⟨e, rfl, .inl ⟨rfl, h⟩⟩

theorem walkFlag_flagAD {s : State} {la : Word} {acc : Access} {e : EntryRead}
    (h : WalkPassesPte s la e ∨ (WalkPassesPde s la e ∧ maps4M s e.value = true)) : WalkFlag s la acc (flagAD acc e) := by
  by_cases hk : acc.kind = .write
  · exact ⟨e, rfl, .inr ⟨hk, by simp only [flagAD, hk]; rfl, h⟩⟩
  · exact ⟨e, rfl, .inl ⟨by simp only [flagAD, hk]; rfl, h.elim .inr fun h => .inl h.1⟩⟩

theorem failedWalkFlag_flagA {s : State} {la : Word} {e : EntryRead}
    (h : WalkPassesPde s la e ∨ WalkPassesPte s la e) : FailedWalkFlag s la (flagA e) :=
  ⟨rfl, e, rfl, h⟩

/-- The flag updates of a translation are those of the entries its walk read: where it ends in a page fault, the accessed
flags of the entries that passed their own tests. -/
theorem translateLinear_flags {la : Word} {acc : Access} {s t : State} {r : Translation}
    (h : translateLinear la acc s = .next (r, t)) :
    (∀ pa fl, r = .mapped pa fl → ∀ u ∈ fl, WalkFlag s la acc u)
      ∧ ∀ code fl, r = .pageFault code fl → ∀ u ∈ fl, FailedWalkFlag s la u := by
  unfold translateLinear at h
  split at h
  · obtain ⟨rfl, rfl⟩ : _ = r ∧ s = t := by simpa using h
    simp
  · obtain ⟨⟨pde, s1⟩, h1, h⟩ := andThen_eq_next.mp h
    dsimp only at h
    split_ifs at h with hp h4 hr
    · obtain ⟨rfl, rfl⟩ : _ = r ∧ s1 = t := by simpa using h
      simp
    · obtain ⟨rfl, rfl⟩ : _ = r ∧ s1 = t := by simpa using h
      unfold finish4M
      split_ifs with hv ha
      · simp
      all_goals
        have hd : WalkPassesPde s la pde := ⟨by simpa using hp, by rw [if_pos h4]; simpa using hv, s1, h1⟩
      · simpa using failedWalkFlag_flagA (.inl hd)
      · simpa using walkFlag_flagAD (acc := acc) (.inr ⟨hd, h4⟩)
    · obtain ⟨rfl, rfl⟩ : _ = r ∧ s1 = t := by simpa using h
      simp
    · obtain ⟨⟨pte, s2⟩, h2, h⟩ := andThen_eq_next.mp h
      obtain ⟨rfl, rfl⟩ : _ = r ∧ s2 = t := by simpa using h
      have hd : WalkPassesPde s la pde := ⟨by simpa using hp, by rw [if_neg h4]; simpa using hr, s1, h1⟩
      unfold finish4K
      split_ifs with hq hv ha
      · simpa using failedWalkFlag_flagA (.inl hd)
      · simpa using failedWalkFlag_flagA (.inl hd)
      all_goals
        have ht : WalkPassesPte s la pte := ⟨by simpa using hq, by simpa using hv, pde, s1, s2, h1, by simpa using hp,
          by simpa using h4, by simpa using hr, h2⟩
      · simpa using ⟨failedWalkFlag_flagA (.inl hd), failedWalkFlag_flagA (.inr ht)⟩
      · simpa using ⟨walkFlag_flagA (acc := acc) (.inl hd), walkFlag_flagAD (acc := acc) (.inl ht)⟩
  · simp at h
  · simp at h

theorem readEntry_mem {a : PhysAddr} {s t : State} {e : EntryRead} (h : readEntry a s = .next (e, t)) :
    t.mem = s.mem := by
  obtain ⟨_, _, _, _, rfl, _⟩ := readEntry_spec h
  rfl

/-- A translation writes no memory: its flag writes come later. -/
theorem translateLinear_mem {la : Word} {acc : Access} {s t : State} {r : Translation}
    (h : translateLinear la acc s = .next (r, t)) : t.mem = s.mem := by
  unfold translateLinear at h
  split at h
  · obtain ⟨_, rfl⟩ : _ = r ∧ s = t := by simpa using h
    rfl
  · obtain ⟨⟨pde, s1⟩, h1, h⟩ := andThen_eq_next.mp h
    dsimp only at h
    split_ifs at h
    · obtain ⟨_, rfl⟩ : _ = r ∧ s1 = t := by simpa using h
      exact readEntry_mem h1
    · obtain ⟨_, rfl⟩ : _ = r ∧ s1 = t := by simpa using h
      exact readEntry_mem h1
    · obtain ⟨_, rfl⟩ : _ = r ∧ s1 = t := by simpa using h
      exact readEntry_mem h1
    · obtain ⟨⟨pte, s2⟩, h2, h⟩ := andThen_eq_next.mp h
      obtain ⟨_, rfl⟩ : _ = r ∧ s2 = t := by simpa using h
      exact (readEntry_mem h2).trans (readEntry_mem h1)
  · simp at h
  · simp at h

theorem translateLinear_fault {la : Word} {acc : Access} {s : State} {f : Fault} (h : translateLinear la acc s = .fault f) :
    IsMemoryFault f := by
  unfold translateLinear at h
  split at h
  · simp at h
  · rcases andThen_eq_fault.mp h with h | ⟨⟨pde, s1⟩, _, h⟩
    · exact readEntry_fault h
    · dsimp only at h
      split_ifs at h
      rcases andThen_eq_fault.mp h with h | ⟨_, _, h⟩
      · exact readEntry_fault h
      · simp at h
  · simp at h
  · simp at h

end Sys2Proof.Machine
end

