-- ==== Sys2Proof/Laws/Access.lean ====
section
/-! SUPPORT. What an access by linear address can do: its pieces, its plan, reading and writing. -/

namespace Sys2Proof.Machine

/-! ### Pieces -/

/-- The pieces of an access have as many bytes together as the access. -/
theorem splitPieces_length {fuel n : Nat} (la : Word) (h : n ≤ fuel) :
    ((splitPieces fuel la n).map Piece.len).sum = n := by
  induction fuel generalizing la n with
  | zero => simp [splitPieces]; omega
  | succ fuel ih =>
    rw [splitPieces]
    have hp : 0 < roomInPage la := by unfold roomInPage; omega
    split_ifs with h1 h2
    · simp [h1]
    · simp
    · simp only [List.map_cons, List.sum_cons, ih _ (show n - roomInPage la ≤ fuel by omega)]
      omega

theorem pieces_length (la : Word) (n : Nat) : ((pieces la n).map Piece.len).sum = n :=
  splitPieces_length la le_rfl

/-- An access inside one 4-KByte region is one piece. -/
theorem pieces_of_inside {la : Word} {n : Nat} (h1 : 1 ≤ n) (h2 : n ≤ roomInPage la) : pieces la n = [⟨la, n⟩] := by
  obtain ⟨k, rfl⟩ : ∃ k, n = k + 1 := ⟨n - 1, by omega⟩
  rw [pieces, splitPieces, if_neg (by omega), if_pos h2]

/-! ### Plans -/

/-- The flag updates of a plan. -/
def Plan.flagUpdates : Plan → List FlagUpdate
  | .spans _ fl => fl
  | .pageFault _ _ fl => fl

theorem Plan.flagUpdates_after (sp : Span) (fl : List FlagUpdate) (r : Plan) :
    (r.after sp fl).flagUpdates = fl ++ r.flagUpdates := by
  cases r <;> rfl

/-- All that planning an access can do to the state: remember entries and draw; and its flag updates are in order. -/
theorem planPieces_spec {acc : Access} {ps : List Piece} {s t : State} {r : Plan}
    (h : planPieces acc ps s = .next (r, t)) : FlagStep s t ∧ ∀ u ∈ r.flagUpdates, FlagUpdateOk u := by
  induction ps generalizing s t r with
  | nil =>
    obtain ⟨rfl, rfl⟩ : _ = r ∧ s = t := by simpa [planPieces] using h
    exact ⟨.refl s, by simp [Plan.flagUpdates]⟩
  | cons p ps ih =>
    obtain ⟨⟨tr, s1⟩, h1, h⟩ := andThen_eq_next.mp h
    obtain ⟨hs1, hf1⟩ := translateLinear_spec h1
    cases tr with
    | pageFault code fl =>
      obtain ⟨rfl, rfl⟩ : _ = r ∧ s1 = t := by simpa using h
      exact ⟨hs1, hf1⟩
    | mapped pa fl =>
      obtain ⟨⟨r', s2⟩, h2, h⟩ := andThen_eq_next.mp h
      obtain ⟨hs2, hf2⟩ := ih h2
      obtain ⟨rfl, rfl⟩ : _ = r ∧ s2 = t := by simpa using h
      refine ⟨hs1.trans hs2, fun u hu => ?_⟩
      rw [Plan.flagUpdates_after, List.mem_append] at hu
      exact hu.elim (hf1 u) (hf2 u)

theorem planPieces_fault {acc : Access} {ps : List Piece} {s : State} {f : Fault}
    (h : planPieces acc ps s = .fault f) : IsMemoryFault f := by
  induction ps generalizing s with
  | nil => simp [planPieces] at h
  | cons p ps ih =>
    rcases andThen_eq_fault.mp h with h | ⟨⟨tr, s1⟩, _, h⟩
    · exact translateLinear_fault h
    · cases tr with
      | pageFault code fl => simp at h
      | mapped pa fl =>
        rcases andThen_eq_fault.mp h with h | ⟨_, _, h⟩
        · exact ih h
        · simp at h

/-- Planning an access writes no memory. -/
theorem planPieces_mem {acc : Access} {ps : List Piece} {s t : State} {r : Plan}
    (h : planPieces acc ps s = .next (r, t)) : t.mem = s.mem := by
  induction ps generalizing s t r with
  | nil =>
    obtain ⟨_, rfl⟩ : _ = r ∧ s = t := by simpa [planPieces] using h
    rfl
  | cons p ps ih =>
    obtain ⟨⟨tr, s1⟩, h1, h⟩ := andThen_eq_next.mp h
    cases tr with
    | pageFault code fl =>
      obtain ⟨_, rfl⟩ : _ = r ∧ s1 = t := by simpa using h
      exact translateLinear_mem h1
    | mapped pa fl =>
      obtain ⟨⟨r', s2⟩, h2, h⟩ := andThen_eq_next.mp h
      obtain ⟨_, rfl⟩ : _ = r ∧ s2 = t := by simpa using h
      exact (ih h2).trans (translateLinear_mem h1)

/-- Planning ends in a page fault exactly where the pieces before one translate and that one fails; the flag updates are
theirs, in order. -/
theorem planPieces_eq_pageFault {acc : Access} {ps : List Piece} {s t : State} {la code : Word} {fl : List FlagUpdate} :
    planPieces acc ps s = .next (.pageFault la code fl, t) ↔ ∃ before p after l fl1 fl2 s1,
      ps = before ++ p :: after ∧ p.la = la ∧ planPieces acc before s = .next (.spans l fl1, s1)
        ∧ translateLinear p.la acc s1 = .next (.pageFault code fl2, t) ∧ fl = fl1 ++ fl2 := by
  constructor
  · intro h
    induction ps generalizing s fl with
    | nil => simp [planPieces] at h
    | cons p ps ih =>
      obtain ⟨⟨tr, s1⟩, h1, h⟩ := andThen_eq_next.mp h
      cases tr with
      | pageFault c fl' =>
        obtain ⟨⟨rfl, rfl, rfl⟩, rfl⟩ : (p.la = la ∧ c = code ∧ fl' = fl) ∧ s1 = t := by simpa using h
        exact ⟨[], p, ps, [], [], fl', s, rfl, rfl, rfl, h1, rfl⟩
      | mapped pa fl' =>
        obtain ⟨⟨r, s2⟩, h2, h⟩ := andThen_eq_next.mp h
        cases r with
        | spans l fl2 => simp [Plan.after] at h
        | pageFault la' c fl2 =>
          obtain ⟨⟨rfl, rfl, rfl⟩, rfl⟩ : (la' = la ∧ c = code ∧ fl' ++ fl2 = fl) ∧ s2 = t := by
            simpa [Plan.after] using h
          obtain ⟨b, q, a, l, f1, f2, s3, rfl, rfl, hb, hq, rfl⟩ := ih h2
          refine ⟨p :: b, q, a, ⟨pa, p.len⟩ :: l, fl' ++ f1, f2, s3, rfl, rfl, ?_, hq, by rw [List.append_assoc]⟩
          rw [planPieces, h1, andThen_next]
          dsimp only
          rw [hb]
          rfl
  · rintro ⟨before, p, after, l, fl1, fl2, s1, rfl, rfl, hb, hp, rfl⟩
    induction before generalizing s l fl1 with
    | nil =>
      obtain ⟨⟨_, rfl⟩, rfl⟩ : ([] = l ∧ [] = fl1) ∧ s = s1 := by simpa [planPieces] using hb
      rw [List.nil_append, planPieces, hp]
      rfl
    | cons q before ih =>
      obtain ⟨⟨tr, s2⟩, h1, hb⟩ := andThen_eq_next.mp hb
      cases tr with
      | pageFault c fl' => simp at hb
      | mapped pa fl' =>
        obtain ⟨⟨r, s3⟩, h2, hb⟩ := andThen_eq_next.mp hb
        cases r with
        | pageFault la' c fl' => simp [Plan.after] at hb
        | spans l' fl'' =>
          obtain ⟨⟨rfl, rfl⟩, rfl⟩ : (_ = l ∧ fl' ++ fl'' = fl1) ∧ s3 = s1 := by simpa [Plan.after] using hb
          rw [List.cons_append, planPieces, h1, andThen_next]
          dsimp only
          rw [ih _ _ h2, andThen_next, Plan.after, List.append_assoc]

/-- The flag updates of pieces that all translate are those of their walks. -/
theorem planPieces_flags {acc : Access} {ps : List Piece} {s t : State} {l : List Span} {fl : List FlagUpdate}
    (h : planPieces acc ps s = .next (.spans l fl, t)) : ∀ u ∈ fl, PiecesFlag acc ps s u := by
  induction ps generalizing s l fl with
  | nil =>
    obtain ⟨⟨_, rfl⟩, _⟩ : ([] = l ∧ [] = fl) ∧ s = t := by simpa [planPieces] using h
    simp
  | cons p ps ih =>
    obtain ⟨⟨tr, s1⟩, h1, h⟩ := andThen_eq_next.mp h
    cases tr with
    | pageFault c fl' => simp at h
    | mapped pa fl' =>
      obtain ⟨⟨r, s2⟩, h2, h⟩ := andThen_eq_next.mp h
      cases r with
      | pageFault la' c fl' => simp [Plan.after] at h
      | spans l' fl'' =>
        obtain ⟨⟨rfl, rfl⟩, rfl⟩ : (_ = l ∧ fl' ++ fl'' = fl) ∧ s2 = t := by simpa [Plan.after] using h
        intro u hu
        rcases List.mem_append.mp hu with hu | hu
        · exact ⟨[], p, ps, [], [], s, rfl, rfl, (translateLinear_flags h1).1 pa fl' rfl u hu⟩
        · obtain ⟨b, q, a, lb, fb, sb, rfl, hb, hw⟩ := ih h2 u hu
          refine ⟨p :: b, q, a, ⟨pa, p.len⟩ :: lb, fl' ++ fb, sb, rfl, ?_, hw⟩
          rw [planPieces, h1, andThen_next]
          dsimp only
          rw [hb]
          rfl

/-! ### Beginning an access -/

theorem commitPlan_next {plan : Plan} {s t : State} {l : List Span} (hf : ∀ u ∈ plan.flagUpdates, FlagUpdateOk u)
    (h : commitPlan plan s = .next (l, t)) : FlagStep s t := by
  cases plan with
  | pageFault la code fl => simp [commitPlan, raisePF] at h
  | spans l' fl =>
    unfold commitPlan at h
    dsimp only at h
    split_ifs at h
    · obtain ⟨s2, h2, h⟩ := andThen_eq_next.mp h
      obtain ⟨rfl, rfl⟩ : l' = l ∧ s2 = t := by simpa using h
      exact setFlags_flagStep hf h2
    · obtain ⟨rfl, rfl⟩ : l' = l ∧ s = t := by simpa using h
      exact .refl s

theorem commitPlan_fault {plan : Plan} {s : State} {f : Fault} (hf : ∀ u ∈ plan.flagUpdates, FlagUpdateOk u)
    (h : commitPlan plan s = .fault f) :
    IsMemoryFault f ∨ ∃ la code left, f = .pageFault la code left ∧ FlagStep s left := by
  cases plan with
  | pageFault la code fl =>
    obtain rfl : Fault.pageFault la code _ = f := by simpa [commitPlan, raisePF] using h
    refine .inr ⟨la, code, _, rfl, ?_⟩
    split_ifs
    · exact maySetFlags_flagStep s hf
    · exact .refl s
  | spans l' fl =>
    unfold commitPlan at h
    dsimp only at h
    split_ifs at h
    rcases andThen_eq_fault.mp h with h | ⟨_, _, h⟩
    · exact .inl (setFlags_fault h)
    · simp at h

/-- Where an access begins, only flags, remembered entries and draws have changed. -/
theorem beginAccess_next {la : Word} {n : Nat} {acc : Access} {s t : State} {l : List Span}
    (h : beginAccess la n acc s = .next (l, t)) : FlagStep s t := by
  unfold beginAccess at h
  split_ifs at h with hw
  obtain ⟨⟨plan, s1⟩, h1, h⟩ := andThen_eq_next.mp h
  obtain ⟨hs1, hf1⟩ := planPieces_spec h1
  exact hs1.trans (commitPlan_next hf1 h)

/-- An access that begins has planned its places, and written at most the flags of its plan. -/
theorem beginAccess_plan {la : Word} {n : Nat} {acc : Access} {s t : State} {l : List Span}
    (h : beginAccess la n acc s = .next (l, t)) :
    ∃ fl s0, planPieces acc (pieces la n) s = .next (.spans l fl, s0) ∧ (∀ u ∈ fl, FlagUpdateOk u)
      ∧ FlagsOf fl s.mem t.mem
      ∧ if s.params.setsAccessedDirty then setFlags fl s0 = .next t else t = s0 := by
  unfold beginAccess at h
  split_ifs at h
  obtain ⟨⟨plan, s0⟩, h1, h⟩ := andThen_eq_next.mp h
  obtain ⟨hs, hf⟩ := planPieces_spec h1
  cases plan with
  | pageFault la code fl => simp [commitPlan, raisePF] at h
  | spans l' fl =>
    unfold commitPlan at h
    dsimp only at h
    rw [hs.regs.params_eq] at h
    rw [← planPieces_mem h1]
    split_ifs at h with ha
    · obtain ⟨s2, h2, h⟩ := andThen_eq_next.mp h
      obtain ⟨rfl, rfl⟩ : l' = l ∧ s2 = t := by simpa using h
      exact ⟨fl, s0, h1, hf, setFlags_flagsOf hf h2, by rw [if_pos ha]; exact h2⟩
    · obtain ⟨rfl, rfl⟩ : l' = l ∧ s0 = t := by simpa using h
      exact ⟨fl, s0, h1, hf, .refl _ _, by rw [if_neg ha]⟩

/-- An access that does not begin stops with a fault of memory, or with a page fault that leaves the state as it was
but for flags, remembered entries and draws. -/
theorem beginAccess_fault {la : Word} {n : Nat} {acc : Access} {s : State} {f : Fault}
    (h : beginAccess la n acc s = .fault f) :
    IsMemoryFault f ∨ ∃ la' code left, f = .pageFault la' code left ∧ FlagStep s left := by
  unfold beginAccess at h
  split_ifs at h with hw
  rcases andThen_eq_fault.mp h with h | ⟨⟨plan, s1⟩, h1, h⟩
  · exact .inl (planPieces_fault h)
  · obtain ⟨hs1, hf1⟩ := planPieces_spec h1
    rcases commitPlan_fault hf1 h with h | ⟨la', code, left, h, hl⟩
    · exact .inl h
    · exact .inr ⟨la', code, left, h, hs1.trans hl⟩

/-- All that an access whose plan ends in a page fault does: it raises that fault, with the registers and the result as
they were and memory changed by flags of its plan only. -/
theorem beginAccess_of_pageFault {la la' code : Word} {n : Nat} {acc : Access} {s s0 : State} {fl : List FlagUpdate}
    (hw : accessWf la n = true) (h : planPieces acc (pieces la n) s = .next (.pageFault la' code fl, s0)) :
    ∃ left, beginAccess la n acc s = .fault (.pageFault la' code left) ∧ FlagStep s left
      ∧ FlagsOf fl s.mem left.mem := by
  obtain ⟨hs, hf⟩ := planPieces_spec h
  refine ⟨_, by rw [beginAccess, hw, h]; rfl, hs.trans ?_, ?_⟩
  · split_ifs
    · exact maySetFlags_flagStep s0 hf
    · exact .refl s0
  · rw [← planPieces_mem h]
    split_ifs
    · exact maySetFlags_flagsOf s0 hf
    · exact .refl _ _

/-- An access raises a page fault only where its plan ends in it. -/
theorem beginAccess_eq_pageFault {la la' code : Word} {n : Nat} {acc : Access} {s left : State}
    (h : beginAccess la n acc s = .fault (.pageFault la' code left)) :
    FlagStep s left ∧ ∃ fl s0, planPieces acc (pieces la n) s = .next (.pageFault la' code fl, s0)
      ∧ FlagsOf fl s.mem left.mem := by
  have h0 := h
  unfold beginAccess at h
  split_ifs at h with hw
  rcases andThen_eq_fault.mp h with h | ⟨⟨plan, s1⟩, h1, h⟩
  · rcases planPieces_fault h with ⟨_, h⟩ | ⟨_, h⟩ <;> cases h
  · cases plan with
    | spans l fl =>
      unfold commitPlan at h
      dsimp only at h
      split_ifs at h
      rcases andThen_eq_fault.mp h with h | ⟨_, _, h⟩
      · rcases setFlags_fault h with ⟨_, h⟩ | ⟨_, h⟩ <;> cases h
      · cases h
    | pageFault la2 c fl =>
      obtain ⟨left', hl, hs, hf⟩ := beginAccess_of_pageFault (by simpa using hw) h1
      obtain ⟨rfl, rfl, rfl⟩ : la2 = la' ∧ c = code ∧ left' = left := by simpa [h0] using hl.symm
      exact ⟨hs, fl, s1, h1, hf⟩

/-! ### Reading and writing -/

theorem readSpans_fault {l : List Span} {s : State} {f : Fault} (h : readSpans l s = .fault f) : IsMemoryFault f := by
  induction l with
  | nil => simp [readSpans] at h
  | cons sp l ih =>
    rcases andThen_eq_fault.mp h with h | ⟨_, _, h⟩
    · rcases andThen_eq_fault.mp h with h | ⟨_, _, h⟩
      · exact checkReads_fault h
      · simp at h
    · rcases andThen_eq_fault.mp h with h | ⟨_, _, h⟩
      · exact ih h
      · simp at h

theorem checkSpans_fault {p : Params} {l : List Span} {f : Fault} (h : checkSpans p l = .fault f) :
    IsMemoryFault f := by
  induction l with
  | nil => simp [checkSpans] at h
  | cons sp l ih =>
    rcases andThen_eq_fault.mp h with h | ⟨_, _, h⟩
    · exact checkWrites_fault h
    · exact ih h

theorem checkSpans_eq_next {p : Params} {l : List Span} (h : checkSpans p l = .next ()) :
    ∀ sp ∈ l, ∀ i < sp.len, kindAt p (sp.pa.toNat + i) = some .ram := by
  induction l with
  | nil => simp
  | cons sp l ih =>
    obtain ⟨_, h1, h2⟩ := andThen_eq_next.mp h
    intro sp' hsp
    rcases List.mem_cons.mp hsp with rfl | hsp
    · exact checkWrites_eq_next.mp h1
    · exact ih h2 sp' hsp

/-- Storing at the places of an access changes the bytes of those places only. -/
theorem byteAt_storeSpans_other (m : List Host.Cell) (l : List Span) (bs : List Byte) {a : Nat}
    (h : ¬ InSpans l a) : byteAt (storeSpans m l bs) a = byteAt m a := by
  induction l generalizing m bs with
  | nil => rfl
  | cons sp l ih =>
    have h1 : ¬ (sp.pa.toNat ≤ a ∧ a < sp.pa.toNat + sp.len) := fun hc => h ⟨sp, by simp, hc⟩
    rw [storeSpans, ih _ _ (fun ⟨sp', hs, hc⟩ => h ⟨sp', List.mem_cons_of_mem _ hs, hc⟩)]
    exact byteAt_storeBytes_other _ _ (by rw [List.length_take]; omega)

theorem memoryInv_storeSpans {s : State} {l : List Span} (bs : List Byte)
    (hr : ∀ sp ∈ l, ∀ i < sp.len, kindAt s.params (sp.pa.toNat + i) = some .ram) (h : MemoryInv s) :
    MemoryInv (s.setMem (storeSpans s.mem l bs)) := by
  induction l generalizing s bs with
  | nil => exact h
  | cons sp l ih =>
    have h1 : MemoryInv (s.setMem (storeBytes s.mem sp.pa.toNat (bs.take sp.len))) :=
      memoryInv_storeBytes (fun i hi => hr sp (by simp) i (by rw [List.length_take] at hi; omega)) h
    exact ih (s := s.setMem _) (bs.drop sp.len) (fun sp' hs => hr sp' (List.mem_cons_of_mem _ hs)) h1

theorem memRead_next {la : Word} {n : Nat} {acc : Access} {s t : State} {bs : List Byte}
    (h : memRead la n acc s = .next (bs, t)) :
    FlagStep s t ∧ ∃ l, beginAccess la n acc s = .next (l, t) ∧ readSpans l t = .next bs := by
  obtain ⟨⟨l, s1⟩, h1, h⟩ := andThen_eq_next.mp h
  obtain ⟨bs', h2, h⟩ := andThen_eq_next.mp h
  obtain ⟨rfl, rfl⟩ : bs' = bs ∧ s1 = t := by simpa using h
  exact ⟨beginAccess_next h1, l, h1, h2⟩

theorem memRead_fault {la : Word} {n : Nat} {acc : Access} {s : State} {f : Fault}
    (h : memRead la n acc s = .fault f) :
    IsMemoryFault f ∨ ∃ la' code left, f = .pageFault la' code left ∧ FlagStep s left := by
  rcases andThen_eq_fault.mp h with h | ⟨⟨l, s1⟩, _, h⟩
  · exact beginAccess_fault h
  · rcases andThen_eq_fault.mp h with h | ⟨_, _, h⟩
    · exact .inl (readSpans_fault h)
    · simp at h

/-- All that a write can do: flags and remembered entries as the access begins, then the bytes at its places. -/
theorem memWrite_next {la : Word} {bs : List Byte} {acc : Access} {s t : State} (h : memWrite la bs acc s = .next t) :
    ∃ l s1, beginAccess la bs.length acc s = .next (l, s1) ∧ FlagStep s s1
      ∧ (∀ sp ∈ l, ∀ i < sp.len, kindAt s1.params (sp.pa.toNat + i) = some .ram)
      ∧ t = s1.setMem (storeSpans s1.mem l bs) := by
  obtain ⟨⟨l, s1⟩, h1, h⟩ := andThen_eq_next.mp h
  obtain ⟨_, h2, h⟩ := andThen_eq_next.mp h
  exact ⟨l, s1, h1, beginAccess_next h1, checkSpans_eq_next h2, by simpa using h.symm⟩

theorem memWrite_fault {la : Word} {bs : List Byte} {acc : Access} {s : State} {f : Fault}
    (h : memWrite la bs acc s = .fault f) :
    IsMemoryFault f ∨ ∃ la' code left, f = .pageFault la' code left ∧ FlagStep s left := by
  rcases andThen_eq_fault.mp h with h | ⟨⟨l, s1⟩, _, h⟩
  · exact beginAccess_fault h
  · rcases andThen_eq_fault.mp h with h | ⟨_, _, h⟩
    · exact .inl (checkSpans_fault h)
    · simp at h

/-- All that fetching code can do. -/
theorem fetchCode_next {s t : State} {bs : List Byte} (h : fetchCode s = .next (bs, t)) : FlagStep s t := by
  obtain ⟨⟨bs', s1⟩, h1, h⟩ := andThen_eq_next.mp h
  dsimp only at h
  split_ifs at h
  · exact (memRead_next h).1
  · obtain ⟨rfl, rfl⟩ : bs' = bs ∧ s1 = t := by simpa using h
    exact (memRead_next h1).1

theorem fetchCode_fault {s : State} {f : Fault} (h : fetchCode s = .fault f) :
    IsMemoryFault f ∨ ∃ la' code left, f = .pageFault la' code left ∧ FlagStep s left := by
  rcases andThen_eq_fault.mp h with h | ⟨⟨bs', s1⟩, _, h⟩
  · exact memRead_fault h
  · dsimp only at h
    split_ifs at h
    exact memRead_fault h

end Sys2Proof.Machine
end

