-- ==== Sys2Proof/Laws/Modes.lean ====
section
/-! SUPPORT. What the operations on the control registers and IA32_EFER can do: one inversion lemma each. -/

namespace Sys2Proof.Machine

@[simp] theorem forgetWalksIf_cr0 (c : Bool) (s : State) : (forgetWalksIf c s).cr0 = s.cr0 := by cases c <;> rfl
@[simp] theorem forgetWalksIf_cr3 (c : Bool) (s : State) : (forgetWalksIf c s).cr3 = s.cr3 := by cases c <;> rfl
@[simp] theorem forgetWalksIf_cr4 (c : Bool) (s : State) : (forgetWalksIf c s).cr4 = s.cr4 := by cases c <;> rfl
@[simp] theorem forgetWalksIf_efer (c : Bool) (s : State) : (forgetWalksIf c s).efer = s.efer := by cases c <;> rfl
@[simp] theorem forgetWalksIf_eflags (c : Bool) (s : State) : (forgetWalksIf c s).eflags = s.eflags := by
  cases c <;> rfl
@[simp] theorem forgetWalksIf_cpl (c : Bool) (s : State) : (forgetWalksIf c s).cpl = s.cpl := by cases c <;> rfl
@[simp] theorem forgetWalksIf_gprs (c : Bool) (s : State) : (forgetWalksIf c s).gprs = s.gprs := by cases c <;> rfl
@[simp] theorem forgetWalksIf_eip (c : Bool) (s : State) : (forgetWalksIf c s).eip = s.eip := by cases c <;> rfl
@[simp] theorem forgetWalksIf_mem (c : Bool) (s : State) : (forgetWalksIf c s).mem = s.mem := by cases c <;> rfl
@[simp] theorem forgetWalksIf_params (c : Bool) (s : State) : (forgetWalksIf c s).params = s.params := by
  cases c <;> rfl
@[simp] theorem forgetWalksIf_run (c : Bool) (s : State) : (forgetWalksIf c s).run = s.run := by cases c <;> rfl
@[simp] theorem forgetWalksIf_result (c : Bool) (s : State) : (forgetWalksIf c s).result = s.result := by
  cases c <;> rfl
@[simp] theorem forgetWalksIf_draws (c : Bool) (s : State) : (forgetWalksIf c s).draws = s.draws := by
  cases c <;> rfl

theorem forgetWalksIf_walked (c : Bool) (s : State) :
    (forgetWalksIf c s).walked = [] ∨ (forgetWalksIf c s).walked = s.walked := by
  cases c
  · exact .inr rfl
  · exact .inl rfl

/-- All that a completed MovToCR0 did, and what it had to pass. -/
theorem movToCr0_next {v : Word} {s t : State} (h : movToCr0 v s = .next t) :
    s.cpl = 0 ∧ (cr0Pg v = true → cr0Pe v = true)
      ∧ (s.pg = false → cr0Pg v = true → s.lme = true → s.pae = true)
      ∧ t = forgetWalksIf (cr0ModeChange s.cr0 v) (s.setCr0 v) := by
  unfold movToCr0 raiseGP0 at h
  split_ifs at h with h1 h2 h3 h4 h5
  simp only [Bool.and_eq_true, Bool.not_eq_true', not_and] at h2 h3
  refine ⟨by simpa using h1, fun hp => ?_, fun hg hv hl => ?_, by simpa using h.symm⟩
  · cases hpe : cr0Pe v
    · exact absurd hpe (h2 hp)
    · rfl
  · cases ha : s.pae
    · exact absurd hl (h3 ⟨⟨hg, hv⟩, ha⟩)
    · rfl

/-- All that a completed MovToCR3 did. -/
theorem movToCr3_next {v : Word} {s t : State} (h : movToCr3 v s = .next t) :
    s.cpl = 0 ∧ t = forgetWalks (s.setCr3 v) := by
  unfold movToCr3 raiseGP0 at h
  split_ifs at h with h1
  exact ⟨by simpa using h1, by simpa using h.symm⟩

/-- All that a completed MovToCR4 did, and what it had to pass. -/
theorem movToCr4_next {v : Word} {s t : State} (h : movToCr4 v s = .next t) :
    s.cpl = 0 ∧ (s.pg = true → s.lme = true → s.pae = true → cr4Pae s.params.features v = true)
      ∧ t = forgetWalksIf (cr4ModeChange s.params.features s.cr4 v) (s.setCr4 v) := by
  unfold movToCr4 raiseGP0 at h
  split_ifs at h with h1 h2 h3 h4
  refine ⟨by simpa using h1, fun hg hl ha => ?_, by simpa using h.symm⟩
  cases hv : cr4Pae s.params.features v
  · exact absurd (by simp [hg, hl, ha, hv]) h2
  · rfl

/-- All that a completed Wrmsr did, and what it had to pass. -/
theorem wrmsrTo_next {idx : Word} {v : MsrWord} {s t : State} (h : wrmsrTo idx v s = .next t) :
    s.cpl = 0 ∧ idx = eferIndex ∧ s.params.features.efer = true
      ∧ (s.pg = true → eferLme s.params.features v = s.lme)
      ∧ t = s.setEfer ((s.efer &&& ~~~eferNamed) ||| (v &&& eferNamed)) := by
  unfold wrmsrTo raiseGP0 at h
  split_ifs at h with h1 h2 h3 h4 h5
  refine ⟨by simpa using h1, by simpa using h2, by simpa using h3, fun hg => ?_, by simpa using h.symm⟩
  simp only [hg, Bool.true_and, bne_iff_ne, ne_eq, not_not] at h4
  exact h4

theorem movFromCr_next {n : CtlReg} {s : State} {v : Word} (h : movFromCr n s = .next v) :
    s.cpl = 0 ∧ v = ctlRegValue s n := by
  unfold movFromCr raiseGP0 at h
  split_ifs at h with h1
  exact ⟨by simpa using h1, by simpa using h.symm⟩

theorem rdmsrFrom_next {idx : Word} {s : State} {v : MsrWord} (h : rdmsrFrom idx s = .next v) :
    s.cpl = 0 ∧ idx = eferIndex ∧ s.params.features.efer = true ∧ v = eferValue s := by
  unfold rdmsrFrom raiseGP0 at h
  split_ifs at h with h1 h2 h3
  exact ⟨by simpa using h1, by simpa using h2, by simpa using h3, by simpa using h.symm⟩

/-! ### The only fault is #GP(0), with nothing changed (60_exceptions R230) -/

theorem movToCr0_fault {v : Word} {s : State} {f : Fault} (h : movToCr0 v s = .fault f) :
    f = .generalProtection 0 s := by
  unfold movToCr0 raiseGP0 at h
  split_ifs at h <;> simpa using h.symm

theorem movToCr3_fault {v : Word} {s : State} {f : Fault} (h : movToCr3 v s = .fault f) :
    f = .generalProtection 0 s := by
  unfold movToCr3 raiseGP0 at h
  split_ifs at h
  simpa using h.symm

theorem movToCr4_fault {v : Word} {s : State} {f : Fault} (h : movToCr4 v s = .fault f) :
    f = .generalProtection 0 s := by
  unfold movToCr4 raiseGP0 at h
  split_ifs at h <;> simpa using h.symm

theorem wrmsrTo_fault {idx : Word} {v : MsrWord} {s : State} {f : Fault} (h : wrmsrTo idx v s = .fault f) :
    f = .generalProtection 0 s := by
  unfold wrmsrTo raiseGP0 at h
  split_ifs at h <;> simpa using h.symm

theorem movFromCr_fault {n : CtlReg} {s : State} {f : Fault} (h : movFromCr n s = .fault f) :
    f = .generalProtection 0 s := by
  unfold movFromCr raiseGP0 at h
  split_ifs at h
  simpa using h.symm

theorem rdmsrFrom_fault {idx : Word} {s : State} {f : Fault} (h : rdmsrFrom idx s = .fault f) :
    f = .generalProtection 0 s := by
  unfold rdmsrFrom raiseGP0 at h
  split_ifs at h <;> simpa using h.symm

/-- LME after a write of the named bit of IA32_EFER. -/
theorem eferLme_write (f : Features) (old v : MsrWord) :
    eferLme f ((old &&& ~~~eferNamed) ||| (v &&& eferNamed)) = eferLme f v := by
  simp [eferLme, eferNamed]

end Sys2Proof.Machine
end

