-- ==== Sys2Proof/Laws/Overview.lean ====
section
/-! SUPPORT. What the parts of the iterative procedure give in every mode: the bits of an entry's address, the page offset
of a translation, and that no bit of the linear address at or above W matters. -/

namespace Sys2Proof.Machine

/-- The entries of 32-bit, PAE and 4-level paging have 4 or 8 bytes (42_hierarchical_overview R161). -/
theorem walkParams_entryBytes {mode : PagingMode} {p : WalkParams} (h : walkParams mode = some p) :
    p.entryBytes = 4 ∨ p.entryBytes = 8 := by
  cases mode <;> simp [walkParams] at h <;> subst h <;> simp

/-- The address of an entry: its low bits are 0, the index stands above them, and the structure's address supplies the
rest (42_hierarchical_overview R174). -/
theorem entryAddr_spec (p : WalkParams) (sl : Slice) (table la : Nat) (he : 0 < p.entryBytes) :
    p.entryAddr sl table la % p.entryBytes = 0
      ∧ p.entryAddr sl table la / p.entryBytes % sl.entries = sl.index la
      ∧ p.entryAddr sl table la / p.structureBytes sl = table / p.structureBytes sl := by
  have hi : sl.index la < sl.entries := Nat.mod_lt _ (Nat.two_pow_pos _)
  have hn : 0 < sl.entries := Nat.two_pow_pos _
  have e : p.entryAddr sl table la
      = (table / p.structureBytes sl * sl.entries + sl.index la) * p.entryBytes := by
    simp only [WalkParams.entryAddr, WalkParams.structureBytes, Nat.add_mul, Nat.mul_assoc]
  rw [e]
  refine ⟨Nat.mul_mod_left _ _, ?_, ?_⟩
  · rw [Nat.mul_div_cancel _ he, Nat.mul_comm, Nat.mul_add_mod, Nat.mod_eq_of_lt hi]
  · rw [WalkParams.structureBytes, Nat.mul_comm sl.entries, ← Nat.div_div_eq_div_mul, Nat.mul_div_cancel _ he]
    rw [Nat.mul_comm, Nat.mul_add_div hn, Nat.div_eq_of_lt hi, Nat.add_zero]

/-- A translation ends at one of the slices, and its low bits are those of the linear address (42_hierarchical_overview
R163). -/
theorem walkFrom_offset {p : WalkParams} {rules : WalkRules} {read : Nat → EntryBits} {la pa table : Nat}
    {slices : List Slice} (h : walkFrom p rules read la slices table = some pa) :
    ∃ sl ∈ slices, pa % 2 ^ sl.lo = la % 2 ^ sl.lo := by
  induction slices generalizing table with
  | nil => simp [walkFrom] at h
  | cons sl rest ih =>
    rw [walkFrom] at h
    split_ifs at h
    · refine ⟨sl, by simp, ?_⟩
      rw [← Option.some.inj h, Nat.mul_comm, Nat.mul_add_mod]
      exact Nat.mod_mod _ _
    · obtain ⟨sl', hs, e⟩ := ih h
      exact ⟨sl', List.mem_cons_of_mem _ hs, e⟩

/-- The slices of a mode lie below W (42_hierarchical_overview R176). -/
theorem walkParams_slice {mode : PagingMode} {p : WalkParams} (h : walkParams mode = some p) :
    ∀ sl ∈ p.slices, sl.lo ≤ sl.hi ∧ sl.hi < p.width := by
  cases mode <;> simp [walkParams] at h <;> subst h <;> simp

/-- A slice below bit `w` selects by the bits below `w` alone. -/
theorem Slice.index_mod {sl : Slice} {w : Nat} (hl : sl.lo ≤ sl.hi) (hw : sl.hi < w) (la : Nat) :
    sl.index (la % 2 ^ w) = sl.index la := by
  have e : 2 ^ w = 2 ^ sl.lo * 2 ^ (w - sl.lo) := by rw [← pow_add]; congr 1; omega
  rw [Slice.index, e, Nat.mod_mul_right_div_self]
  exact Nat.mod_mod_of_dvd _ (Nat.pow_dvd_pow 2 (by omega))

/-- A walk through slices below bit `w` reads the bits of the linear address below `w` alone. -/
theorem walkFrom_mod {p : WalkParams} {rules : WalkRules} {read : Nat → EntryBits} {la w table : Nat}
    {slices : List Slice} (h : ∀ sl ∈ slices, sl.lo ≤ sl.hi ∧ sl.hi < w) :
    walkFrom p rules read (la % 2 ^ w) slices table = walkFrom p rules read la slices table := by
  induction slices generalizing table with
  | nil => rfl
  | cons sl rest ih =>
    obtain ⟨hl, hw⟩ := h sl (by simp)
    have ho : pageOffset (la % 2 ^ w) sl.lo = pageOffset la sl.lo :=
      Nat.mod_mod_of_dvd _ (Nat.pow_dvd_pow 2 (by omega))
    have ha : p.entryAddr sl table (la % 2 ^ w) = p.entryAddr sl table la := by
      rw [WalkParams.entryAddr, Slice.index_mod hl hw, WalkParams.entryAddr]
    rw [walkFrom, walkFrom, ha, ho, ih fun s hs => h s (List.mem_cons_of_mem _ hs)]

/-- What the model chose of the bits of a linear address at and above W, which the source leaves open for 4-level paging
(42_hierarchical_overview R175; entry 31): the procedure ignores them. -/
theorem genericWalk_mod_width {mode : PagingMode} {p : WalkParams} (h : walkParams mode = some p) (rules : WalkRules)
    (m : List Host.Cell) (la : Nat) : genericWalk mode rules m (la % 2 ^ p.width) = genericWalk mode rules m la := by
  simp only [genericWalk, h, Option.bind_some]
  exact walkFrom_mod (walkParams_slice h)

end Sys2Proof.Machine
end

