-- ==== Sys2Proof/Laws/PerInstr.lean ====
section
/-! SUPPORT. What is stated of every instruction as syntax, one lemma per constructor: the length of its encoding is
the one the opcode table gives its row, and it is well formed. -/

namespace Sys2Proof.Laws

/-- The length in bytes the opcode table gives an instruction's row (30_encoding R98). -/
def tableLength : Instr → Nat
  | .movCr0R32 _ _ => 3
  | .movCr3R32 _ _ => 3
  | .movCr4R32 _ _ => 3
  | .movR32Cr0 _ _ => 3
  | .movR32Cr3 _ _ => 3
  | .movR32Cr4 _ _ => 3
  | .wrmsr => 2
  | .rdmsr => 2

/-- An instruction is well formed and its encoding has the table's length. -/
def EncodedLength.Statement (i : Instr) : Prop := i.wf = true ∧ instrLength i = tableLength i

theorem EncodedLength.movCr0R32 (md : BitVec 2) (r : Reg) : EncodedLength.Statement (.movCr0R32 md r) := ⟨rfl, rfl⟩
theorem EncodedLength.movCr3R32 (md : BitVec 2) (r : Reg) : EncodedLength.Statement (.movCr3R32 md r) := ⟨rfl, rfl⟩
theorem EncodedLength.movCr4R32 (md : BitVec 2) (r : Reg) : EncodedLength.Statement (.movCr4R32 md r) := ⟨rfl, rfl⟩
theorem EncodedLength.movR32Cr0 (md : BitVec 2) (r : Reg) : EncodedLength.Statement (.movR32Cr0 md r) := ⟨rfl, rfl⟩
theorem EncodedLength.movR32Cr3 (md : BitVec 2) (r : Reg) : EncodedLength.Statement (.movR32Cr3 md r) := ⟨rfl, rfl⟩
theorem EncodedLength.movR32Cr4 (md : BitVec 2) (r : Reg) : EncodedLength.Statement (.movR32Cr4 md r) := ⟨rfl, rfl⟩
theorem EncodedLength.wrmsr : EncodedLength.Statement .wrmsr := ⟨rfl, rfl⟩
theorem EncodedLength.rdmsr : EncodedLength.Statement .rdmsr := ⟨rfl, rfl⟩

end Sys2Proof.Laws
end

