-- ==== Sys2Proof/Laws/Step.lean ====
section
/-! SUPPORT. What an instruction, an operation and a step can do, said once: the cases a proof about `step` goes by. -/

namespace Sys2Proof.Machine

/-- A step that completes performs the next operation of the run. -/
theorem step_next {s t : State} (h : step s = .next t) :
    ∃ op rest, s.run = op :: rest ∧ perform op (takeOp rest s) = .next t := by
  unfold step at h
  split at h
  · simp at h
  · exact ⟨_, _, by assumption, h⟩

/-- A step that faults performs the next operation of the run. -/
theorem step_fault {s : State} {f : Fault} (h : step s = .fault f) :
    ∃ op rest, s.run = op :: rest ∧ perform op (takeOp rest s) = .fault f := by
  unfold step at h
  split at h
  · simp at h
  · exact ⟨_, _, by assumption, h⟩

/-- All that the operations on registers can do when they complete, with the checks the invariants need. -/
inductive RegisterMove (s t : State) : Prop where
  | gprs (g : Gprs) (h : t = s.setGprs g)
  | cr0 (v : Word) (w : List (Nat × Word)) (hw : w = [] ∨ w = s.walked) (hpe : cr0Pg v = true → cr0Pe v = true)
      (hlme : s.pg = false → cr0Pg v = true → s.lme = true → s.pae = true) (h : t = (s.setCr0 v).setWalked w)
  | cr3 (v : Word) (h : t = (s.setCr3 v).setWalked [])
  | cr4 (v : Word) (w : List (Nat × Word)) (hw : w = [] ∨ w = s.walked)
      (hpae : s.pg = true → s.lme = true → s.pae = true → cr4Pae s.params.features v = true)
      (h : t = (s.setCr4 v).setWalked w)
  | efer (v : MsrWord) (hlme : s.pg = true → eferLme s.params.features v = s.lme) (h : t = s.setEfer v)
  | result (r : OpResult) (h : t = s.setResult r)

theorem forgetWalksIf_eq (c : Bool) (s : State) :
    ∃ w, forgetWalksIf c s = s.setWalked w ∧ (w = [] ∨ w = s.walked) := by
  cases c
  · exact ⟨s.walked, rfl, .inr rfl⟩
  · exact ⟨[], rfl, .inl rfl⟩

theorem movToCr0_move {v : Word} {s t : State} (h : movToCr0 v s = .next t) : RegisterMove s t := by
  obtain ⟨_, hpe, hlme, rfl⟩ := movToCr0_next h
  obtain ⟨w, hw, hw'⟩ := forgetWalksIf_eq (cr0ModeChange s.cr0 v) (s.setCr0 v)
  exact .cr0 v w hw' hpe hlme hw

theorem movToCr3_move {v : Word} {s t : State} (h : movToCr3 v s = .next t) : RegisterMove s t := by
  obtain ⟨_, rfl⟩ := movToCr3_next h
  exact .cr3 v rfl

theorem movToCr4_move {v : Word} {s t : State} (h : movToCr4 v s = .next t) : RegisterMove s t := by
  obtain ⟨_, hpae, rfl⟩ := movToCr4_next h
  obtain ⟨w, hw, hw'⟩ := forgetWalksIf_eq (cr4ModeChange s.params.features s.cr4 v) (s.setCr4 v)
  exact .cr4 v w hw' hpae hw

theorem wrmsrTo_move {idx : Word} {v : MsrWord} {s t : State} (h : wrmsrTo idx v s = .next t) : RegisterMove s t := by
  obtain ⟨_, _, _, hlme, rfl⟩ := wrmsrTo_next h
  exact .efer _ (fun hg => by rw [eferLme_write]; exact hlme hg) rfl

/-- All that an instruction of the table can do when it completes. -/
theorem exec_next {i : Instr} {s t : State} (h : exec i s = .next t) : RegisterMove s t := by
  cases i with
  | movCr0R32 md r => exact movToCr0_move h
  | movCr3R32 md r => exact movToCr3_move h
  | movCr4R32 md r => exact movToCr4_move h
  | wrmsr => exact wrmsrTo_move h
  | rdmsr =>
    obtain ⟨v, _, h⟩ := andThen_eq_next.mp h
    exact .gprs _ (Host.Outcome.next.inj h).symm
  | movR32Cr0 md r | movR32Cr3 md r | movR32Cr4 md r =>
    obtain ⟨v, _, h⟩ := andThen_eq_next.mp h
    obtain ⟨g, hg⟩ := writeGpr_eq_setGprs r v s
    exact .gprs g ((Host.Outcome.next.inj h).symm.trans hg)

/-- All that an operation can do when it completes. -/
inductive Performed (op : Op) (s t : State) : Prop where
  | move (hop : ∀ la v explicit, op ≠ .store la v explicit) (h : RegisterMove s t)
  | read (r : OpResult) (s1 : State) (h1 : FlagStep s s1) (h : t = s1.setResult r)
  | store (la : Word) (v : List Byte) (explicit : Bool) (hop : op = .store la v explicit) (l : List Span)
      (s1 : State)
      (h1 : FlagStep s s1) (hr : ∀ sp ∈ l, ∀ i < sp.len, kindAt s1.params (sp.pa.toNat + i) = some .ram)
      (h : t = s1.setMem (storeSpans s1.mem l v))
  | execute (s1 s2 : State) (eip : Word) (hop : op = .execute) (h1 : FlagStep s s1) (h2 : RegisterMove s1 s2)
      (h : t = s2.setEip eip)

theorem perform_next {op : Op} {s t : State} (h : perform op s = .next t) : Performed op s t := by
  cases op with
  | movToCr0 v => exact .move (by simp) (movToCr0_move h)
  | movToCr3 v => exact .move (by simp) (movToCr3_move h)
  | movToCr4 v => exact .move (by simp) (movToCr4_move h)
  | wrmsr idx v => exact .move (by simp) (wrmsrTo_move h)
  | movFromCr n | rdmsr idx =>
    obtain ⟨v, _, h⟩ := andThen_eq_next.mp h
    exact .move (by simp) (.result _ (Host.Outcome.next.inj h).symm)
  | vmxTransition => simp [perform, vmxTransition] at h
  | load la n explicit | fetch la n explicit =>
    obtain ⟨⟨bs, s1⟩, h1, h⟩ := andThen_eq_next.mp h
    exact .read _ s1 (memRead_next h1).1 (Host.Outcome.next.inj h).symm
  | store la v explicit =>
    obtain ⟨l, s1, _, h1, hr, h⟩ := memWrite_next h
    exact .store la v explicit rfl l s1 h1 hr h
  | code bytes =>
    unfold perform runCode at h
    dsimp only at h
    split at h
    · exact .move (by simp) (exec_next h)
    · simp at h
  | execute =>
    obtain ⟨⟨bs, s1⟩, h1, h⟩ := andThen_eq_next.mp h
    dsimp only at h
    split at h
    · obtain ⟨s2, h2, h⟩ := andThen_eq_next.mp h
      exact .execute s1 s2 _ rfl (fetchCode_next h1) (exec_next h2) (Host.Outcome.next.inj h).symm
    · simp at h

end Sys2Proof.Machine
end

