-- ==== Sys2Proof/Tests/Slice0.lean ====
section
/-! SUPPORT. Tests: ill-formed operations refused, a written-out word for every instruction, single steps on vectors of
95_test_vectors (numbers in the comments), and for every obligation with hypotheses a witness that meets them. -/

namespace Sys2Proof.Tests

open Sys2Proof Sys2Proof.Machine

/-! ### Small states -/

/-- Memory that lists 32-bit words. -/
def words (l : List (Nat × Word)) : List Host.Cell :=
  l.foldl (fun m e => storeBytes m e.1 (wordBytes e.2)) []

/-- Protection on, paging off. -/
def protectedState : State := State.reset.setCr0 0x60000011

/-- 32-bit paging on, the page directory at 1000H. -/
def paged (mem : List (Nat × Word)) : State :=
  ((State.reset.setCr0 0xE0000011).setCr3 0x1000).setMem (words mem)

/-- 4-level paging on, at CPL 0. -/
def longState : State := ((State.reset.setCr0 0xE0000011).setCr4 0x20).setEfer 0x100

/-- The page of the linear address 403025H: PDE and PTE, both user and writable. -/
def page4K : List (Nat × Word) := [(0x1004, 0x2007), (0x200C, 0x5007)]

/-- The page table entry has P = 0. -/
def absent4K : List (Nat × Word) := [(0x1004, 0x2007), (0x200C, 0x5006)]

/-- The 4-MByte page of the linear address C01ABCH: supervisor, writable. -/
def page4M : List (Nat × Word) := [(0x100C, 0xC00083)]

/-- The state at CPL 3: its explicit accesses are user-mode accesses. -/
def user (s : State) : State := { s with cpl := 3 }

/-- The outcome is a next state with a property. -/
def nextWith {α : Type} (o : Res α) (p : α → Bool) : Bool :=
  match o with
  | .next a => p a
  | .fault _ => false
  | .refused _ => false

/-- The outcome is #GP(0). -/
def isGP0 {α : Type} (o : Res α) : Bool :=
  match o with
  | .fault (.generalProtection code _) => code == 0
  | _ => false

/-- The outcome is a page fault with an address and an error code. -/
def isPF {α : Type} (o : Res α) (la code : Word) : Bool :=
  match o with
  | .fault (.pageFault a c _) => a == la && c == code
  | _ => false

/-- The outcome is a given refusal. -/
def isRefused {α : Type} (o : Res α) (r : Refusal) : Bool :=
  match o with
  | .refused r' => r' == r
  | _ => false

/-! ### Well-formedness: ill-formed operations are refused -/

theorem test_wf_load_of_no_byte : (Op.load 0x1000 0 true).wf = false := by decide
theorem test_wf_fetch_of_no_byte : (Op.fetch 0x1000 0 true).wf = false := by decide
theorem test_wf_store_of_no_byte : (Op.store 0x1000 [] true).wf = false := by decide
theorem test_wf_load_past_the_top : (Op.load 0xFFFFFFFE 4 true).wf = false := by decide
theorem test_wf_load_up_to_the_top : (Op.load 0xFFFFFFFC 4 true).wf = true := by decide
theorem test_wf_code_of_no_byte : (Op.code []).wf = false := by decide

theorem test_step_refuses_load_of_no_byte :
    isRefused (step (protectedState.setRun [.load 0x1000 0 true])) (.accessLength 0x1000 0) = true := by decide

/-- Vector X3. -/
theorem test_step_refuses_load_past_the_top :
    isRefused (step ((paged page4K).setRun [.load 0xFFFFFFFE 4 true])) (.accessLength 0xFFFFFFFE 4) = true := by decide

theorem test_step_refuses_no_code :
    isRefused (step (protectedState.setRun [.code []])) (.undecodable .truncated) = true := by decide

/-! ### Decoding: words written out from 30_encoding R92 to R98 -/

theorem test_decode_mov_cr0 : decode [0x0F, 0x22, 0b11000010] = .ok (.movCr0R32 3 .edx) [] := by decide
theorem test_decode_mov_cr3 : decode [0x0F, 0x22, 0b11011001] = .ok (.movCr3R32 3 .ecx) [] := by decide
theorem test_decode_mov_cr4 : decode [0x0F, 0x22, 0b00100011] = .ok (.movCr4R32 0 .ebx) [] := by decide
theorem test_decode_mov_from_cr0 : decode [0x0F, 0x20, 0b11000100] = .ok (.movR32Cr0 3 .esp) [] := by decide
theorem test_decode_mov_from_cr3 : decode [0x0F, 0x20, 0b01011101] = .ok (.movR32Cr3 1 .ebp) [] := by decide
theorem test_decode_mov_from_cr4 : decode [0x0F, 0x20, 0b11100110] = .ok (.movR32Cr4 3 .esi) [] := by decide
theorem test_decode_wrmsr : decode [0x0F, 0x30, 0x90] = .ok .wrmsr [0x90] := by decide
theorem test_decode_rdmsr : decode [0x0F, 0x32] = .ok .rdmsr [] := by decide
theorem test_decode_too_short : decode [0x0F, 0x22] = .refused .truncated := by decide
theorem test_decode_unknown : decode [0x90] = .refused .unknownOpcode := by decide

/-- Table words, first byte most significant (30_encoding R101). -/
theorem test_decode_table_word :
    decodeTableWord 24 0x0F2218 = some (.movCr3R32 0 .eax) ∧ decodeTableWord 16 0x0F32 = some .rdmsr := by decide

/-! ### One step of each instruction -/

/-- Vector of section 2.2: enabling 32-bit paging. -/
theorem test_mov_cr0_enables_paging :
    nextWith (exec (.movCr0R32 3 .eax) (writeGpr .eax 0xE0000011 protectedState))
      (fun t => t.cr0 == 0xE0000011 && pagingMode t == .paging32) = true := by decide

/-- The same with LME = 1 and PAE = 0: cause 2 of 60_exceptions R231. -/
theorem test_mov_cr0_faults_without_pae :
    isGP0 (exec (.movCr0R32 3 .eax) ((writeGpr .eax 0xE0000011 protectedState).setEfer 0x100)) = true := by decide

theorem test_mov_cr3 :
    nextWith (exec (.movCr3R32 3 .ecx) (writeGpr .ecx 0x12345FFF protectedState))
      (fun t => t.cr3 == 0x12345FFF && t.cr0 == 0x60000011) = true := by decide

theorem test_mov_cr3_faults_at_cpl3 :
    isGP0 (exec (.movCr3R32 3 .ecx) { protectedState with cpl := 3 }) = true := by decide

/-- 41_mode_enabling R133, its example: clearing PAE in 4-level paging. -/
theorem test_mov_cr4_faults_clearing_pae :
    isGP0 (exec (.movCr4R32 3 .eax) ((writeGpr .eax 0x80 longState).setCr4 0xA0)) = true := by decide

/-- Vector of section 2.3: setting PAE under 32-bit paging. -/
theorem test_mov_cr4_enters_pae :
    nextWith (exec (.movCr4R32 3 .eax) (writeGpr .eax 0x20 (paged page4K)))
      (fun t => t.cr4 == 0x20 && pagingMode t == .pagingPae) = true := by decide

theorem test_mov_from_cr0 :
    nextWith (exec (.movR32Cr0 3 .edi) protectedState)
      (fun t => readGpr t .edi == 0x60000011 && readGpr t .eax == 0) = true := by decide

theorem test_mov_from_cr3 :
    nextWith (exec (.movR32Cr3 3 .ebx) (protectedState.setCr3 0x12345FFF))
      (fun t => readGpr t .ebx == 0x12345FFF && t.cr3 == 0x12345FFF) = true := by decide

theorem test_mov_from_cr4 :
    nextWith (exec (.movR32Cr4 3 .eax) longState) (fun t => readGpr t .eax == 0x20 && t.cr4 == 0x20) = true := by decide

/-- The registers of WRMSR and RDMSR: IA32_EFER's number in ECX, a value in EDX:EAX. -/
def withMsr (edx eax : Word) (s : State) : State := writeGpr .ecx 0xC0000080 (writeGpr .edx edx (writeGpr .eax eax s))

/-- Program P3a, its operation 4. -/
theorem test_wrmsr_sets_lme :
    nextWith (exec .wrmsr (withMsr 0 0x100 protectedState)) (fun t => t.efer == 0x100) = true := by decide

/-- Cause 1 of 60_exceptions R231. -/
theorem test_wrmsr_faults_while_paging : isGP0 (exec .wrmsr (withMsr 0 0x100 (paged page4K))) = true := by decide

/-- Program P3b, its operation 5: LME and the computed LMA. -/
theorem test_rdmsr_returns_lma :
    nextWith (exec .rdmsr (withMsr 7 7 longState)) (fun t => readGpr t .eax == 0x500 && readGpr t .edx == 0) = true := by
  decide

theorem test_rdmsr_other_register_refused : isRefused (exec .rdmsr protectedState) (.otherMsr 0) = true := by decide

/-! ### Accesses -/

/-- Vector 2 of section 2.10. -/
theorem test_store_sets_accessed_and_dirty :
    nextWith (step ((paged page4K).setRun [.store 0x403025 [0x5A] true]))
      (fun t => byteAt t.mem 0x5025 == 0x5A && wordAt t.mem 0x1004 == 0x2027 && wordAt t.mem 0x200C == 0x5067)
      = true := by decide +kernel

/-- Section 2.11: a user-mode write to a read-only page (flags 7 and 5). -/
theorem test_user_write_faults :
    isPF (step ((user (paged [(0x1004, 0x2007), (0x200C, 0x5005)])).setRun [.store 0x403025 [1] true])) 0x403025 7 = true := by
  decide +kernel

/-- Section 2.11: SMAP = 1, AC = 0. -/
theorem test_smap_read_faults :
    isPF (step (((paged page4K).setCr4 0x200000).setRun [.load 0x403025 1 true])) 0x403025 1 = true := by
  decide +kernel

/-- Vector 12 of section 2.10: bit 21 of a 4-MByte PDE. -/
theorem test_reserved_bit_faults :
    isPF (step (((paged [(0x1010, 0x1200083)]).setCr4 0x10).setRun [.load 0x1000000 1 true])) 0x1000000 9 = true := by
  decide +kernel

/-- 43_32bit_paging R196, its example: a page above 4 GBytes. -/
theorem test_page_above_4G : page4MAddr 0x004020E7 0x00400000 = 0x100400000 := by decide

/-- Vector X1: a store that crosses a page boundary. -/
theorem test_crossing_store :
    nextWith (step ((paged ((0x2010, 0x9007) :: page4K)).setRun [.store 0x403FFE [0xAA, 0xBB, 0xCC, 0xDD] true]))
      (fun t => bytesAt t.mem 0x5FFE 2 == [0xAA, 0xBB] && bytesAt t.mem 0x9000 2 == [0xCC, 0xDD]
        && wordAt t.mem 0x2010 == 0x9067) = true := by decide +kernel

/-- Vector X2: its second page is not present. -/
theorem test_crossing_store_faults :
    isPF (step ((paged ((0x2010, 0x9006) :: page4K)).setRun [.store 0x403FFE [0xAA, 0xBB, 0xCC, 0xDD] true])) 0x404000 2
      = true := by decide +kernel

/-- A read of a hole in the physical address space, a write to read-only memory, a device. -/
theorem test_physical_memory_kinds :
    checkRead { Params.default with physMem := [⟨0, 16, .ram⟩] } 16 = .fault (.noMemory 16)
      ∧ checkWrite { Params.default with physMem := [⟨0, 16, .rom⟩] } 15 = .fault (.readOnlyMemory 15)
      ∧ checkRead { Params.default with physMem := [⟨0, 16, .mmio⟩] } 0 = .refused (.deviceAccess 0) := ⟨rfl, rfl, rfl⟩

/-! ### The access mode, the parameters, the procedure in the other modes -/

/-- 10_state R42: an explicit access is a user-mode access at CPL 3 only, an implicit one never. -/
theorem test_mode_from_cpl :
    (accessAt { State.reset with cpl := 2 } .read true).mode = .supervisor
      ∧ (accessAt (user State.reset) .read true).mode = .user
      ∧ (accessAt (user State.reset) .read false).mode = .supervisor := by decide

/-- P5b of section 3: a Load at CPL 3 of a supervisor page. -/
theorem test_user_load_of_supervisor_page_faults :
    isPF (step ((user (paged [(0x1004, 0x2007), (0x2010, 0x6003)])).setRun [.load 0x404000 1 true])) 0x404000 5
      = true := by decide +kernel

/-- An implementation that permits reads only, of pages whose PTE has bit 9 set. -/
def readsOnly : Params :=
  { Params.default with accessRights := .byRules [{ kind := some .read, pte := .present ⟨0x200, 0x200⟩ }] }

theorem test_replaced_rights :
    accessPermitted (State.resetWith readsOnly) ⟨.read, .user, true⟩ 0x2001 (some 0x5201) = true
      ∧ accessPermitted (State.resetWith readsOnly) ⟨.read, .user, true⟩ 0x2001 (some 0x5001) = false
      ∧ accessPermitted (State.resetWith readsOnly) ⟨.read, .user, true⟩ 0x2001 none = false
      ∧ accessPermitted (State.resetWith readsOnly) ⟨.write, .user, true⟩ 0x2007 (some 0x5207) = false := by decide

/-- 43_32bit_paging R203: M = 36, PSE36 false, PAT_SUPPORTED false. -/
theorem test_reserved_bits :
    reservedPde4M Params.default = 0x00200000
      ∧ reservedPde4M { Params.default with physBitsAbove32 := 4 } = 0x003E0000
      ∧ reservedPde4M { Params.default with pse36 := false } = 0x003FE000
      ∧ reservedPde4M { Params.default with patSupported := false } = 0x00201000
      ∧ reservedPte { Params.default with patSupported := false } = 0x80 := by decide

/-- 42_hierarchical_overview R168, R174: the indices 3, 002H and 003H of C0403025H in bits 4:3 and 11:3. -/
theorem test_pae_entry_addresses :
    (walkParams .pagingPae).map (fun p => p.slices.map fun sl => p.entryAddr sl 0x7FE0 0xC0403025)
      = some [0x7FF8, 0x7010, 0x7018] := by decide

/-- Rules for a walk through 8-byte entries, of the test's own choosing (42_hierarchical_overview R175): addresses in bits
51:12, bit 62 reserved, PS honoured at the second structure of PAE paging. -/
def rules64 (first : Nat) : WalkRules where
  first := first
  reserved _ e := e.getLsbD 62
  honoursPs sl := decide (sl.lo = 21)
  frame _ e := e.toNat / 2 ^ 12 % 2 ^ 40 * 2 ^ 12
  next e := e.toNat / 2 ^ 12 % 2 ^ 40 * 2 ^ 12

/-- 42_hierarchical_overview R166, R170 to R172 with 8-byte entries: three structures to a 4-KByte page above 4 GBytes; a
page mapped by PS at the second; P = 0; and a reserved bit. -/
theorem test_iterative_procedure_with_eight_byte_entries :
    let low := [(0x1018, 0x2001), (0x101C, 0), (0x2010, 0x3001), (0x2014, 0)]
    genericWalk .pagingPae (rules64 0x1000) (words (low ++ [(0x3018, 0x5081), (0x301C, 1)])) 0xC0403025 = some 0x100005025
      ∧ genericWalk .pagingPae (rules64 0x1000) (words [(0x1018, 0x2001), (0x101C, 0), (0x2010, 0x400081), (0x2014, 0)])
        0xC0403025 = some 0x403025
      ∧ genericWalk .pagingPae (rules64 0x1000) (words (low ++ [(0x3018, 0x5080), (0x301C, 1)])) 0xC0403025 = none
      ∧ genericWalk .pagingPae (rules64 0x1000) (words (low ++ [(0x3018, 0x5001), (0x301C, 0x40000000)])) 0xC0403025
        = none := by decide +kernel

/-- 43_32bit_paging R208, 60_exceptions R234: a PDE with P = 0 leaves no flag to set; a PTE with P = 0 the PDE's accessed flag;
a write that the rights of the PTE forbid both accessed flags and no dirty flag (entry 11). -/
theorem test_flags_of_failed_walks :
    let flags := fun (m : List (Nat × Word)) => nextWith (translateLinear 0x403025 ⟨.write, .user, true⟩ (paged m))
    flags [(0x1004, 0x2006)] (fun r => r.1 == .pageFault 6 []) = true
      ∧ flags absent4K (fun r => r.1 == .pageFault 6 [⟨0x1004, 0x20, true⟩]) = true
      ∧ flags [(0x1004, 0x2007), (0x200C, 0x5005)]
        (fun r => r.1 == .pageFault 7 [⟨0x1004, 0x20, true⟩, ⟨0x200C, 0x20, true⟩]) = true := by decide +kernel

/-! ### Witnesses: for each obligation with hypotheses, states and operands that meet them

One theorem per obligation, `test_meets_` and its name. Where the obligation has several clauses there is one part for
each, at a boundary of its range. -/

theorem next_of {α : Type} {o : Res α} {p : α → Bool} (h : nextWith o p = true) : ∃ a, o = .next a ∧ p a = true := by
  cases o with
  | next a => exact ⟨a, rfl, h⟩
  | fault _ => cases h
  | refused _ => cases h

theorem gp_of {α : Type} {o : Res α} (h : isGP0 o = true) : ∃ left, o = .fault (.generalProtection 0 left) := by
  unfold isGP0 at h
  split at h
  · rename_i code left
    exact ⟨left, by rw [eq_of_beq h]⟩
  · cases h

theorem pf_of {α : Type} {o : Res α} {la code : Word} (h : isPF o la code = true) :
    ∃ left, o = .fault (.pageFault la code left) := by
  unfold isPF at h
  split at h
  · rename_i a c left
    rw [Bool.and_eq_true] at h
    exact ⟨left, by rw [eq_of_beq h.1, eq_of_beq h.2]⟩
  · cases h

/-- The translation of a state is a mapped address. -/
def mapsTo (la : Word) (acc : Access) (s : State) (pa : Nat) : Bool :=
  nextWith (translateLinear la acc s) fun r => match r.1 with
    | .mapped p _ => p.toNat == pa
    | .pageFault _ _ => false

/-- The translation of a state is a page fault with an error code. -/
def faultsWith (la : Word) (acc : Access) (s : State) (code : Word) : Bool :=
  nextWith (translateLinear la acc s) fun r => match r.1 with
    | .mapped _ _ => false
    | .pageFault c _ => c == code

theorem mapped_of {la : Word} {acc : Access} {s : State} {p : Nat} (h : mapsTo la acc s p = true) :
    ∃ pa fl t, translateLinear la acc s = .next (.mapped pa fl, t) ∧ pa.toNat = p := by
  obtain ⟨⟨r, t⟩, h1, h2⟩ := next_of h
  cases r with
  | mapped pa fl => exact ⟨pa, fl, t, h1, eq_of_beq h2⟩
  | pageFault c fl => cases h2

theorem fault_of {la : Word} {acc : Access} {s : State} {code : Word} (h : faultsWith la acc s code = true) :
    ∃ fl t, translateLinear la acc s = .next (.pageFault code fl, t) := by
  obtain ⟨⟨r, t⟩, h1, h2⟩ := next_of h
  cases r with
  | mapped pa fl => cases h2
  | pageFault c fl => exact ⟨fl, t, by rw [h1, eq_of_beq h2]⟩

/-- A ResetState with 32-bit paging on. -/
theorem test_meets_ResetMeetsTheInvariants :
    ResetStateOk Params.default
      ∧ ResetStateOk { Params.default with
        resetState := { ResetState.default with cr0 := 0xE0000011, mem := [(2 ^ 40 - 1, 7)] } } := by
  unfold ResetStateOk
  decide

theorem test_meets_DecodeReadsBackEveryEncoding : (Instr.movR32Cr4 2 .edi).wf = true := by decide

theorem test_meets_EveryDecodedInstructionIsItsEncoding :
    decode [0x0F, 0x22, 0xE7, 0x90] = .ok (.movCr4R32 3 .edi) [0x90] := by decide

theorem test_meets_EncodingsOutsideTheTableAreRefused :
    modrmReg 0xD7 = 2 ∧ modrmReg 0xC8 = 1 ∧ modrmReg 0x28 = 5 ∧ modrmReg 0x77 = 6 ∧ modrmReg 0xFF = 7 := by decide

theorem test_meets_StepRunsASuppliedInstruction :
    (protectedState.setRun [.code [0x0F, 0x22, 0xD8, 0x90], .execute]).run = .code [0x0F, 0x22, 0xD8, 0x90] :: [.execute]
      ∧ decode [0x0F, 0x22, 0xD8, 0x90] = .ok (.movCr3R32 3 .eax) [0x90] ∧ (Instr.movCr3R32 3 .eax).wf = true := by
  decide

/-- MOV CR3, EAX stands in the last three bytes of the linear address space. -/
def atTheTop : State := ((protectedState.setEip 0xFFFFFFFD).setMem (words [(0xFFFFFFFC, 0xD8220F90)])).setRun [.execute]

theorem test_meets_StepExecutesTheInstructionAtEip :
    atTheTop.run = .execute :: []
      ∧ (∃ s1, fetchCode ((atTheTop.setRun []).setResult .nothing) = .next ([0x0F, 0x22, 0xD8], s1))
      ∧ decode [0x0F, 0x22, 0xD8] = .ok (.movCr3R32 3 .eax) [] ∧ (Instr.movCr3R32 3 .eax).wf = true := by
  refine ⟨rfl, ?_, by decide, rfl⟩
  obtain ⟨⟨bs, s1⟩, h1, h2⟩ := next_of (o := fetchCode ((atTheTop.setRun []).setResult .nothing))
    (p := fun r => r.1 == [0x0F, 0x22, 0xD8]) (by decide +kernel)
  exact ⟨s1, by rw [h1, show bs = _ from eq_of_beq h2]⟩

theorem test_meets_UnpagedFetchGivesTheBytesAtEip :
    atTheTop.pg = false ∧ atTheTop.eip.toNat + instrLength (.movCr3R32 3 .eax) ≤ 2 ^ 32
      ∧ (∀ k < instrLength (.movCr3R32 3 .eax), kindAt atTheTop.params (atTheTop.eip.toNat + k) = some .ram)
      ∧ bytesAt atTheTop.mem atTheTop.eip.toNat (instrLength (.movCr3R32 3 .eax)) = encode (.movCr3R32 3 .eax) := by
  decide +kernel

theorem test_meets_WithFetchWordRunsTheTableWord : decodeTableWord 24 0x0F22C0 = some (.movCr0R32 3 .eax) := by decide

theorem test_meets_AnExhaustedRunHasNoStep : State.reset.run = [] := rfl

/-- EAX holds a value of CR0 that turns paging on. -/
def enabling : State := writeGpr .eax 0xE0000011 protectedState

theorem test_meets_MovToCr0Completes :
    ¬ Cr0WriteFaults (readGpr enabling .eax) enabling
      ∧ SameBitsBut [0, 16, 31] enabling.cr0 (readGpr enabling .eax) := by
  unfold Cr0WriteFaults SameBitsBut
  decide

theorem test_meets_MovToCr3LoadsCr3OrFaults :
    protectedState.cpl = 0 ∧ ({ protectedState with cpl := 1 } : State).cpl ≠ 0 := by decide

theorem test_meets_MovToCr4Completes :
    ¬ Cr4WriteFaults (readGpr (writeGpr .eax 0x20030 longState) .eax) (writeGpr .eax 0x20030 longState)
      ∧ SameBitsBut (cr4NamedBits longState.params.features) longState.cr4 0x20030 := by
  unfold Cr4WriteFaults SameBitsBut
  decide

theorem test_meets_MovFromControlRegistersWritesTheRegister : longState.cpl = 0 := rfl

/-- WRMSR sets LME. -/
def settingLme : State := withMsr 0 0x100 protectedState

theorem test_meets_WrmsrWritesLme :
    readGpr settingLme .ecx = 0xC0000080
      ∧ ¬ EferWriteFaults (readGpr settingLme .edx ++ readGpr settingLme .eax) settingLme
      ∧ SameBitsBut [8, 10] settingLme.efer (readGpr settingLme .edx ++ readGpr settingLme .eax)
      ∧ (readGpr settingLme .eax).getLsbD 10 = settingLme.lma := by
  unfold EferWriteFaults SameBitsBut
  decide

theorem test_meets_RdmsrReturnsEferWithLma :
    (withMsr 0 0 longState).cpl = 0 ∧ readGpr (withMsr 0 0 longState) .ecx = 0xC0000080
      ∧ (withMsr 0 0 longState).params.features.efer = true := by decide

/-- A processor without IA32_EFER. -/
def withoutEfer (s : State) : State :=
  { s with params := { s.params with features := { s.params.features with efer := false } } }

/-- 30_encoding R97: a register number the processor does not implement. -/
theorem test_efer_not_implemented :
    isGP0 (exec .wrmsr (withoutEfer settingLme)) = true ∧ isGP0 (exec .rdmsr (withoutEfer settingLme)) = true := by
  decide

theorem test_meets_TheSourcesThreeForbiddenChangesFault :
    (readGpr (withMsr 0 0 longState) .ecx = 0xC0000080 ∧ (withMsr 0 0 longState).params.features.efer = true
        ∧ (withMsr 0 0 longState).pg = true
        ∧ (readGpr (withMsr 0 0 longState) .eax).getLsbD 8 ≠ (withMsr 0 0 longState).efer.getLsbD 8)
      ∧ ((enabling.setEfer 0x100).pg = false ∧ (readGpr (enabling.setEfer 0x100) .eax).getLsbD 31 = true
        ∧ (enabling.setEfer 0x100).pae = false ∧ (enabling.setEfer 0x100).lme = true)
      ∧ (longState.pg = true ∧ longState.lme = true ∧ longState.pae = true
        ∧ (readGpr longState .ebx).getLsbD 5 = false) := by decide

theorem test_meets_TheAddedForbiddenChangesFault :
    ((0x80000000 : Word).getLsbD 31 = true ∧ (0x80000000 : Word).getLsbD 0 = false)
      ∧ ((longState.setCr4 0x20020).pg = true ∧ (readGpr longState .eax).getLsbD 31 = false
        ∧ (longState.setCr4 0x20020).pcide = true)
      ∧ (protectedState.params.features.pcide = true ∧ protectedState.pcide = false
        ∧ (0x20000 : Word).getLsbD 17 = true ∧ protectedState.lma = false)
      ∧ (longState.lma = true ∧ (longState.setCr3 0x800).cr3.extractLsb' 0 12 ≠ 0)
      ∧ (readGpr (withoutEfer settingLme) .ecx = 0xC0000080 ∧ (withoutEfer settingLme).params.features.efer = false) := by
  decide

theorem test_meets_EveryInstructionNeedsPrivilegeLevelZero : ({ State.reset with cpl := 3 } : State).cpl ≠ 0 := by
  decide

theorem test_meets_InstructionsFaultWithGeneralProtectionOnly :
    ∃ left, exec .rdmsr { State.reset with cpl := 3 } = .fault (.generalProtection 0 left) := gp_of (by decide)

theorem test_meets_UnnamedBitsAndRegistersAreRefused :
    (¬ Cr0WriteFaults 0x60000013 protectedState ∧ ¬ SameBitsBut [0, 16, 31] protectedState.cr0 (0x60000013 : Word))
      ∧ (¬ Cr4WriteFaults 0x800000 protectedState
        ∧ ¬ SameBitsBut (cr4NamedBits protectedState.params.features) protectedState.cr4 (0x800000 : Word))
      ∧ (readGpr (withMsr 0 0x800 protectedState) .ecx = 0xC0000080
        ∧ ¬ EferWriteFaults 0x800 (withMsr 0 0x800 protectedState)
        ∧ ¬ (SameBitsBut [8, 10] (withMsr 0 0x800 protectedState).efer (0x800 : MsrWord)
          ∧ (0x800 : Word).getLsbD 10 = (withMsr 0 0x800 protectedState).lma))
      ∧ (readGpr (withMsr 0 0x100 longState) .eax = 0x100 ∧ ¬ EferWriteFaults 0x100 (withMsr 0 0x100 longState)
        ∧ (0x100 : Word).getLsbD 10 ≠ (withMsr 0 0x100 longState).lma)
      ∧ (protectedState.cpl = 0 ∧ readGpr protectedState .ecx ≠ 0xC0000080) := by
  refine ⟨?_, ?_, ?_, ?_, ?_⟩
  · unfold Cr0WriteFaults SameBitsBut
    decide
  · unfold Cr4WriteFaults SameBitsBut
    decide
  · unfold EferWriteFaults SameBitsBut
    decide
  · unfold EferWriteFaults
    decide
  · decide

theorem test_meets_InstructionsTouchOnlyTheirRegisters : ∃ t, exec (.movCr0R32 3 .eax) enabling = .next t :=
  have ⟨t, h, _⟩ := next_of (p := fun _ => true) (by decide)
  ⟨t, h⟩

theorem test_meets_PagingModeIsSelectedByPgPaeAndLme :
    State.reset.params.features.pae = true ∧ State.reset.params.features.efer = true
      ∧ State.reset.cr0.getLsbD 31 = false
      ∧ ((paged []).cr0.getLsbD 31 = true ∧ (paged []).cr4.getLsbD 5 = false)
      ∧ (((paged []).setCr4 0x20).cr4.getLsbD 5 = true ∧ (paged []).efer.getLsbD 8 = false)
      ∧ (longState.cr0.getLsbD 31 = true ∧ longState.cr4.getLsbD 5 = true ∧ longState.efer.getLsbD 8 = true) := by
  decide

theorem test_meets_LmaIsOneExactlyInFourLevelPaging : LongModeInv longState ∧ longState.lma = true := by
  unfold LongModeInv
  decide

theorem test_meets_ClearingPgDisablesPaging :
    longState.cpl = 0 ∧ longState.pcide = false
      ∧ readGpr (writeGpr .eax 0x60000011 longState) .eax = longState.cr0 &&& 0x7FFFFFFF := by decide

theorem test_meets_ChangingPaeSwitchesBetween32BitAndPae :
    (paged []).cpl = 0 ∧ (paged []).params.features.pae = true ∧ (paged []).pg = true ∧ (paged []).lme = false
      ∧ readGpr (writeGpr .eax 0x20 (paged [])) .eax = (paged []).cr4 ^^^ 0x20 ∧ pagingMode (paged []) = .paging32
      ∧ pagingMode ((paged []).setCr4 0x20) = .pagingPae := by decide

theorem test_meets_NoStepLeadsDirectlyIntoOrOutOfFourLevelPaging :
    (ModeInv longState ∧ pagingMode longState = .paging4Level
        ∧ ∃ t, step (longState.setRun [.movToCr0 0x60000011]) = .next t ∧ (pagingMode t == .noPaging) = true)
      ∧ ∃ t, step ((longState.setCr0 0x60000011).setRun [.movToCr0 0xE0000011]) = .next t
        ∧ (pagingMode t == .paging4Level) = true :=
  ⟨⟨⟨by unfold ProtectionInv; decide, by unfold LongModeInv; decide⟩, by decide, next_of (by decide)⟩,
    next_of (by decide)⟩

theorem inv_paged (l : List Op) : Inv ((paged absent4K).setRun l) :=
  show Inv (paged absent4K) from
    ⟨⟨by unfold ProtectionInv; decide, by unfold LongModeInv; decide⟩, ⟨by decide, by decide +kernel⟩,
      fun _ h => absurd h List.not_mem_nil⟩

theorem test_meets_StepKeepsTheInvariants :
    Inv ((paged absent4K).setRun [.movToCr3 0x2000])
      ∧ ∃ t, step ((paged absent4K).setRun [.movToCr3 0x2000]) = .next t ∧ (t.cr3 == 0x2000) = true :=
  ⟨inv_paged _, next_of (by decide)⟩

theorem test_meets_ExceptionsLeaveTheInvariants :
    Inv ((paged absent4K).setRun [.load 0x403025 1 true])
      ∧ (∃ left, step ((paged absent4K).setRun [.load 0x403025 1 true]) = .fault (.pageFault 0x403025 0 left))
      ∧ ∃ left, step ((paged absent4K).setRun [.movToCr0 0x80000000]) = .fault (.generalProtection 0 left) :=
  ⟨inv_paged _, pf_of (by decide +kernel), gp_of (by decide)⟩

theorem test_meets_NoStepChangesPrivilegeFlagsOrParameters :
    ∃ t, step (protectedState.setRun [.movToCr3 0xFFFFFFFF]) = .next t ∧ (t.cr3 == 0xFFFFFFFF) = true :=
  next_of (by decide)

/-- A page fault of a Fetch, and of the first look of the fetch at EIP; #GP(0) of an operation, and of an instruction
fetched at EIP. -/
theorem test_meets_ExceptionsLeaveRegistersAndMemory :
    (∃ left, step ((user (paged absent4K)).setRun [.fetch 0x403FFF 1 true]) = .fault (.pageFault 0x403FFF 4 left))
      ∧ (∃ left, step (((paged absent4K).setEip 0x403FFF).setRun [.execute]) = .fault (.pageFault 0x403FFF 0 left))
      ∧ (∃ left, step ((paged absent4K).setRun [.movToCr0 0x80000000]) = .fault (.generalProtection 0 left))
      ∧ ∃ left, step (user atTheTop) = .fault (.generalProtection 0 left) :=
  ⟨pf_of (by decide +kernel), pf_of (by decide +kernel), gp_of (by decide), gp_of (by decide +kernel)⟩

theorem test_meets_UnpagedTranslationIsTheIdentity : protectedState.cr0.getLsbD 31 = false := by decide

theorem settled_of_nil {s : State} (h : s.walked = []) : Settled s := by
  simp [Settled, h]

theorem test_meets_TranslationFollowsTheIterativeProcedure :
    pagingMode (paged page4K) = .paging32 ∧ Settled (paged page4K)
      ∧ (∃ pa fl t, translateLinear 0x403FFF ⟨.read, .user, true⟩ (paged page4K) = .next (.mapped pa fl, t)
        ∧ pa.toNat = 0x5FFF)
      ∧ Settled (paged absent4K)
      ∧ ∃ fl t, translateLinear 0x403FFF ⟨.read, .user, true⟩ (paged absent4K) = .next (.pageFault 4 fl, t) :=
  ⟨by decide, settled_of_nil rfl, mapped_of (by decide +kernel), settled_of_nil rfl, fault_of (by decide +kernel)⟩

/-- The seven clauses: P = 0 in the PDE; a reserved bit in a 4-MByte PDE, and a supervisor 4-MByte page reached by a user
access; a reserved bit in a PDE that references a page table, in an implementation that has one; P = 0 in the PTE, a
reserved bit in the PTE of an implementation without the memory-type flag, and a supervisor PTE reached by a user access. -/
theorem test_meets_NotPresentReservedAndForbiddenEntriesPageFault :
    (pagingMode (paged page4K) = .paging32 ∧ Settled (paged page4K)
        ∧ EntryInRam (paged page4K) (pdeAddr 0x1000 0x403025).toNat)
      ∧ (wordAt (paged [(0x1004, 0x2006)]).mem (pdeAddr 0x1000 0x403025).toNat).getLsbD 0 = false
      ∧ (maps4M ((paged []).setCr4 0x10) 0x1200083 = true ∧ (0x1200083 : Word).getLsbD 0 = true
        ∧ hasReserved (reservedPde4M Params.default) 0x1200083 = true)
      ∧ (maps4M ((paged []).setCr4 0x10) 0xC00083 = true
        ∧ hasReserved (reservedPde4M Params.default) 0xC00083 = false
        ∧ accessPermitted ((paged []).setCr4 0x10) ⟨.read, .user, true⟩ 0xC00083 none = false)
      ∧ (maps4M (paged []) 0x2047 = false
        ∧ hasReserved (reservedPdeTable { Params.default with reservedBits := ⟨0x40, 0x200000, 0⟩ }) 0x2047 = true)
      ∧ (maps4M (paged []) 0x2007 = false ∧ hasReserved (reservedPdeTable Params.default) 0x2007 = false
        ∧ EntryInRam (paged page4K) (pteAddr 0x2007 0x403025).toNat
        ∧ (wordAt (paged absent4K).mem (pteAddr 0x2007 0x403025).toNat).getLsbD 0 = false)
      ∧ ((0x5087 : Word).getLsbD 0 = true
        ∧ hasReserved (reservedPte { Params.default with patSupported := false }) 0x5087 = true)
      ∧ (hasReserved (reservedPte Params.default) 0x5003 = false
        ∧ accessPermitted (paged []) ⟨.read, .user, true⟩ 0x2007 (some 0x5003) = false) :=
  ⟨⟨by decide, settled_of_nil rfl, by unfold EntryInRam; decide +kernel⟩, by decide +kernel, by decide +kernel,
    by decide +kernel, by decide +kernel, by unfold EntryInRam; decide +kernel, by decide +kernel, by decide +kernel⟩

theorem test_meets_AFailedTranslationRaisesThePageFault :
    1 ≤ [1, 2, 3, (4 : Byte)].length ∧ [1, 2, 3, (4 : Byte)].length ≤ roomInPage 0x403FFC
      ∧ ∃ fl t, translateLinear 0x403FFC (accessAt (paged absent4K) .write true) (paged absent4K)
        = .next (.pageFault 2 fl, t) :=
  ⟨by decide, by decide, fault_of (by decide +kernel)⟩

theorem test_meets_UserModeReachesUserPagesOnly :
    pagingMode (paged page4K) = .paging32 ∧ (paged page4K).params.accessRights = .standard
      ∧ ∃ pa fl t, translateLinear 0x403000 ⟨.write, .user, true⟩ (paged page4K) = .next (.mapped pa fl, t)
        ∧ pa.toNat = 0x5000 :=
  ⟨by decide, rfl, mapped_of (by decide +kernel)⟩

/-- WP = 1 with a writable page, SMEP = 1 with a supervisor page, SMAP = 1 with AC = 1. -/
theorem test_meets_SupervisorModeObeysWpSmepAndSmap :
    (pagingMode ((paged page4K).setCr0 0xE0010011) = .paging32 ∧ (paged page4K).params.accessRights = .standard
        ∧ ∃ pa fl t, translateLinear 0x403000 ⟨.write, .supervisor, true⟩ ((paged page4K).setCr0 0xE0010011)
          = .next (.mapped pa fl, t) ∧ pa.toNat = 0x5000)
      ∧ (pagingMode ((paged page4M).setCr4 0x100010) = .paging32
        ∧ ∃ pa fl t, translateLinear 0xC01ABC ⟨.fetch, .supervisor, true⟩ ((paged page4M).setCr4 0x100010)
          = .next (.mapped pa fl, t) ∧ pa.toNat = 0xC01ABC)
      ∧ (pagingMode (({ paged page4K with eflags := 0x40002 } : State).setCr4 0x200000) = .paging32
        ∧ ∃ pa fl t, translateLinear 0x403000 ⟨.read, .supervisor, true⟩
            (({ paged page4K with eflags := 0x40002 } : State).setCr4 0x200000)
          = .next (.mapped pa fl, t) ∧ pa.toNat = 0x5000) :=
  ⟨⟨by decide, rfl, mapped_of (by decide +kernel)⟩, ⟨by decide, mapped_of (by decide +kernel)⟩,
    ⟨by decide, mapped_of (by decide +kernel)⟩⟩

theorem test_meets_SamePageTranslatesToSameFrame :
    (0x403000 : Word).toNat / 4096 = (0x403FFF : Word).toNat / 4096
      ∧ (∃ pa fl t, translateLinear 0x403000 ⟨.read, .user, true⟩ (paged page4K) = .next (.mapped pa fl, t)
        ∧ pa.toNat = 0x5000)
      ∧ ∃ pa fl t, translateLinear 0x403FFF ⟨.read, .user, true⟩ (paged page4K) = .next (.mapped pa fl, t)
        ∧ pa.toNat = 0x5FFF :=
  ⟨by decide, mapped_of (by decide +kernel), mapped_of (by decide +kernel)⟩

/-- The page above 4 GBytes of 43_32bit_paging R196, at its first byte. -/
theorem test_meets_OnlyFourMBytePagesLieAboveFourGBytes :
    ∃ pa fl t, translateLinear 0x00400000 ⟨.read, .user, true⟩ ((paged [(0x1004, 0x004020E7)]).setCr4 0x10)
      = .next (.mapped pa fl, t) ∧ pa.toNat = 0x100400000 := mapped_of (by decide +kernel)

/-- The last byte of the 40-bit space. -/
theorem test_meets_TranslatedAddressesFitTheImplementation :
    Params.default.physBits = 40
      ∧ ∃ pa fl t, translateLinear 0xFFFFFFFF ⟨.read, .user, true⟩ ((paged [(0x1FFC, 0xFFDFE0E7)]).setCr4 0x10)
        = .next (.mapped pa fl, t) ∧ pa.toNat = 2 ^ 40 - 1 :=
  ⟨rfl, mapped_of (by decide +kernel)⟩

theorem test_meets_LoadThroughAFourKBytePage :
    pagingMode (paged page4K) = .paging32 ∧ Settled (paged page4K) ∧ (paged page4K).params.setsAccessedDirty = true
      ∧ 1 ≤ 4 ∧ 4 ≤ roomInPage 0x403FFC ∧ 0x1004 = (pdeAddr (paged page4K).cr3 0x403FFC).toNat
      ∧ EntryInRam (paged page4K) 0x1004 ∧ 0x2007 = wordAt (paged page4K).mem 0x1004 ∧ entryP 0x2007 = true
      ∧ maps4M (paged page4K) 0x2007 = false ∧ hasReserved (reservedPdeTable (paged page4K).params) 0x2007 = false
      ∧ 0x200C = (pteAddr 0x2007 0x403FFC).toNat
      ∧ EntryInRam (paged page4K) 0x200C ∧ 0x5007 = wordAt (paged page4K).mem 0x200C ∧ entryP 0x5007 = true
      ∧ hasReserved (reservedPte (paged page4K).params) 0x5007 = false
      ∧ accessPermitted (paged page4K) (accessAt (paged page4K) .read true) 0x2007 (some 0x5007) = true
      ∧ 0x5FFC = (page4KAddr 0x5007 0x403FFC).toNat
      ∧ ∀ i < 4, kindAt (paged page4K).params (0x5FFC + i) = some .ram :=
  ⟨by decide, settled_of_nil rfl, by decide +kernel, by decide, by decide, by decide +kernel,
    by unfold EntryInRam; decide +kernel, by decide +kernel, by decide, by decide, by decide +kernel, by decide +kernel,
    by unfold EntryInRam; decide +kernel, by decide +kernel, by decide, by decide +kernel, by decide +kernel,
    by decide +kernel, by decide +kernel⟩

/-- 4-MByte pages on. -/
def big : State := (paged page4M).setCr4 0x10

/-- The last four bytes of a 4-MByte page. -/
theorem test_meets_StoreThroughAFourMBytePage :
    pagingMode big = .paging32 ∧ Settled big ∧ big.params.setsAccessedDirty = true
      ∧ 1 ≤ [1, 2, 3, (4 : Byte)].length ∧ [1, 2, 3, (4 : Byte)].length ≤ roomInPage 0xFFFFFC
      ∧ 0x100C = (pdeAddr big.cr3 0xFFFFFC).toNat ∧ EntryInRam big 0x100C ∧ 0xC00083 = wordAt big.mem 0x100C
      ∧ entryP 0xC00083 = true ∧ maps4M big 0xC00083 = true
      ∧ hasReserved (reservedPde4M big.params) 0xC00083 = false
      ∧ accessPermitted big (accessAt big .write true) 0xC00083 none = true
      ∧ 0xFFFFFC = (page4MAddr 0xC00083 0xFFFFFC).toNat
      ∧ ∀ i < [1, 2, 3, (4 : Byte)].length, kindAt big.params (0xFFFFFC + i) = some .ram :=
  ⟨by decide, settled_of_nil rfl, by decide +kernel, by decide, by decide, by decide +kernel,
    by unfold EntryInRam; decide +kernel, by decide +kernel, by decide, by decide +kernel, by decide +kernel,
    by decide +kernel, by decide +kernel, by decide +kernel⟩

theorem test_meets_UnpagedFetchCompletes :
    protectedState.pg = false ∧ 1 ≤ 3 ∧ (0xFFFFFFFD : Word).toNat + 3 ≤ 2 ^ 32
      ∧ ∀ i < 3, kindAt protectedState.params ((0xFFFFFFFD : Word).toNat + i) = some .ram := by decide +kernel

theorem test_meets_ReadingSetsAccessedFlagsOnly :
    (∃ t, perform (accessOp .read 0x403FFC [0, 0, 0, 0] true) (user (paged page4K)) = .next t
        ∧ (wordAt t.mem 0x200C == 0x5027) = true)
      ∧ (paged page4K).params.setsAccessedDirty = true
      ∧ ∃ t, perform (accessOp .fetch 0x403000 [0, 0] true) (paged page4K) = .next t
        ∧ (wordAt t.mem 0x200C == 0x5027) = true :=
  ⟨next_of (by decide +kernel), rfl, next_of (by decide +kernel)⟩

theorem test_meets_StoringChangesItsBytesAndFlagsOnly :
    (∃ r, beginAccess 0x403025 2 (accessAt (paged page4K) .write true) (paged page4K) = .next r
        ∧ (r.1 == [⟨0x5025, 2⟩]) = true)
      ∧ ∃ t, perform (.store 0x403025 [1, 2] true) (paged page4K) = .next t ∧ (byteAt t.mem 0x5026 == 2) = true :=
  ⟨next_of (by decide +kernel), next_of (by decide +kernel)⟩

/-- An implementation that writes no flags. -/
def withoutFlags (s : State) : State := { s with params := { s.params with setsAccessedDirty := false } }

/-- A Load, a Fetch and a Store that complete, and a page fault of each. -/
theorem test_meets_WithoutFlagUpdatesWalksWriteNothing :
    (withoutFlags (paged page4K)).params.setsAccessedDirty = false
      ∧ (∃ t, perform (accessOp .read 0x403FFC [0] true) (withoutFlags (paged page4K)) = .next t
        ∧ (wordAt t.mem 0x200C == 0x5007) = true)
      ∧ (∃ t, perform (accessOp .fetch 0x403FFC [0] true) (withoutFlags (paged page4K)) = .next t
        ∧ (wordAt t.mem 0x200C == 0x5007) = true)
      ∧ (∃ t, perform (.store 0x403FFC [1] true) (withoutFlags (paged page4K)) = .next t
        ∧ (wordAt t.mem 0x200C == 0x5007 && byteAt t.mem 0x5FFC == 1) = true)
      ∧ (∃ left, perform (accessOp .read 0x403FFC [0] true) (user (withoutFlags (paged absent4K)))
        = .fault (.pageFault 0x403FFC 4 left))
      ∧ (∃ left, perform (accessOp .fetch 0x403FFC [0] true) (user (withoutFlags (paged absent4K)))
        = .fault (.pageFault 0x403FFC 4 left))
      ∧ ∃ left, perform (accessOp .write 0x403FFC [1] true) (user (withoutFlags (paged absent4K)))
        = .fault (.pageFault 0x403FFC 6 left) :=
  ⟨rfl, next_of (by decide +kernel), next_of (by decide +kernel), next_of (by decide +kernel), pf_of (by decide +kernel),
    pf_of (by decide +kernel), pf_of (by decide +kernel)⟩

/-- Vector X2, and the same access with a first page that is not present. The general clause is met by the second clause's
pieces. -/
theorem test_meets_ACrossingAccessIsAllOrNothing :
    roomInPage 0x403FFF < 2 ∧ (0x403FFF : Word).toNat + 2 ≤ 2 ^ 32
      ∧ (∃ fl s1, translateLinear 0x403FFF (accessAt (paged absent4K) .fetch true) (paged absent4K)
        = .next (.pageFault 0 fl, s1))
      ∧ (0x404000 : Word) = 0x403FFF + BitVec.ofNat 32 (roomInPage 0x403FFF)
      ∧ pieces 0x403FFF 2 = [⟨0x403FFF, 1⟩] ++ ⟨0x404000, 1⟩ :: []
      ∧ ∃ pa fl s1, translateLinear 0x403FFF ⟨.write, .supervisor, true⟩ (paged ((0x2010, 0x9006) :: page4K))
          = .next (.mapped pa fl, s1)
        ∧ ∃ fl2 s2, translateLinear 0x404000 ⟨.write, .supervisor, true⟩ s1 = .next (.pageFault 2 fl2, s2) := by
  refine ⟨by decide, by decide, fault_of (by decide +kernel), by decide, by decide, ?_⟩
  obtain ⟨⟨r, s1⟩, h1, h2⟩ := next_of
    (o := translateLinear 0x403FFF ⟨.write, .supervisor, true⟩ (paged ((0x2010, 0x9006) :: page4K)))
    (p := fun r => (match r.1 with | .mapped _ _ => true | .pageFault _ _ => false)
      && faultsWith 0x404000 ⟨.write, .supervisor, true⟩ r.2 2) (by decide +kernel)
  rw [Bool.and_eq_true] at h2
  cases r with
  | mapped pa fl => exact ⟨pa, fl, s1, h1, fault_of h2.2⟩
  | pageFault c fl => cases h2.1

theorem test_meets_AccessesTheSpecRefuses :
    1 ≤ [(1 : Byte)].length
      ∧ ((0xFFFFFFFF : Word).toNat + 1 ≤ 2 ^ 32 ∧ pagingMode ((paged []).setCr4 0x20) = .pagingPae)
      ∧ pagingMode longState = .paging4Level ∧ (2 ^ 32 < (0xFFFFFFFF : Word).toNat + 2) := by decide

/-- The page table entry of page4K has been changed by a store since a walk read it: frame 5000H was, 9000H is. -/
def stale : State := (paged [(0x1004, 0x2007), (0x200C, 0x9007)]).setWalked [(0x200C, 0x5007), (0x1004, 0x2007)]

theorem test_meets_AStaleTranslationIsTheOldOrTheNew :
    pagingMode stale = .paging32 ∧ 0x2007 = wordAt stale.mem (pdeAddr stale.cr3 0x403025).toNat
      ∧ (∀ v, ((pdeAddr stale.cr3 0x403025).toNat, v) ∈ stale.walked → v = 0x2007) ∧ maps4M stale 0x2007 = false
      ∧ 0x9007 = wordAt stale.mem (pteAddr 0x2007 0x403025).toNat
      ∧ (∀ v, ((pteAddr 0x2007 0x403025).toNat, v) ∈ stale.walked → v = 0x5007)
      ∧ (pteAddr 0x2007 0x403025).toNat ≠ (pdeAddr stale.cr3 0x403025).toNat
      ∧ ∃ pa fl t, translateLinear 0x403025 ⟨.read, .user, true⟩ stale = .next (.mapped pa fl, t) := by
  have e1 : (pdeAddr stale.cr3 0x403025).toNat = 0x1004 := by decide
  have e2 : (pteAddr 0x2007 0x403025).toNat = 0x200C := by decide
  refine ⟨by decide, by decide +kernel, ?_, by decide, by decide +kernel, ?_, by decide, ?_⟩
  · rw [e1]; intro v hv; simpa [stale, State.setWalked] using hv
  · rw [e2]; intro v hv; simpa [stale, State.setWalked] using hv
  · have r1 : readEntry (pdeAddr stale.cr3 0x403025) stale = .next (⟨0x1004, 0x2007, true⟩, stale) := by rfl
    have ck : checkReads stale.params (pteAddr 0x2007 0x403025).toNat 4 = .next () := by rfl
    have sv : staleValues stale.walked (pteAddr 0x2007 0x403025).toNat (wordAt stale.mem (pteAddr 0x2007 0x403025).toNat)
        = [0x5007] := by decide +kernel
    have now : wordAt stale.mem (pteAddr 0x2007 0x403025).toNat = 0x9007 := by decide +kernel
    have r2 : ∃ v f t, readEntry (pteAddr 0x2007 0x403025) stale = .next (⟨0x200C, v, f⟩, t)
        ∧ (v = 0x9007 ∨ v = 0x5007) := by
      unfold readEntry
      rw [ck]
      simp only [andThen, sv]
      rw [now]
      cases h : (Config.draw stale.draws).getLsbD 0
      · exact ⟨0x9007, true, _, by simp only [chooseValue, drawWord, h]; rfl, .inl rfl⟩
      · exact ⟨0x5007, false, _, by simp only [chooseValue, drawWord, h]; rfl, .inr rfl⟩
    obtain ⟨v, f, t, r2, hv⟩ := r2
    have r : translateLinear 0x403025 ⟨.read, .user, true⟩ stale
        = .next (finish4K stale 0x403025 ⟨.read, .user, true⟩ ⟨0x1004, 0x2007, true⟩ ⟨0x200C, v, f⟩, t) := by
      have m : pagingMode stale = .paging32 := by decide
      unfold translateLinear translate32
      rw [m, r1]
      simp only [andThen, show entryP 0x2007 = true from rfl, show maps4M stale 0x2007 = false from by decide]
      rw [r2]
      rfl
    rw [r]
    unfold finish4K
    have c1 : entryP v = true := by rcases hv with rfl | rfl <;> rfl
    have c2 : hasReserved (reservedPte stale.params) v = false := by rcases hv with rfl | rfl <;> decide
    have c3 : accessPermitted stale ⟨.read, .user, true⟩ 0x2007 (some v) = true := by
      rcases hv with rfl | rfl <;> decide
    simp only [c1, c2, c3]
    exact ⟨_, _, _, rfl⟩

theorem test_meets_ModeWritesMakeTranslationsCertain :
    (∃ t, perform (.movToCr3 0x2000) stale = .next t ∧ (t.cr3 == 0x2000) = true)
      ∧ ((∃ t, perform (.movToCr0 0xE0010011) stale = .next t ∧ (t.wp) = true)
        ∧ (0xE0010011 : Word).getLsbD 16 ≠ stale.cr0.getLsbD 16)
      ∧ ((∃ t, perform (.movToCr4 0x200000) stale = .next t ∧ (t.smap) = true)
        ∧ (0x200000 : Word).getLsbD 21 ≠ stale.cr4.getLsbD 21) :=
  ⟨next_of (by decide), ⟨next_of (by decide), by decide⟩, next_of (by decide), by decide⟩

theorem test_meets_OnlyStoresMakeTranslationsUncertain :
    (∀ la v explicit, Op.load 0x403025 1 true ≠ .store la v explicit)
      ∧ ((paged page4K).setRun [.load 0x403025 1 true]).run = .load 0x403025 1 true :: []
      ∧ WalkedInv ((paged page4K).setRun [.load 0x403025 1 true])
      ∧ Settled ((paged page4K).setRun [.load 0x403025 1 true])
      ∧ ∃ t, step ((paged page4K).setRun [.load 0x403025 1 true]) = .next t
        ∧ (t.walked == [(0x200C, 0x5027), (0x1004, 0x2027)]) = true :=
  ⟨by simp, rfl, fun _ h => absurd h List.not_mem_nil, settled_of_nil rfl, next_of (by decide +kernel)⟩

theorem test_meets_PhysicalWritesReadBack :
    MemoryInv protectedState ∧ ∃ t, physWrite (2 ^ 40 - 2) [1, 2] protectedState = .next t
      ∧ (byteAt t.mem (2 ^ 40 - 1) == 2) = true :=
  ⟨⟨rfl, fun _ h => absurd h List.not_mem_nil⟩, next_of (by decide +kernel)⟩

theorem test_meets_VmxTransitionsAreRefused :
    (protectedState.setRun [.vmxTransition]).run = .vmxTransition :: [] := rfl

end Sys2Proof.Tests
end

section
/-! PROOFS. The paging mode and the unpaged translation (40_paging_modes R111 to R113). -/

namespace Sys2Proof.Proofs

open Sys2Proof.Machine

/-! ### The bits the mode is selected by, where the implementation has them -/

theorem pg_eq_cr0_bit (s : State) : s.pg = s.cr0.getLsbD 31 := rfl

theorem pae_eq_cr4_bit {s : State} (hpae : s.params.features.pae = true) : s.pae = s.cr4.getLsbD 5 := by
  simp [State.pae, cr4Pae, hpae]

theorem lme_eq_efer_bit {s : State} (hefer : s.params.features.efer = true) : s.lme = s.efer.getLsbD 8 := by
  simp [State.lme, eferLme, hefer]

/-! ### When each mode is used (40_paging_modes R113) -/

theorem pagingMode_eq_noPaging_iff (s : State) : pagingMode s = .noPaging ↔ s.pg = false := by
  unfold pagingMode
  split_ifs <;> simp_all

theorem pagingMode_eq_paging32_iff (s : State) : pagingMode s = .paging32 ↔ s.pg = true ∧ s.pae = false := by
  unfold pagingMode
  split_ifs <;> simp_all

theorem pagingMode_eq_pagingPae_iff (s : State) :
    pagingMode s = .pagingPae ↔ s.pg = true ∧ s.pae = true ∧ s.lme = false := by
  unfold pagingMode
  split_ifs <;> simp_all

theorem pagingMode_eq_paging4Level_iff (s : State) :
    pagingMode s = .paging4Level ↔ s.pg = true ∧ s.pae = true ∧ s.lme = true := by
  unfold pagingMode
  split_ifs <;> simp_all

/-- Settles O24: the four rows of R113, the features making each bit of the state the register's own. -/
theorem pagingModeIsSelectedByPgPaeAndLme : Obligations.PagingModeIsSelectedByPgPaeAndLme := by
  intro s hpae hefer
  rw [pagingMode_eq_noPaging_iff, pagingMode_eq_paging32_iff, pagingMode_eq_pagingPae_iff,
    pagingMode_eq_paging4Level_iff, pg_eq_cr0_bit, pae_eq_cr4_bit hpae, lme_eq_efer_bit hefer]
  exact ⟨id, fun hpg hp => ⟨hpg, hp⟩, fun hpg hp hl => ⟨hpg, hp, hl⟩, fun hpg hp hl => ⟨hpg, hp, hl⟩⟩

/-! ### Translation with paging off (40_paging_modes R111) -/

theorem unpagedAddr_toNat (la : Word) : (unpagedAddr la).toNat = la.toNat :=
  BitVec.toNat_setWidth_of_le (by decide)

theorem translateLinear_unpaged {s : State} (hpg : s.pg = false) (la : Word) (acc : Access) :
    translateLinear la acc s = .next (.mapped (unpagedAddr la) [], s) := by
  have hmode : pagingMode s = .noPaging := (pagingMode_eq_noPaging_iff s).mpr hpg
  simp only [translateLinear, hmode]

/-- Settles O33: the dispatcher's first case (R112), whose address is the linear address zero-extended. -/
theorem unpagedTranslationIsTheIdentity : Obligations.UnpagedTranslationIsTheIdentity :=
  fun la acc _s hpg => ⟨unpagedAddr la, translateLinear_unpaged hpg la acc, unpagedAddr_toNat la⟩

end Sys2Proof.Proofs
end

section
/-! PROOFS. The sizes of paging structures and the number of entries in them (42_hierarchical_overview R160 to R162). -/

namespace Sys2Proof.Proofs

open Sys2Proof.Machine

/-! ### How many bytes each entry has -/

theorem entryBytes_paging32 : (walkParams .paging32).map (·.entryBytes) = some 4 := rfl

theorem entryBytes_pagingPae : (walkParams .pagingPae).map (·.entryBytes) = some 8 := rfl

theorem entryBytes_paging4Level : (walkParams .paging4Level).map (·.entryBytes) = some 8 := rfl

/-! ### How many entries each structure holds: 2 to the width of its index -/

theorem entryCounts_paging32 :
    (walkParams .paging32).map (·.slices.map Slice.entries) = some [1024, 1024] := rfl

theorem entryCounts_pagingPae :
    (walkParams .pagingPae).map (·.slices.map Slice.entries) = some [4, 512, 512] := rfl

theorem entryCounts_paging4Level :
    (walkParams .paging4Level).map (·.slices.map Slice.entries) = some [512, 512, 512, 512] := rfl

/-! ### The size of a structure: its entries, each of the mode's entry size -/

theorem structureSizes_eq_map_entries (p : WalkParams) :
    structureSizes p = (p.slices.map Slice.entries).map (· * p.entryBytes) := by
  rw [List.map_map]
  rfl

/-- A mode's entry size and entry counts determine its structure sizes (42_hierarchical_overview R161). -/
theorem structureSizes_of_entryCounts {mode : PagingMode} {bytes : Nat} {counts : List Nat}
    (hbytes : (walkParams mode).map (·.entryBytes) = some bytes)
    (hcounts : (walkParams mode).map (·.slices.map Slice.entries) = some counts) :
    (walkParams mode).map structureSizes = some (counts.map (· * bytes)) := by
  obtain ⟨p, hp, rfl⟩ := Option.map_eq_some_iff.mp hbytes
  rw [hp, Option.map_some] at hcounts ⊢
  rw [structureSizes_eq_map_entries, Option.some.inj hcounts]

/-- Settles O38: the entry sizes are those of R176's table, and each structure's size is its count times the entry size
(1024 * 4 and 512 * 8 are both 4096, and 4 * 8 is 32). -/
theorem structureSizesAndEntryCounts : Obligations.StructureSizesAndEntryCounts :=
  ⟨entryBytes_paging32, entryBytes_pagingPae, entryBytes_paging4Level,
    structureSizes_of_entryCounts entryBytes_paging32 entryCounts_paging32,
    structureSizes_of_entryCounts entryBytes_pagingPae entryCounts_pagingPae,
    structureSizes_of_entryCounts entryBytes_paging4Level entryCounts_paging4Level,
    entryCounts_paging32, entryCounts_pagingPae, entryCounts_paging4Level⟩

end Sys2Proof.Proofs
end

section
/-! PROOFS. The addresses of 32-bit paging, field by field (43_32bit_paging R193, R196, R198 and R200). -/

namespace Sys2Proof.Proofs

open Sys2Proof.Machine

/-! ### The fields of a concatenation are its parts -/

/-- A field above the low part of a concatenation is a field of the high part. -/
theorem extractLsb'_append_above {h l : Nat} (hi : BitVec h) (lo : BitVec l) (k n : Nat) :
    (hi ++ lo).extractLsb' (l + k) n = hi.extractLsb' k n := by
  rw [BitVec.extractLsb'_append_eq_of_le (Nat.le_add_right l k), Nat.add_sub_cancel_left]

theorem fields_of_three {l m n : Nat} (x : BitVec l) (y : BitVec m) (z : BitVec n) :
    (x ++ y ++ z).extractLsb' (n + m) l = x ∧ (x ++ y ++ z).extractLsb' n m = y
      ∧ (x ++ y ++ z).extractLsb' 0 n = z := by
  refine ⟨?_, ?_, BitVec.extractLsb'_append_eq_right⟩
  · exact (extractLsb'_append_above (x ++ y) z m l).trans BitVec.extractLsb'_append_eq_left
  · exact (extractLsb'_append_above (x ++ y) z 0 m).trans BitVec.extractLsb'_append_eq_right

theorem fields_of_four {l m n p : Nat} (x : BitVec l) (y : BitVec m) (z : BitVec n) (w : BitVec p) :
    (x ++ y ++ z ++ w).extractLsb' (p + (n + m)) l = x ∧ (x ++ y ++ z ++ w).extractLsb' (p + n) m = y
      ∧ (x ++ y ++ z ++ w).extractLsb' p n = z ∧ (x ++ y ++ z ++ w).extractLsb' 0 p = w := by
  obtain ⟨hx, hy, hz⟩ := fields_of_three x y z
  refine ⟨?_, ?_, ?_, BitVec.extractLsb'_append_eq_right⟩
  · exact (extractLsb'_append_above (x ++ y ++ z) w (n + m) l).trans hx
  · exact (extractLsb'_append_above (x ++ y ++ z) w n m).trans hy
  · exact (extractLsb'_append_above (x ++ y ++ z) w 0 n).trans hz

/-! ### The entries of the paging structures (R193, R198): four parts of 8, 20, 10 and 2 bits -/

/-- Settles O34: the fields named by R193 are the parts `pdeAddr` is put together from. -/
theorem pdeAddressBits : Obligations.PdeAddressBits :=
  fun cr3 la => fields_of_four 0 (cr3.extractLsb' 12 20) (la.extractLsb' 22 10) 0

/-- Settles O35: the fields named by R198 are the parts `pteAddr` is put together from. -/
theorem pteAddressBits : Obligations.PteAddressBits :=
  fun pde la => fields_of_four 0 (pde.extractLsb' 12 20) (la.extractLsb' 12 10) 0

/-! ### The final addresses (R200, R196): three parts, the lowest being the offset in the page -/

/-- Settles O36: the fields named by R200 are the parts `page4KAddr` is put together from. -/
theorem fourKBytePageAddressBits : Obligations.FourKBytePageAddressBits :=
  fun pte la => fields_of_three 0 (pte.extractLsb' 12 20) (la.extractLsb' 0 12)

/-- Settles O37: the fields named by R196 are the parts `page4MAddr` is put together from, bits 39:32 among them. -/
theorem fourMBytePageAddressBits : Obligations.FourMBytePageAddressBits :=
  fun pde la => fields_of_three (pde.extractLsb' 13 8) (pde.extractLsb' 22 10) (la.extractLsb' 0 22)

end Sys2Proof.Proofs
end

section
/-! PROOFS. The mode changes that raise #GP(0) with nothing changed (60_exceptions R231). -/

namespace Sys2Proof.Proofs

open Sys2Proof.Machine

/-! ### A register write raises #GP(0) on each of its conditions

Whichever condition holds, the checks before its own raise the same exception, and the refusals come after them all
(60_exceptions R239). -/

theorem movToCr0_of_faults {v : Word} {s : State} (h : Cr0WriteFaults v s) : movToCr0 v s = raiseGP0 s := by
  unfold movToCr0
  obtain hcpl | ⟨(hset : cr0Pg v = true), (hpe : cr0Pe v = false)⟩
    | ⟨hoff, (hset : cr0Pg v = true), hpae, hlme⟩ | ⟨hon, (hclear : cr0Pg v = false), hpcide⟩ := h
  · rw [if_pos hcpl]
  · simp [hset, hpe]
  · simp [hoff, hset, hpae, hlme]
  · simp [hon, hclear, hpcide]

theorem movToCr4_of_faults {v : Word} {s : State} (h : Cr4WriteFaults v s) : movToCr4 v s = raiseGP0 s := by
  unfold movToCr4
  obtain hcpl | ⟨hpg, hlme, hpae, hclear⟩ | ⟨hoff, hset, hmode | hcr3⟩ := h
  · rw [if_pos hcpl]
  · simp [hpg, hlme, hpae, hclear]
  · have hlma : (s.pg && s.lme) = false := by simpa using hmode
    simp [hoff, hset, hlma]
  · have hlow : ¬ s.cr3.extractLsb' 0 12 = 0#12 := hcr3
    simp [hoff, hset, hlow]

theorem wrmsrTo_efer_of_faults {v : MsrWord} {s : State} (h : EferWriteFaults v s) :
    wrmsrTo eferIndex v s = raiseGP0 s := by
  unfold wrmsrTo
  obtain hcpl | hefer | ⟨hpg, hlme⟩ := h
  · rw [if_pos hcpl]
  · simp [hefer]
  · simp [hpg, hlme]

/-! ### The bits the checks look at, in the value written -/

/-- CR4.PAE of a value whose bit 5 is 0, in every implementation. -/
theorem cr4Pae_eq_false {f : Features} {v : Word} (hv : v.getLsbD 5 = false) : cr4Pae f v = false := by
  rw [cr4Pae, hv, Bool.and_false]

/-- LME of the value WRMSR writes is bit 8 of EAX (10_state R37, 30_encoding R94). -/
theorem eferLme_readEdxEax {s : State} (hefer : s.params.features.efer = true) :
    eferLme s.params.features (readEdxEax s) = (readGpr s .eax).getLsbD 8 := by
  rw [eferLme, readEdxEax, hefer, Bool.true_and, BitVec.getLsbD_append]
  rfl

theorem exec_wrmsr_efer {s : State} (hidx : readGpr s .ecx = eferIndex) :
    exec .wrmsr s = wrmsrTo eferIndex (readEdxEax s) s := by
  rw [← hidx]
  rfl

/-- Settles O18: each attempt of R231 is one of the conditions of its register write. -/
theorem theSourcesThreeForbiddenChangesFault : Obligations.TheSourcesThreeForbiddenChangesFault := by
  refine ⟨fun s hidx hefer hpg hne => ?lmeWhilePaging, fun md r s hoff hpg hpae hlme => ?pgWithoutPae,
    fun md r s hpg hlme hpae hclear => ?paeInFourLevel⟩
  case lmeWhilePaging =>
    have hchange : eferLme s.params.features (readEdxEax s) ≠ s.lme := by
      rwa [eferLme_readEdxEax hefer, lme_eq_efer_bit hefer]
    exact (exec_wrmsr_efer hidx).trans (wrmsrTo_efer_of_faults (.inr (.inr ⟨hpg, hchange⟩)))
  case pgWithoutPae => exact movToCr0_of_faults (.inr (.inr (.inl ⟨hoff, hpg, hpae, hlme⟩)))
  case paeInFourLevel => exact movToCr4_of_faults (.inr (.inl ⟨hpg, hlme, hpae, cr4Pae_eq_false hclear⟩))

end Sys2Proof.Proofs
end

section
/-! PROOFS. The decoder and the encoder are inverse to each other (30_encoding R92 to R98). -/

namespace Sys2Proof.Proofs

/-! ### Register numbers and the fields of a ModR/M byte -/

@[simp] theorem regOfNum_numOfReg (r : Reg) : regOfNum (numOfReg r) = r := by
  cases r <;> rfl

@[simp] theorem numOfReg_regOfNum (n : BitVec 3) : numOfReg (regOfNum n) = n := by
  revert n
  decide

@[simp] theorem modrmMod_modrm (md : BitVec 2) (reg : BitVec 3) (r : Reg) : modrmMod (modrm md reg r) = md :=
  (fields_of_three md reg (numOfReg r)).1

@[simp] theorem modrmReg_modrm (md : BitVec 2) (reg : BitVec 3) (r : Reg) : modrmReg (modrm md reg r) = reg :=
  (fields_of_three md reg (numOfReg r)).2.1

@[simp] theorem modrmRm_modrm (md : BitVec 2) (reg : BitVec 3) (r : Reg) : modrmRm (modrm md reg r) = r := by
  have hlow : (modrm md reg r).extractLsb' 0 3 = numOfReg r := (fields_of_three md reg (numOfReg r)).2.2
  rw [modrmRm, hlow, regOfNum_numOfReg]

/-- A byte is put together from its three fields. -/
theorem modrm_fields (b : Byte) : modrm (modrmMod b) (modrmReg b) (modrmRm b) = b := by
  simp only [modrm, modrmMod, modrmReg, modrmRm, numOfReg_regOfNum]
  rw [BitVec.extractLsb'_append_extractLsb'_eq_extractLsb' (by decide),
    BitVec.extractLsb'_append_extractLsb'_eq_extractLsb' (by decide)]
  exact BitVec.extractLsb'_eq_self

/-! ### Decoding an encoding -/

/-- Settles O3: the opcode bytes select the row, and the fields of the ModR/M byte read back as they were put in. -/
theorem decodeReadsBackEveryEncoding : Obligations.DecodeReadsBackEveryEncoding := by
  intro i rest _
  cases i with
  | wrmsr | rdmsr => rfl
  | movCr0R32 md r | movCr3R32 md r | movCr4R32 md r =>
    change decodeMovToCr (modrm md _ r :: rest) = _
    simp [decodeMovToCr]
  | movR32Cr0 md r | movR32Cr3 md r | movR32Cr4 md r =>
    change decodeMovFromCr (modrm md _ r :: rest) = _
    simp [decodeMovFromCr]

/-! ### Encoding what was decoded -/

/-- A byte with a given register field is the ModR/M byte of its own fields. -/
theorem eq_modrm_of_reg {b : Byte} {n : BitVec 3} (h : modrmReg b = n) : b = modrm (modrmMod b) n (modrmRm b) := by
  rw [← h, modrm_fields]

theorem decodeMovToCr_ok {bytes rest : List Byte} {i : Instr} (h : decodeMovToCr bytes = .ok i rest) :
    0x0F :: 0x22 :: bytes = encode i ++ rest := by
  cases bytes with
  | nil => simp [decodeMovToCr] at h
  | cons b tail =>
    rw [decodeMovToCr] at h
    split_ifs at h with hreg hreg hreg
    all_goals
      obtain ⟨rfl, rfl⟩ := Decoded.ok.inj h
      simp only [encode, ← eq_modrm_of_reg hreg, List.cons_append, List.nil_append]

theorem decodeMovFromCr_ok {bytes rest : List Byte} {i : Instr} (h : decodeMovFromCr bytes = .ok i rest) :
    0x0F :: 0x20 :: bytes = encode i ++ rest := by
  cases bytes with
  | nil => simp [decodeMovFromCr] at h
  | cons b tail =>
    rw [decodeMovFromCr] at h
    split_ifs at h with hreg hreg hreg
    all_goals
      obtain ⟨rfl, rfl⟩ := Decoded.ok.inj h
      simp only [encode, ← eq_modrm_of_reg hreg, List.cons_append, List.nil_append]

theorem decodeTwoByte_ok {bytes rest : List Byte} {i : Instr} (h : decodeTwoByte bytes = .ok i rest) :
    0x0F :: bytes = encode i ++ rest := by
  cases bytes with
  | nil => simp [decodeTwoByte] at h
  | cons b tail =>
    rw [decodeTwoByte] at h
    split_ifs at h with hto hfrom hwr hrd
    · exact hto ▸ decodeMovToCr_ok h
    · exact hfrom ▸ decodeMovFromCr_ok h
    · obtain ⟨rfl, rfl⟩ := Decoded.ok.inj h
      rw [hwr]; rfl
    · obtain ⟨rfl, rfl⟩ := Decoded.ok.inj h
      rw [hrd]; rfl

/-- Settles O4: each branch of the decoder that accepts has read the opcode bytes of its row, and the ModR/M byte is
that of its own fields. -/
theorem everyDecodedInstructionIsItsEncoding : Obligations.EveryDecodedInstructionIsItsEncoding := by
  intro bytes i rest h
  cases bytes with
  | nil => simp [decode] at h
  | cons b tail =>
    rw [decode] at h
    split_ifs at h with hb
    exact hb ▸ decodeTwoByte_ok h

/-! ### The spelled-out words, and what is outside the table -/

/-- Settles O5: each word is the encoding of its instruction, with no byte after it. -/
theorem spelledOutWordsDecode : Obligations.SpelledOutWordsDecode :=
  ⟨decodeReadsBackEveryEncoding (.movCr0R32 3 .eax) [] rfl, decodeReadsBackEveryEncoding (.movCr3R32 3 .eax) [] rfl,
    decodeReadsBackEveryEncoding (.movCr4R32 3 .eax) [] rfl, decodeReadsBackEveryEncoding (.movR32Cr0 3 .eax) [] rfl,
    decodeReadsBackEveryEncoding (.movR32Cr3 3 .eax) [] rfl, decodeReadsBackEveryEncoding (.movR32Cr4 3 .eax) [] rfl,
    decodeReadsBackEveryEncoding .wrmsr [] rfl, decodeReadsBackEveryEncoding .rdmsr [] rfl⟩

/-- A register field other than 0, 2, 3 and 4 names no control register, in either direction of MOV (30_encoding
R97). -/
theorem decode_noSuchControlRegister {b : Byte} {n : BitVec 3} (hreg : modrmReg b = n) (rest : List Byte)
    (hn : n ≠ 0 ∧ n ≠ 3 ∧ n ≠ 4 ∧ n ≠ 2) :
    decode (0x0F :: 0x22 :: b :: rest) = .refused .noSuchControlRegister
      ∧ decode (0x0F :: 0x20 :: b :: rest) = .refused .noSuchControlRegister := by
  obtain ⟨h0, h3, h4, h2⟩ := hn
  constructor
  · change decodeMovToCr (b :: rest) = _
    rw [decodeMovToCr, hreg, if_neg h0, if_neg h3, if_neg h4, if_neg h2]
  · change decodeMovFromCr (b :: rest) = _
    rw [decodeMovFromCr, hreg, if_neg h0, if_neg h3, if_neg h4, if_neg h2]

/-- Settles O6: the register field alone decides, after `0F 22` and `0F 20`; bytes F0 and 66 are refused before
anything else is read. -/
theorem encodingsOutsideTheTableAreRefused : Obligations.EncodingsOutsideTheTableAreRefused := by
  refine fun b rest => ⟨fun hreg => ⟨?toCr, ?fromCr⟩, fun hreg => ?noSuch, rfl, rfl⟩
  case toCr =>
    change decodeMovToCr (b :: rest) = _
    simp [decodeMovToCr, hreg]
  case fromCr =>
    change decodeMovFromCr (b :: rest) = _
    simp [decodeMovFromCr, hreg]
  case noSuch =>
    obtain hreg | hreg | hreg | hreg := hreg <;> exact decode_noSuchControlRegister hreg rest (by decide)

end Sys2Proof.Proofs
end

section
/-! PROOFS. What every step does to the paging mode (41_mode_enabling R139, R142 and R147). -/

namespace Sys2Proof.Machine

open Sys2Proof.Proofs

/-! ### The paging mode depends on PG, PAE and LME alone, so on registers alone -/

theorem pagingMode_congr {s t : State} (hpg : t.pg = s.pg) (hpae : t.pae = s.pae) (hlme : t.lme = s.lme) :
    pagingMode t = pagingMode s := by
  simp only [pagingMode, hpg, hpae, hlme]

theorem SameRegisters.pg_eq {s t : State} (h : SameRegisters s t) : t.pg = s.pg := by
  obtain ⟨hcr0, -⟩ := h
  rw [State.pg, hcr0, State.pg]

theorem SameRegisters.pe_eq {s t : State} (h : SameRegisters s t) : t.pe = s.pe := by
  obtain ⟨hcr0, -⟩ := h
  rw [State.pe, hcr0, State.pe]

theorem SameRegisters.pae_eq {s t : State} (h : SameRegisters s t) : t.pae = s.pae := by
  obtain ⟨-, -, hcr4, -, -, -, -, -, hparams⟩ := h
  rw [State.pae, hcr4, hparams, State.pae]

theorem SameRegisters.lme_eq {s t : State} (h : SameRegisters s t) : t.lme = s.lme := by
  obtain ⟨-, -, -, hefer, -, -, -, -, hparams⟩ := h
  rw [State.lme, hefer, hparams, State.lme]

theorem SameRegisters.pagingMode_eq {s t : State} (h : SameRegisters s t) : pagingMode t = pagingMode s :=
  pagingMode_congr h.pg_eq h.pae_eq h.lme_eq

/-! ### Which changes of the mode one operation can make -/

/-- A change of the paging mode that does not lead directly between 4-level paging and another paging mode. -/
def AllowedModeChange (old new : PagingMode) : Prop :=
  (old = .paging4Level → new = .paging4Level ∨ new = .noPaging)
    ∧ (new = .paging4Level → old = .paging4Level ∨ old = .noPaging)

theorem AllowedModeChange.refl (m : PagingMode) : AllowedModeChange m m := ⟨.inl, .inl⟩

theorem AllowedModeChange.of_eq {old new : PagingMode} (h : new = old) : AllowedModeChange old new := by
  rw [h]
  exact .refl old

/-- An operation on registers: MOV to CR0 leaves PAE and LME, MOV to CR4 and WRMSR leave PG and are checked while
paging is enabled. -/
theorem RegisterMove.allowedModeChange {s t : State} (h : RegisterMove s t) (hs : LongModeInv s) :
    AllowedModeChange (pagingMode s) (pagingMode t) := by
  cases h with
  | gprs _ h | cr3 _ h | result _ h => subst h; exact .refl _
  | cr0 v w _ _ _ h =>
    have hpae : t.pae = s.pae := by subst h; rfl
    have hlme : t.lme = s.lme := by subst h; rfl
    constructor <;> intro hmode <;>
      simp only [pagingMode_eq_paging4Level_iff, pagingMode_eq_noPaging_iff, hpae, hlme] at hmode ⊢
    · cases hpg : t.pg <;> simp [hmode]
    · cases hpg : s.pg <;> simp [hmode]
  | cr4 v w _ hkeep h =>
    have hpg : t.pg = s.pg := by subst h; rfl
    have hlme : t.lme = s.lme := by subst h; rfl
    have hpae : t.pae = cr4Pae s.params.features v := by subst h; rfl
    constructor <;> intro hmode <;>
      simp only [pagingMode_eq_paging4Level_iff, hpg, hlme, hpae] at hmode ⊢
    · obtain ⟨hg, ha, hl⟩ := hmode
      exact .inl ⟨hg, hkeep hg hl ha, hl⟩
    · obtain ⟨hg, -, hl⟩ := hmode
      exact .inl ⟨hg, hs hg hl, hl⟩
  | efer v hkeep h =>
    have hpg : t.pg = s.pg := by subst h; rfl
    have hpae : t.pae = s.pae := by subst h; rfl
    have hlme : s.pg = true → t.lme = s.lme := by subst h; exact hkeep
    constructor <;> intro hmode <;>
      simp only [pagingMode_eq_paging4Level_iff, hpg, hpae] at hmode ⊢
    · obtain ⟨hg, ha, hl⟩ := hmode
      exact .inl ⟨hg, ha, (hlme hg).trans hl⟩
    · obtain ⟨hg, ha, hl⟩ := hmode
      exact .inl ⟨hg, ha, (hlme hg).symm.trans hl⟩

/-- Accesses leave the registers, so only the register operations count, the instruction of `execute` among them. -/
theorem Performed.allowedModeChange {op : Op} {s t : State} (h : Performed op s t) (hs : LongModeInv s) :
    AllowedModeChange (pagingMode s) (pagingMode t) := by
  cases h with
  | move _ h => exact h.allowedModeChange hs
  | read r s1 h1 h => subst h; exact .of_eq h1.regs.pagingMode_eq
  | store la v explicit _ l s1 h1 _ h => subst h; exact .of_eq h1.regs.pagingMode_eq
  | execute s1 s2 eip _ h1 h2 h =>
    subst h
    have hs1 : LongModeInv s1 := by
      rw [LongModeInv, h1.regs.pg_eq, h1.regs.lme_eq, h1.regs.pae_eq]
      exact hs
    rw [← h1.regs.pagingMode_eq]
    exact h2.allowedModeChange hs1

end Sys2Proof.Machine

namespace Sys2Proof.Proofs

open Sys2Proof.Machine

/-- Settles O25: LMA is PG and LME, and by I2 these bring PAE with them. -/
theorem lmaIsOneExactlyInFourLevelPaging : Obligations.LmaIsOneExactlyInFourLevelPaging := by
  intro s hinv
  rw [pagingMode_eq_paging4Level_iff, State.lma, Bool.and_eq_true]
  constructor
  · rintro ⟨hpg, hlme⟩
    exact ⟨hpg, hinv hpg hlme, hlme⟩
  · rintro ⟨hpg, -, hlme⟩
    exact ⟨hpg, hlme⟩

/-- Settles O28: by cases over what the next operation can do to PG, PAE and LME. -/
theorem noStepLeadsDirectlyIntoOrOutOfFourLevelPaging :
    Obligations.NoStepLeadsDirectlyIntoOrOutOfFourLevelPaging := by
  intro s t hs h
  obtain ⟨op, rest, -, h⟩ := step_next h
  exact (perform_next h).allowedModeChange (s := takeOp rest s) hs.2

end Sys2Proof.Proofs
end

section
/-! PROOFS. The invariants over every step and every exception (41_mode_enabling R138, 60_exceptions R230 and R234;
entries 6 and 10). -/

namespace Sys2Proof.Machine

/-! ### What an operation on registers leaves -/

theorem RegisterMove.frame {s t : State} (h : RegisterMove s t) :
    t.mem = s.mem ∧ t.params = s.params ∧ t.cpl = s.cpl ∧ t.eflags = s.eflags := by
  cases h with
  | gprs _ h | cr0 _ _ _ _ _ h | cr3 _ h | cr4 _ _ _ _ h | efer _ _ h | result _ h =>
    subst h
    exact ⟨rfl, rfl, rfl, rfl⟩

/-- What walks remembered is forgotten or kept. -/
theorem RegisterMove.walked {s t : State} (h : RegisterMove s t) : t.walked = [] ∨ t.walked = s.walked := by
  cases h with
  | gprs _ h | efer _ _ h | result _ h => subst h; exact .inr rfl
  | cr3 _ h => subst h; exact .inl rfl
  | cr0 _ _ hw _ _ h | cr4 _ _ hw _ h => subst h; exact hw

/-! ### What keeps the invariants -/

theorem SameRegisters.modeInv {s t : State} (h : SameRegisters s t) (hs : ModeInv s) : ModeInv t := by
  rw [ModeInv, ProtectionInv, LongModeInv, h.pg_eq, h.pe_eq, h.lme_eq, h.pae_eq]
  exact hs

theorem FlagStep.inv {s t : State} (h : FlagStep s t) (hs : Inv s) : Inv t := by
  obtain ⟨hmode, hmem, hwalked⟩ := hs
  exact ⟨h.regs.modeInv hmode, h.memoryInv hmem, h.walkedInv hwalked⟩

/-- I1 and I2 are what the checks of the register writes keep. -/
theorem RegisterMove.modeInv {s t : State} (h : RegisterMove s t) (hs : ModeInv s) : ModeInv t := by
  obtain ⟨hprot, hlong⟩ := hs
  cases h with
  | gprs _ h | cr3 _ h | result _ h => subst h; exact ⟨hprot, hlong⟩
  | cr0 v w _ hpe hlme h =>
    subst h
    refine ⟨hpe, fun (hset : cr0Pg v = true) hl => ?_⟩
    cases hpg : s.pg
    · exact hlme hpg hset hl
    · exact hlong hpg hl
  | cr4 v w _ hpae h =>
    subst h
    exact ⟨hprot, fun hpg hl => hpae hpg hl (hlong hpg hl)⟩
  | efer v hlme h =>
    subst h
    exact ⟨hprot, fun hpg hl => hlong hpg ((hlme hpg).symm.trans hl)⟩

theorem RegisterMove.inv {s t : State} (h : RegisterMove s t) (hs : Inv s) : Inv t := by
  obtain ⟨hmode, hmem, hwalked⟩ := hs
  obtain ⟨emem, eparams, -⟩ := h.frame
  refine ⟨h.modeInv hmode, by rwa [MemoryInv, emem, eparams], ?_⟩
  rw [WalkedInv]
  obtain e | e := h.walked <;> rw [e]
  · simp
  · exact hwalked

theorem Performed.inv {op : Op} {s t : State} (h : Performed op s t) (hs : Inv s) : Inv t := by
  cases h with
  | move _ h => exact h.inv hs
  | read r s1 h1 h => subst h; exact h1.inv hs
  | store la v explicit _ l s1 h1 hram h =>
    subst h
    obtain ⟨hmode, hmem, hwalked⟩ := h1.inv hs
    exact ⟨hmode, memoryInv_storeSpans v hram hmem, hwalked⟩
  | execute s1 s2 eip _ h1 h2 h => subst h; exact h2.inv (h1.inv hs)

/-! ### The state an exception leaves -/

/-- The only fault of an instruction is #GP(0), with the state as it was (60_exceptions R230). -/
theorem exec_fault {i : Instr} {s : State} {f : Fault} (h : exec i s = .fault f) : f = .generalProtection 0 s := by
  cases i with
  | movCr0R32 md r => exact movToCr0_fault h
  | movCr3R32 md r => exact movToCr3_fault h
  | movCr4R32 md r => exact movToCr4_fault h
  | wrmsr => exact wrmsrTo_fault h
  | movR32Cr0 md r | movR32Cr3 md r | movR32Cr4 md r =>
    obtain h | ⟨v, -, h⟩ := andThen_eq_fault.mp h
    · exact movFromCr_fault h
    · cases h
  | rdmsr =>
    obtain h | ⟨v, -, h⟩ := andThen_eq_fault.mp h
    · exact rdmsrFrom_fault h
    · cases h

theorem runCode_fault {bytes : List Byte} {s : State} {f : Fault} (h : runCode bytes s = .fault f) :
    f = .generalProtection 0 s := by
  unfold runCode at h
  split at h
  · exact exec_fault h
  · cases h

/-- Where an operation accesses memory: the fault of the access it makes, the fetch of `execute` among them. -/
def AccessFault (op : Op) (s : State) (f : Fault) : Prop :=
  ∃ la n acc, MakesAccess op s la n acc
    ∧ (beginAccess la n acc s = .fault f ∨ IsMemoryFault f)

/-- All the faults an operation has: #GP(0) with nothing changed, the fault of its own access, and for `execute` also
#GP(0) with the state its fetch left. -/
inductive FaultOf (op : Op) (s : State) (f : Fault) : Prop where
  | generalProtection (hop : op ≠ .execute) (h : f = .generalProtection 0 s)
  | access (h : AccessFault op s f)
  | executed (hop : op = .execute) (bytes : List Byte) (s1 : State) (hfetch : fetchCode s = .next (bytes, s1))
      (h : f = .generalProtection 0 s1)

/-- A read that does not complete stops where its access does, or at memory. -/
theorem memRead_fault_access {la : Word} {n : Nat} {acc : Access} {s : State} {f : Fault}
    (h : memRead la n acc s = .fault f) : beginAccess la n acc s = .fault f ∨ IsMemoryFault f := by
  obtain h | ⟨⟨l, s1⟩, -, h⟩ := andThen_eq_fault.mp h
  · exact .inl h
  · obtain h | ⟨_, -, h⟩ := andThen_eq_fault.mp h
    · exact .inr (readSpans_fault h)
    · cases h

theorem memWrite_fault_access {la : Word} {bs : List Byte} {acc : Access} {s : State} {f : Fault}
    (h : memWrite la bs acc s = .fault f) : beginAccess la bs.length acc s = .fault f ∨ IsMemoryFault f := by
  obtain h | ⟨⟨l, s1⟩, -, h⟩ := andThen_eq_fault.mp h
  · exact .inl h
  · obtain h | ⟨_, -, h⟩ := andThen_eq_fault.mp h
    · exact .inr (checkSpans_fault h)
    · cases h

/-- The fetch at EIP is one access of two bytes or of three (entry 28). -/
theorem fetchCode_fault_access {s : State} {f : Fault} (h : fetchCode s = .fault f) : AccessFault .execute s f := by
  obtain h | ⟨⟨bs, s1⟩, -, h⟩ := andThen_eq_fault.mp h
  · exact ⟨s.eip, 2, codeAccess s, ⟨rfl, .inl rfl, rfl⟩, memRead_fault_access h⟩
  · dsimp only at h
    split_ifs at h
    exact ⟨s.eip, 3, codeAccess s, ⟨rfl, .inr rfl, rfl⟩, memRead_fault_access h⟩

theorem perform_fault {op : Op} {s : State} {f : Fault} (h : perform op s = .fault f) : FaultOf op s f := by
  cases op with
  | movToCr0 v => exact .generalProtection nofun (movToCr0_fault h)
  | movToCr3 v => exact .generalProtection nofun (movToCr3_fault h)
  | movToCr4 v => exact .generalProtection nofun (movToCr4_fault h)
  | wrmsr idx v => exact .generalProtection nofun (wrmsrTo_fault h)
  | code bytes => exact .generalProtection nofun (runCode_fault h)
  | vmxTransition => cases h
  | movFromCr n =>
    obtain h | ⟨v, -, h⟩ := andThen_eq_fault.mp h
    · exact .generalProtection nofun (movFromCr_fault h)
    · cases h
  | rdmsr idx =>
    obtain h | ⟨v, -, h⟩ := andThen_eq_fault.mp h
    · exact .generalProtection nofun (rdmsrFrom_fault h)
    · cases h
  | load la n explicit | fetch la n explicit =>
    obtain h | ⟨⟨bs, s1⟩, -, h⟩ := andThen_eq_fault.mp h
    · exact .access ⟨la, n, _, ⟨rfl, rfl, rfl⟩, memRead_fault_access h⟩
    · cases h
  | store la v explicit => exact .access ⟨la, v.length, _, ⟨rfl, rfl, rfl⟩, memWrite_fault_access h⟩
  | execute =>
    obtain h | ⟨⟨bytes, s1⟩, hfetch, h⟩ := andThen_eq_fault.mp h
    · exact .access (fetchCode_fault_access h)
    · dsimp only at h
      split at h
      · obtain h | ⟨_, -, h⟩ := andThen_eq_fault.mp h
        · exact .executed rfl bytes s1 hfetch (exec_fault h)
        · cases h
      · cases h

/-- A page fault of an operation is that of the access it makes. -/
theorem perform_pageFault {op : Op} {s left : State} {la code : Word}
    (h : perform op s = .fault (.pageFault la code left)) :
    ∃ la0 n acc, MakesAccess op s la0 n acc ∧ beginAccess la0 n acc s = .fault (.pageFault la code left) := by
  cases perform_fault h with
  | generalProtection _ h => cases h
  | executed _ _ _ _ h => cases h
  | access h =>
    obtain ⟨la0, n, acc, hacc, h | ⟨_, h⟩ | ⟨_, h⟩⟩ := h
    · exact ⟨la0, n, acc, hacc, h⟩
    · cases h
    · cases h

/-- #GP(0) comes from an operation on registers, or from the instruction `execute` fetched. -/
theorem perform_generalProtection {op : Op} {s left : State} {code : Word}
    (h : perform op s = .fault (.generalProtection code left)) :
    code = 0 ∧ ((op ≠ .execute ∧ left = s) ∨ (op = .execute ∧ ∃ bytes, fetchCode s = .next (bytes, left))) := by
  cases perform_fault h with
  | generalProtection hop h =>
    obtain ⟨rfl, rfl⟩ := Fault.generalProtection.inj h
    exact ⟨rfl, .inl ⟨hop, rfl⟩⟩
  | executed hop bytes s1 hfetch h =>
    obtain ⟨rfl, rfl⟩ := Fault.generalProtection.inj h
    exact ⟨rfl, .inr ⟨hop, bytes, hfetch⟩⟩
  | access h =>
    obtain ⟨la0, n, acc, -, h | ⟨_, h⟩ | ⟨_, h⟩⟩ := h
    · obtain (⟨_, h⟩ | ⟨_, h⟩) | ⟨_, _, _, h, -⟩ := beginAccess_fault h <;> cases h
    · cases h
    · cases h

/-- Whichever exception an operation raises, the state it leaves has got accessed and dirty flags at most. -/
theorem perform_exception_flagStep {op : Op} {s left : State} {la code : Word}
    (h : perform op s = .fault (.generalProtection code left) ∨ perform op s = .fault (.pageFault la code left)) :
    FlagStep s left := by
  obtain h | h := h
  · obtain ⟨-, ⟨-, rfl⟩ | ⟨-, bytes, hfetch⟩⟩ := perform_generalProtection h
    · exact .refl _
    · exact fetchCode_next hfetch
  · obtain ⟨la0, n, acc, -, h⟩ := perform_pageFault h
    exact (beginAccess_eq_pageFault h).1

end Sys2Proof.Machine

namespace Sys2Proof.Proofs

open Sys2Proof.Machine

/-- Settles O29: what the next operation can do, case by case, keeps each part of the invariant. -/
theorem stepKeepsTheInvariants : Obligations.StepKeepsTheInvariants := by
  intro s t hs h
  obtain ⟨op, rest, -, h⟩ := step_next h
  exact (perform_next h).inv (s := takeOp rest s) hs

/-- Settles O30: an exception leaves the state as it was but for flags, remembered entries and draws. -/
theorem exceptionsLeaveTheInvariants : Obligations.ExceptionsLeaveTheInvariants := by
  intro s left la code hs h
  have hleft : ∃ rest, FlagStep (takeOp rest s) left := by
    obtain h | h := h <;> obtain ⟨op, rest, -, h⟩ := step_fault h
    · exact ⟨rest, perform_exception_flagStep (la := la) (.inl h)⟩
    · exact ⟨rest, perform_exception_flagStep (.inr h)⟩
  obtain ⟨rest, hleft⟩ := hleft
  exact hleft.inv (s := takeOp rest s) hs

/-- Settles O31: neither a walk nor a register operation writes CPL, EFLAGS or the parameters. -/
theorem noStepChangesPrivilegeFlagsOrParameters : Obligations.NoStepChangesPrivilegeFlagsOrParameters := by
  intro s t h
  obtain ⟨op, rest, -, h⟩ := step_next h
  cases perform_next h with
  | move _ h =>
    obtain ⟨-, hparams, hcpl, heflags⟩ := h.frame
    exact ⟨hcpl, heflags, hparams⟩
  | read r s1 h1 h | store la v explicit _ l s1 h1 _ h =>
    subst h
    obtain ⟨-, -, -, -, heflags, hcpl, -, -, hparams⟩ := h1.regs
    exact ⟨hcpl, heflags, hparams⟩
  | execute s1 s2 eip _ h1 h2 h =>
    subst h
    obtain ⟨-, -, -, -, heflags, hcpl, -, -, hparams⟩ := h1.regs
    obtain ⟨-, hparams2, hcpl2, heflags2⟩ := h2.frame
    exact ⟨hcpl2.trans hcpl, heflags2.trans heflags, hparams2.trans hparams⟩

/-- Settles O21. -/
theorem instructionsFaultWithGeneralProtectionOnly : Obligations.InstructionsFaultWithGeneralProtectionOnly :=
  fun _ _ _ h => exec_fault h

end Sys2Proof.Proofs
end

section
/-! PROOFS. How a walk of 32-bit paging ends: every case of a translation said once (43_32bit_paging R209). -/

namespace Sys2Proof.Machine

/-! ### All the ends of a walk -/

/-- The entries a walk of `la` reads and where that leads: every branch of 43_32bit_paging R209. -/
inductive Walk32 (s : State) (la : Word) (acc : Access) : Translation → State → Prop where
  | notPresent (pde : EntryRead) (s1 : State) (hpde : readEntry (pdeAddr s.cr3 la) s = .next (pde, s1))
      (hp : entryP pde.value = false) : Walk32 s la acc (.pageFault (errorCode s acc false false) []) s1
  | page4M (pde : EntryRead) (s1 : State) (hpde : readEntry (pdeAddr s.cr3 la) s = .next (pde, s1))
      (hp : entryP pde.value = true) (hbig : maps4M s pde.value = true) : Walk32 s la acc (finish4M s la acc pde) s1
  | reserved (pde : EntryRead) (s1 : State) (hpde : readEntry (pdeAddr s.cr3 la) s = .next (pde, s1))
      (hp : entryP pde.value = true) (hbig : maps4M s pde.value = false)
      (hres : hasReserved (reservedPdeTable s.params) pde.value = true) :
      Walk32 s la acc (.pageFault (errorCode s acc true true) []) s1
  | page4K (pde pte : EntryRead) (s1 s2 : State) (hpde : readEntry (pdeAddr s.cr3 la) s = .next (pde, s1))
      (hp : entryP pde.value = true) (hbig : maps4M s pde.value = false)
      (hres : hasReserved (reservedPdeTable s.params) pde.value = false)
      (hpte : readEntry (pteAddr pde.value la) s1 = .next (pte, s2)) : Walk32 s la acc (finish4K s la acc pde pte) s2

theorem translate32_eq_next_iff {la : Word} {acc : Access} {s t : State} {r : Translation} :
    translate32 la acc s = .next (r, t) ↔ Walk32 s la acc r t := by
  constructor
  · intro h
    obtain ⟨⟨pde, s1⟩, hpde, h⟩ := andThen_eq_next.mp h
    dsimp only at h
    split_ifs at h with hp hbig hres
    · obtain ⟨rfl, rfl⟩ : _ = r ∧ s1 = t := by simpa using h
      exact .notPresent pde s1 hpde (by simpa using hp)
    · obtain ⟨rfl, rfl⟩ : _ = r ∧ s1 = t := by simpa using h
      exact .page4M pde s1 hpde (by simpa using hp) hbig
    · obtain ⟨rfl, rfl⟩ : _ = r ∧ s1 = t := by simpa using h
      exact .reserved pde s1 hpde (by simpa using hp) (by simpa using hbig) hres
    · obtain ⟨⟨pte, s2⟩, hpte, h⟩ := andThen_eq_next.mp h
      obtain ⟨rfl, rfl⟩ : _ = r ∧ s2 = t := by simpa using h
      exact .page4K pde pte s1 s2 hpde (by simpa using hp) (by simpa using hbig) (by simpa using hres) hpte
  · intro h
    cases h with
    | notPresent pde s1 hpde hp => simp [translate32, hpde, hp]
    | page4M pde s1 hpde hp hbig => simp [translate32, hpde, hp, hbig]
    | reserved pde s1 hpde hp hbig hres => simp [translate32, hpde, hp, hbig, hres]
    | page4K pde pte s1 s2 hpde hp hbig hres hpte => simp [translate32, hpde, hp, hbig, hres, hpte]

theorem translateLinear_paging32 {s : State} (hmode : pagingMode s = .paging32) (la : Word) (acc : Access) :
    translateLinear la acc s = translate32 la acc s := by
  simp only [translateLinear, hmode]

theorem translateLinear_eq_next_iff {la : Word} {acc : Access} {s t : State} {r : Translation}
    (hmode : pagingMode s = .paging32) : translateLinear la acc s = .next (r, t) ↔ Walk32 s la acc r t := by
  rw [translateLinear_paging32 hmode, translate32_eq_next_iff]

/-! ### The tests of the last entry -/

theorem finish4M_eq_mapped {s : State} {la : Word} {acc : Access} {pde : EntryRead} {pa : PhysAddr}
    {fl : List FlagUpdate} : finish4M s la acc pde = .mapped pa fl ↔
      hasReserved (reservedPde4M s.params) pde.value = false ∧ accessPermitted s acc pde.value none = true
        ∧ pa = page4MAddr pde.value la ∧ fl = [flagAD acc pde] := by
  unfold finish4M
  split_ifs with hres hdeny
  · simp [hres]
  · simp [show accessPermitted s acc pde.value none = false by simpa using hdeny]
  · simp only [Translation.mapped.injEq]
    constructor
    · rintro ⟨rfl, rfl⟩
      exact ⟨by simpa using hres, by simpa using hdeny, rfl, rfl⟩
    · rintro ⟨-, -, rfl, rfl⟩
      exact ⟨rfl, rfl⟩

theorem finish4K_eq_mapped {s : State} {la : Word} {acc : Access} {pde pte : EntryRead} {pa : PhysAddr}
    {fl : List FlagUpdate} : finish4K s la acc pde pte = .mapped pa fl ↔
      entryP pte.value = true ∧ hasReserved (reservedPte s.params) pte.value = false
        ∧ accessPermitted s acc pde.value (some pte.value) = true ∧ pa = page4KAddr pte.value la
        ∧ fl = [flagA pde, flagAD acc pte] := by
  unfold finish4K
  split_ifs with hp hres hdeny
  · simp [show entryP pte.value = false by simpa using hp]
  · simp [hres]
  · simp [show accessPermitted s acc pde.value (some pte.value) = false by simpa using hdeny]
  · simp only [Translation.mapped.injEq]
    constructor
    · rintro ⟨rfl, rfl⟩
      exact ⟨by simpa using hp, by simpa using hres, by simpa using hdeny, rfl, rfl⟩
    · rintro ⟨-, -, -, rfl, rfl⟩
      exact ⟨rfl, rfl⟩

/-- How an address comes to be mapped, in any mode: unpaged, by a PDE alone, or by a PDE and a PTE. -/
inductive MappedBy (s : State) (la : Word) (acc : Access) (pa : PhysAddr) (t : State) : Prop where
  | unpaged (hmode : pagingMode s = .noPaging) (hpa : pa = unpagedAddr la) (ht : t = s)
  | page4M (pde : EntryRead) (hmode : pagingMode s = .paging32)
      (hpde : readEntry (pdeAddr s.cr3 la) s = .next (pde, t)) (hbig : maps4M s pde.value = true)
      (hres : hasReserved (reservedPde4M s.params) pde.value = false)
      (hrights : accessPermitted s acc pde.value none = true) (hpa : pa = page4MAddr pde.value la)
  | page4K (pde pte : EntryRead) (s1 : State) (hmode : pagingMode s = .paging32)
      (hpde : readEntry (pdeAddr s.cr3 la) s = .next (pde, s1)) (hbig : maps4M s pde.value = false)
      (hpte : readEntry (pteAddr pde.value la) s1 = .next (pte, t))
      (hrights : accessPermitted s acc pde.value (some pte.value) = true) (hpa : pa = page4KAddr pte.value la)

theorem translateLinear_mapped {la : Word} {acc : Access} {s t : State} {pa : PhysAddr} {fl : List FlagUpdate}
    (h : translateLinear la acc s = .next (.mapped pa fl, t)) : MappedBy s la acc pa t := by
  cases hmode : pagingMode s with
  | noPaging =>
    simp only [translateLinear, hmode, Host.Outcome.next.injEq, Prod.mk.injEq, Translation.mapped.injEq] at h
    obtain ⟨⟨rfl, -⟩, rfl⟩ := h
    exact .unpaged hmode rfl rfl
  | pagingPae | paging4Level => simp [translateLinear, hmode] at h
  | paging32 =>
    rw [translateLinear_eq_next_iff hmode] at h
    generalize hr : Translation.mapped pa fl = r at h
    cases h with
    | notPresent | reserved => cases hr
    | page4M pde s1 hpde _ hbig =>
      obtain ⟨hres, hrights, hpa, -⟩ := finish4M_eq_mapped.mp hr.symm
      exact .page4M pde hmode hpde hbig hres hrights hpa
    | page4K pde pte s1 s2 hpde _ hbig _ hpte =>
      obtain ⟨-, -, hrights, hpa, -⟩ := finish4K_eq_mapped.mp hr.symm
      exact .page4K pde pte s1 hmode hpde hbig hpte hrights hpa

end Sys2Proof.Machine
end


section
/-! PROOFS. Operations that leave nothing stale (70_reset_and_hazards R268, 92 D6; the remembered entries are entry
10). -/

namespace Sys2Proof.Machine

/-! ### A walk keeps nothing stale: it remembers what memory holds -/

theorem readEntry_value {a : PhysAddr} {s t : State} {e : EntryRead} (hs : Settled s)
    (h : readEntry a s = .next (e, t)) : e.value = wordAt s.mem a.toNat := by
  obtain ⟨-, ⟨hnow, -⟩ | ⟨hold, -⟩, -⟩ := readEntry_spec h
  · exact hnow
  · exact (hs _ hold).symm

theorem readEntry_keeps_settled {a : PhysAddr} {s t : State} {e : EntryRead} (hs : Settled s)
    (h : readEntry a s = .next (e, t)) : Settled t := by
  have hvalue := readEntry_value hs h
  obtain ⟨-, -, w, k, rfl, hw⟩ := readEntry_spec h
  intro x hx
  obtain hx | ⟨rfl, -⟩ := hw x hx
  · exact hs x hx
  · exact hvalue.symm

theorem readEntry_params {a : PhysAddr} {s t : State} {e : EntryRead} (h : readEntry a s = .next (e, t)) :
    t.params = s.params := by
  obtain ⟨-, -, w, k, rfl, -⟩ := readEntry_spec h
  rfl

/-- An entry of a settled state that stands in read-write memory is read as memory holds it. -/
theorem readEntry_of_ram {s : State} {a : PhysAddr} (hs : Settled s) (hr : EntryInRam s a.toNat) :
    ∃ s1, readEntry a s = .next (⟨a.toNat, wordAt s.mem a.toNat, true⟩, s1) ∧ Settled s1 ∧ s1.mem = s.mem
      ∧ s1.params = s.params :=
  have h := readEntry_settled hs hr
  ⟨_, h, readEntry_keeps_settled hs h, readEntry_mem h, readEntry_params h⟩

theorem translateLinear_keeps_settled {la : Word} {acc : Access} {s t : State} {r : Translation} (hs : Settled s)
    (h : translateLinear la acc s = .next (r, t)) : Settled t := by
  cases hmode : pagingMode s with
  | noPaging =>
    obtain ⟨-, rfl⟩ : _ = r ∧ s = t := by simpa [translateLinear, hmode] using h
    exact hs
  | pagingPae | paging4Level => simp [translateLinear, hmode] at h
  | paging32 =>
    rw [translateLinear_eq_next_iff hmode] at h
    cases h with
    | notPresent _ _ hpde | page4M _ _ hpde | reserved _ _ hpde => exact readEntry_keeps_settled hs hpde
    | page4K _ _ _ _ hpde _ _ _ hpte => exact readEntry_keeps_settled (readEntry_keeps_settled hs hpde) hpte

theorem planPieces_keeps_settled {acc : Access} {ps : List Piece} {s t : State} {r : Plan} (hs : Settled s)
    (h : planPieces acc ps s = .next (r, t)) : Settled t := by
  induction ps generalizing s t r with
  | nil =>
    obtain ⟨-, rfl⟩ : _ = r ∧ s = t := by simpa [planPieces] using h
    exact hs
  | cons p ps ih =>
    obtain ⟨⟨tr, s1⟩, h1, h⟩ := andThen_eq_next.mp h
    have hs1 := translateLinear_keeps_settled hs h1
    cases tr with
    | pageFault code fl =>
      obtain ⟨-, rfl⟩ : _ = r ∧ s1 = t := by simpa using h
      exact hs1
    | mapped pa fl =>
      obtain ⟨⟨r', s2⟩, h2, h⟩ := andThen_eq_next.mp h
      obtain ⟨-, rfl⟩ : _ = r ∧ s2 = t := by simpa using h
      exact ih hs1 h2

/-! ### So does a flag write: what walks remembered of the entry moves with it, and every other entry stands apart -/

/-- Aligned words other than the one written keep their value. -/
theorem wordAt_storeBytes_other {m : List Host.Cell} {a b : Nat} (v : Word) (ha : a % 4 = 0) (hb : b % 4 = 0)
    (hne : b ≠ a) : wordAt (storeBytes m a (wordBytes v)) b = wordAt m b :=
  wordAt_congr fun i hi => byteAt_storeBytes_other m _ (by rw [length_wordBytes]; omega)

theorem orEntry_keeps_settled {a : Nat} {bits : Word} {s t : State} (ha : a % 4 = 0) (hw : WalkedInv s)
    (hs : Settled s) (h : orEntry a bits s = .next t) : Settled t := by
  obtain ⟨-, rfl⟩ := orEntry_eq_next.mp h
  intro e he
  obtain ⟨x, hx, rfl⟩ := List.mem_map.mp he
  change wordAt (storeBytes s.mem a (wordBytes (wordAt s.mem a ||| bits))) _ = _
  split_ifs with hmoved
  · exact wordAt_storeBytes s.mem a _
  · have hne : x.1 ≠ a := fun hxa => hmoved (Prod.ext hxa (by rw [← hs x hx, hxa]))
    obtain ⟨-, halign, -⟩ := hw x hx
    rw [wordAt_storeBytes_other _ ha halign hne]
    exact hs x hx

theorem maySetFlag_keeps_settled {u : FlagUpdate} {s : State} (hu : FlagUpdateOk u) (hw : WalkedInv s)
    (hs : Settled s) : Settled (maySetFlag u s) := by
  unfold maySetFlag
  dsimp only
  split_ifs
  · exact hs
  · split
    · rename_i t ht
      exact orEntry_keeps_settled (s := (drawWord s).2) hu.2.1 hw hs ht
    · exact hs
    · exact hs

theorem setFlag_keeps_settled {u : FlagUpdate} {s t : State} (hu : FlagUpdateOk u) (hw : WalkedInv s)
    (hs : Settled s) (h : setFlag u s = .next t) : Settled t := by
  unfold setFlag at h
  dsimp only at h
  split_ifs at h
  · obtain rfl : s = t := by simpa using h
    exact hs
  · exact orEntry_keeps_settled hu.2.1 hw hs h
  · obtain rfl : maySetFlag u s = t := by simpa using h
    exact maySetFlag_keeps_settled hu hw hs

theorem setFlags_keeps_settled {us : List FlagUpdate} {s t : State} (hu : ∀ u ∈ us, FlagUpdateOk u) (hw : WalkedInv s)
    (hs : Settled s) (h : setFlags us s = .next t) : Settled t := by
  induction us generalizing s with
  | nil =>
    obtain rfl : s = t := by simpa [setFlags] using h
    exact hs
  | cons u us ih =>
    obtain ⟨s1, h1, h2⟩ := andThen_eq_next.mp h
    have hok : FlagUpdateOk u := hu u (by simp)
    exact ih (fun v hv => hu v (List.mem_cons_of_mem _ hv)) ((setFlag_flagStep hok h1).walkedInv hw)
      (setFlag_keeps_settled hok hw hs h1) h2

/-! ### And so do reads and the operations on registers -/

theorem beginAccess_keeps_settled {la : Word} {n : Nat} {acc : Access} {s t : State} {l : List Span}
    (hw : WalkedInv s) (hs : Settled s) (h : beginAccess la n acc s = .next (l, t)) : Settled t := by
  obtain ⟨fl, s0, hplan, hok, -, hflags⟩ := beginAccess_plan h
  have hs0 := planPieces_keeps_settled hs hplan
  split_ifs at hflags
  · exact setFlags_keeps_settled hok ((planPieces_spec hplan).1.walkedInv hw) hs0 hflags
  · exact hflags ▸ hs0

theorem memRead_keeps_settled {la : Word} {n : Nat} {acc : Access} {s t : State} {bs : List Byte} (hw : WalkedInv s)
    (hs : Settled s) (h : memRead la n acc s = .next (bs, t)) : Settled t := by
  obtain ⟨-, l, hbegin, -⟩ := memRead_next h
  exact beginAccess_keeps_settled hw hs hbegin

/-- Code fetched is read, in one access of two bytes or of three (entry 28). -/
theorem fetchCode_eq_memRead {s t : State} {bs : List Byte} (h : fetchCode s = .next (bs, t)) :
    ∃ n, (n = 2 ∨ n = 3) ∧ memRead s.eip n (codeAccess s) s = .next (bs, t) := by
  obtain ⟨⟨bs2, s1⟩, h2, h⟩ := andThen_eq_next.mp h
  dsimp only at h
  split_ifs at h
  · exact ⟨3, .inr rfl, h⟩
  · obtain ⟨rfl, rfl⟩ : bs2 = bs ∧ s1 = t := by simpa using h
    exact ⟨2, .inl rfl, h2⟩

theorem RegisterMove.settled {s t : State} (h : RegisterMove s t) (hs : Settled s) : Settled t := by
  obtain ⟨hmem, -⟩ := h.frame
  rw [Settled, hmem]
  obtain hnil | hkept := h.walked
  · simp [hnil]
  · rwa [hkept]

theorem perform_keeps_settled {op : Op} {s t : State} (hop : ∀ la v explicit, op ≠ .store la v explicit)
    (hw : WalkedInv s) (hs : Settled s) (h : perform op s = .next t) : Settled t := by
  cases op with
  | store la v explicit => exact absurd rfl (hop la v explicit)
  | movToCr0 v => exact (movToCr0_move h).settled hs
  | movToCr3 v => exact (movToCr3_move h).settled hs
  | movToCr4 v => exact (movToCr4_move h).settled hs
  | wrmsr idx v => exact (wrmsrTo_move h).settled hs
  | vmxTransition => cases h
  | movFromCr n | rdmsr idx =>
    obtain ⟨v, -, h⟩ := andThen_eq_next.mp h
    exact Host.Outcome.next.inj h ▸ hs
  | load la n explicit | fetch la n explicit =>
    obtain ⟨⟨bs, s1⟩, h1, h⟩ := andThen_eq_next.mp h
    have hs1 : Settled s1 := memRead_keeps_settled hw hs h1
    exact Host.Outcome.next.inj h ▸ hs1
  | code bytes =>
    change runCode bytes s = _ at h
    unfold runCode at h
    split at h
    · exact (exec_next h).settled hs
    · cases h
  | execute =>
    obtain ⟨⟨bytes, s1⟩, hfetch, h⟩ := andThen_eq_next.mp h
    obtain ⟨n, -, hread⟩ := fetchCode_eq_memRead hfetch
    dsimp only at h
    split at h
    · obtain ⟨s2, hexec, h⟩ := andThen_eq_next.mp h
      have hs2 : Settled s2 := (exec_next hexec).settled (memRead_keeps_settled hw hs hread)
      exact Host.Outcome.next.inj h ▸ hs2
    · cases h

end Sys2Proof.Machine

namespace Sys2Proof.Proofs

open Sys2Proof.Machine

/-- Settles O58: reads go by walks and flag writes, which keep the remembered entries and memory in step, and the
operations on registers write no memory. -/
theorem onlyStoresMakeTranslationsUncertain : Obligations.OnlyStoresMakeTranslationsUncertain := by
  intro op rest s t hop hrun hw hs h
  rw [step, hrun] at h
  exact perform_keeps_settled (s := takeOp rest s) hop hw hs h

end Sys2Proof.Proofs
end

section
/-! PROOFS. Reset (10_state R45, 70_reset_and_hazards R260 and R261), and which operation a step performs
(30_encoding R90 and R91, 70_reset_and_hazards R272). -/

namespace Sys2Proof.Proofs

open Sys2Proof.Machine

/-! ### Reset -/

/-- Settles O1: the fields of the default `ResetState`, and the bits PG and AC of its values. -/
theorem resetRegistersHoldTheListedValues : Obligations.ResetRegistersHoldTheListedValues := by
  have hac : State.reset.ac = false := by decide
  have hpg : State.reset.pg = false := by decide
  exact ⟨rfl, rfl, rfl, rfl, rfl, hac, rfl, (pagingMode_eq_noPaging_iff _).mpr hpg⟩

/-- After reset nothing has been walked, and the rest of the invariant is what `ResetStateOk` asks. -/
theorem inv_resetWith {p : Params} (h : ResetStateOk p) : Inv (State.resetWith p) := by
  obtain ⟨hprot, hlong, hwf, hlisted⟩ := h
  refine ⟨⟨hprot, fun hpg hlme => ?_⟩, ⟨hwf, hlisted⟩, by simp [WalkedInv, State.resetWith]⟩
  obtain ⟨hefer, hbit⟩ := (Bool.and_eq_true _ _).mp hlme
  obtain ⟨hfeature, hpae⟩ := hlong hpg hefer hbit
  exact (Bool.and_eq_true _ _).mpr ⟨hfeature, hpae⟩

theorem resetStateOk_default : ResetStateOk Params.default := by
  have hpg : ResetState.default.cr0.getLsbD 31 = false := by decide
  refine ⟨fun h => ?_, fun h => ?_, rfl, by simp [Params.default, ResetState.default]⟩ <;>
    exact absurd (hpg.symm.trans h) nofun

/-- Settles O2. -/
theorem resetMeetsTheInvariants : Obligations.ResetMeetsTheInvariants :=
  ⟨inv_resetWith resetStateOk_default, fun _ h => inv_resetWith h⟩

/-! ### Steps -/

theorem step_of_run {s : State} {op : Op} {rest : List Op} (hrun : s.run = op :: rest) :
    step s = perform op (takeOp rest s) := by
  simp only [step, hrun]

theorem runCode_of_decode {bytes tail : List Byte} {i : Instr} (hd : decode bytes = .ok i tail) (s : State) :
    runCode bytes s = exec i s := by
  simp only [runCode, hd]

/-- Settles O7. -/
theorem stepRunsASuppliedInstruction : Obligations.StepRunsASuppliedInstruction := by
  intro s bytes tail rest i hrun hd _
  rw [step_of_run hrun]
  exact runCode_of_decode hd (takeOp rest s)

/-- Settles O8: `execute` is the fetch, the instruction, and EIP moved past it. -/
theorem stepExecutesTheInstructionAtEip : Obligations.StepExecutesTheInstructionAtEip := by
  intro s s1 bytes tail rest i hrun hfetch hd _
  rw [step_of_run hrun]
  change execute ((s.setRun rest).setResult .nothing) = _
  simp only [execute, hfetch, andThen_next, hd]
  rfl

theorem decode_of_decodeTableWord {nbits w : Nat} {i : Instr} (h : decodeTableWord nbits w = some i) :
    ∃ tail, decode (tableBytes nbits w) = .ok i tail := by
  unfold decodeTableWord at h
  split at h
  · rename_i j tail hd
    exact ⟨tail, Option.some.inj h ▸ hd⟩
  · cases h

/-- Settles O10: the table word stands at the head of the run, as bytes that decode to it. -/
theorem withFetchWordRunsTheTableWord : Obligations.WithFetchWordRunsTheTableWord := by
  intro s nbits w i h
  obtain ⟨tail, hd⟩ := decode_of_decodeTableWord h
  have hrun : (s.withFetchWord nbits w).run = .code (tableBytes nbits w) :: s.run := rfl
  rw [step_of_run hrun]
  exact runCode_of_decode hd (s.setResult .nothing)

/-- Settles O11. -/
theorem anExhaustedRunHasNoStep : Obligations.AnExhaustedRunHasNoStep := by
  intro s hrun
  simp only [step, hrun]

/-- Settles O60. -/
theorem vmxTransitionsAreRefused : Obligations.VmxTransitionsAreRefused :=
  fun _ _ hrun => step_of_run hrun

end Sys2Proof.Proofs
end

section
/-! PROOFS. The eight instructions: what each needs to complete, what it writes, and what it refuses
(41_mode_enabling R130 to R136, R144). -/

namespace Sys2Proof.Machine

/-! ### Named bits (92 D18): the masks of the model are the positions the statements list -/

theorem changesOutside_eq_false_iff {n : Nat} {named old new : BitVec n} :
    changesOutside named old new = false ↔ ∀ i < n, named.getLsbD i = false → new.getLsbD i = old.getLsbD i := by
  rw [changesOutside, decide_eq_false_iff_not, not_not]
  have hbit : ∀ i < n, ((new ^^^ old) &&& ~~~named).getLsbD i
      = ((new.getLsbD i ^^ old.getLsbD i) && !named.getLsbD i) := by
    intro i hi
    simp [hi]
  constructor
  · intro h i hi hout
    have hz := hbit i hi
    rw [h, hout] at hz
    simpa using hz.symm
  · intro h
    apply BitVec.eq_of_getLsbD_eq
    intro i hi
    rw [hbit i hi]
    cases hout : named.getLsbD i
    · simp [h i hi hout]
    · simp

theorem changesOutside_eq_false_iff_sameBitsBut {n : Nat} {named old new : BitVec n} {positions : List Nat}
    (hpos : ∀ i < n, named.getLsbD i = true ↔ i ∈ positions) :
    changesOutside named old new = false ↔ SameBitsBut positions old new := by
  rw [changesOutside_eq_false_iff, SameBitsBut]
  refine forall₂_congr fun i hi => ?_
  rw [← hpos i hi, Bool.not_eq_true]

theorem cr0Named_bits : ∀ i < 32, cr0Named.getLsbD i = true ↔ i ∈ [0, 16, 31] := by decide

theorem eferNamed_bits : ∀ i < 64, eferNamed.getLsbD i = true ↔ i ∈ [8] := by decide

theorem bitIf_getLsbD (b : Bool) {i k : Nat} (hi : i < 32) : (bitIf b k).getLsbD i = (b && decide (i = k)) := by
  cases b
  · simp [bitIf]
  · rw [bitIf, if_pos rfl, Bool.true_and, BitVec.getLsbD_shiftLeft, BitVec.ofNat_eq_ofNat, BitVec.getLsbD_one]
    by_cases hik : i = k
    · subst hik; simp [hi]
    · rw [decide_eq_false hik]
      by_cases hlt : i < k
      · simp [hlt]
      · simp [show i - k ≠ 0 by omega]

theorem cr4Named_bits (f : Features) : ∀ i < 32, (cr4Named f).getLsbD i = true ↔ i ∈ cr4NamedBits f := by
  have hopt : ∀ (b : Bool) (i k : Nat), i ∈ (if b then [k] else []) ↔ (b && decide (i = k)) = true := by
    intro b i k
    cases b <;> simp
  intro i hi
  simp only [cr4Named, cr4NamedBits, BitVec.getLsbD_or, bitIf_getLsbD _ hi, List.mem_append, hopt, Bool.or_eq_true]

/-! ### Forgetting what walks remembered -/

theorem forgetWalksIf_of_iff {c : Bool} {unchanged : Prop} [Decidable unchanged] (h : c = false ↔ unchanged)
    (s : State) :
    forgetWalksIf c s = s.setWalked (if unchanged then s.walked else []) := by
  cases c
  · rw [if_pos (h.mp rfl)]; rfl
  · rw [if_neg fun hu => absurd (h.mpr hu) nofun]; rfl

theorem cr0ModeChange_eq_false_iff {old new : Word} :
    cr0ModeChange old new = false ↔ new.getLsbD 31 = old.getLsbD 31 ∧ new.getLsbD 16 = old.getLsbD 16 := by
  simp only [cr0ModeChange, cr0Pg, cr0Wp, Bool.or_eq_false_iff, bne_eq_false_iff_eq]
  exact and_congr eq_comm eq_comm

/-- A bit the implementation may lack did not change, where an absent bit is unnamed. -/
theorem feature_bit_unchanged_iff {feature old new : Bool} (h : feature = false → new = old) :
    ((feature && old) != (feature && new)) = false ↔ new = old := by
  cases feature
  · simp [h rfl]
  · rw [Bool.true_and, Bool.true_and, bne_eq_false_iff_eq, eq_comm]

theorem cr4ModeChange_eq_false_iff {f : Features} {old new : Word} (h : SameBitsBut (cr4NamedBits f) old new) :
    cr4ModeChange f old new = false ↔ ∀ i ∈ ([4, 5, 7, 20, 21] : List Nat), new.getLsbD i = old.getLsbD i := by
  have habsent : ∀ i < 32, i ∉ cr4NamedBits f → new.getLsbD i = old.getLsbD i := h
  simp only [cr4ModeChange, cr4Pae, cr4Pse, cr4Pge, cr4Smep, cr4Smap, Bool.or_eq_false_iff]
  rw [feature_bit_unchanged_iff fun hf => habsent 5 (by decide) (by simp [cr4NamedBits, hf]),
    feature_bit_unchanged_iff fun hf => habsent 4 (by decide) (by simp [cr4NamedBits, hf]),
    feature_bit_unchanged_iff fun hf => habsent 7 (by decide) (by simp [cr4NamedBits, hf]),
    feature_bit_unchanged_iff fun hf => habsent 20 (by decide) (by simp [cr4NamedBits, hf]),
    feature_bit_unchanged_iff fun hf => habsent 21 (by decide) (by simp [cr4NamedBits, hf])]
  simp only [List.forall_mem_cons, List.not_mem_nil, false_imp_iff, implies_true, and_true]
  tauto

/-! ### Every outcome of a write that raises no #GP(0) -/

theorem movToCr0_of_not_faults {v : Word} {s : State} (h : ¬ Cr0WriteFaults v s) :
    movToCr0 v s = if changesOutside cr0Named s.cr0 v then .refused (.unnamedControlBits .cr0)
      else .next (forgetWalksIf (cr0ModeChange s.cr0 v) (s.setCr0 v)) := by
  simp only [Cr0WriteFaults, not_or] at h
  obtain ⟨hcpl, hpe, hlong, hpcide⟩ := h
  rw [movToCr0, if_neg hcpl, if_neg fun hc => hpe (by simpa [cr0Pg, cr0Pe] using hc),
    if_neg fun hc => hlong (by simpa [cr0Pg, and_assoc] using hc),
    if_neg fun hc => hpcide (by simpa [cr0Pg, and_assoc] using hc)]

theorem movToCr4_of_not_faults {v : Word} {s : State} (h : ¬ Cr4WriteFaults v s) :
    movToCr4 v s = if changesOutside (cr4Named s.params.features) s.cr4 v then .refused (.unnamedControlBits .cr4)
      else .next (forgetWalksIf (cr4ModeChange s.params.features s.cr4 v) (s.setCr4 v)) := by
  simp only [Cr4WriteFaults, not_or] at h
  obtain ⟨hcpl, hpae, hpcide⟩ := h
  rw [movToCr4, if_neg hcpl, if_neg fun hc => hpae (by simpa [and_assoc] using hc), if_neg fun hc => hpcide ?_]
  simp only [Bool.and_eq_true, Bool.not_eq_true', Bool.or_eq_true, decide_eq_true_eq] at hc
  obtain ⟨⟨hoff, hset⟩, hmode⟩ := hc
  exact ⟨hoff, hset, hmode.imp_left fun hm hon => by simp [hon] at hm⟩

theorem wrmsrTo_efer_of_not_faults {v : MsrWord} {s : State} (h : ¬ EferWriteFaults v s) :
    wrmsrTo eferIndex v s = if changesOutside eferNamed (eferValue s) v then .refused .unnamedEferBits
      else .next (s.setEfer ((s.efer &&& ~~~eferNamed) ||| (v &&& eferNamed))) := by
  simp only [EferWriteFaults, not_or] at h
  obtain ⟨hcpl, hefer, hlme⟩ := h
  rw [wrmsrTo, if_neg hcpl, if_neg (not_not.mpr rfl), if_neg (by simpa using hefer),
    if_neg fun hc => hlme (by simpa using hc)]

/-- MOV to CR0 of a value that differs in named bits only (41_mode_enabling R131). -/
theorem movToCr0_of_named {v : Word} {s : State} (h : ¬ Cr0WriteFaults v s) (hv : SameBitsBut [0, 16, 31] s.cr0 v) :
    movToCr0 v s = .next ((s.setCr0 v).setWalked
      (if v.getLsbD 31 = s.cr0.getLsbD 31 ∧ v.getLsbD 16 = s.cr0.getLsbD 16 then s.walked else [])) := by
  rw [movToCr0_of_not_faults h, (changesOutside_eq_false_iff_sameBitsBut cr0Named_bits).mpr hv,
    forgetWalksIf_of_iff cr0ModeChange_eq_false_iff]
  rfl

/-- MOV to CR4 of a value that differs in named bits only (41_mode_enabling R133). -/
theorem movToCr4_of_named {v : Word} {s : State} (h : ¬ Cr4WriteFaults v s)
    (hv : SameBitsBut (cr4NamedBits s.params.features) s.cr4 v) :
    movToCr4 v s = .next ((s.setCr4 v).setWalked
      (if ∀ i ∈ ([4, 5, 7, 20, 21] : List Nat), v.getLsbD i = s.cr4.getLsbD i then s.walked else [])) := by
  rw [movToCr4_of_not_faults h, (changesOutside_eq_false_iff_sameBitsBut (cr4Named_bits _)).mpr hv,
    forgetWalksIf_of_iff (cr4ModeChange_eq_false_iff hv)]
  rfl

/-! ### The bits of IA32_EFER (41_mode_enabling R134, R136, R147) -/

theorem eferValue_getLsbD (s : State) {i : Nat} (hi : i < 64) :
    (eferValue s).getLsbD i = if i = 10 then s.lma else s.efer.getLsbD i := by
  have hmask : ∀ i < 64, (0x400 : MsrWord).getLsbD i = decide (i = 10) := by decide
  have hlma : (if s.lma then (0x400 : MsrWord) else 0).getLsbD i = (s.lma && decide (i = 10)) := by
    cases s.lma
    · simp
    · exact hmask i hi
  rw [eferValue, BitVec.getLsbD_or, BitVec.getLsbD_and, BitVec.getLsbD_not, hmask i hi, hlma]
  by_cases h10 : i = 10 <;> simp [h10, hi]

/-- A write of IA32_EFER changes named bits only when it differs from what RDMSR returns in LME at most. -/
theorem changesOutside_eferNamed_eq_false_iff {v : MsrWord} {s : State} :
    changesOutside eferNamed (eferValue s) v = false ↔ SameBitsBut [8, 10] s.efer v ∧ v.getLsbD 10 = s.lma := by
  rw [changesOutside_eq_false_iff_sameBitsBut eferNamed_bits]
  simp only [SameBitsBut, List.mem_cons, List.not_mem_nil, or_false, not_or]
  constructor
  · intro h
    refine ⟨fun i hi hne => ?_, ?_⟩
    · rw [h i hi hne.1, eferValue_getLsbD s hi, if_neg hne.2]
    · rw [h 10 (by decide) (by decide), eferValue_getLsbD s (by decide), if_pos rfl]
  · rintro ⟨h, hlma⟩ i hi hne
    rw [eferValue_getLsbD s hi]
    split_ifs with h10
    · rw [h10, hlma]
    · exact h i hi ⟨hne, h10⟩

theorem readEdxEax_getLsbD_low (s : State) {i : Nat} (hi : i < 32) :
    (readEdxEax s).getLsbD i = (readGpr s .eax).getLsbD i := by
  rw [readEdxEax, BitVec.getLsbD_append, if_pos hi]

/-- What WRMSR leaves in IA32_EFER: bit 8 of the value written, every other bit as it was. -/
theorem eferWritten_getLsbD (old v : MsrWord) {i : Nat} (hi : i < 64) :
    ((old &&& ~~~eferNamed) ||| (v &&& eferNamed)).getLsbD i = if i = 8 then v.getLsbD i else old.getLsbD i := by
  have hmask : eferNamed.getLsbD i = decide (i = 8) := by
    rw [Bool.eq_iff_iff, eferNamed_bits i hi, List.mem_singleton, decide_eq_true_eq]
  simp only [BitVec.getLsbD_or, BitVec.getLsbD_and, BitVec.getLsbD_not, hmask, hi, decide_true, Bool.true_and]
  by_cases h8 : i = 8 <;> simp [h8]

/-! ### Outside CPL 0, and register numbers other than IA32_EFER's -/

theorem wrmsrTo_outside_cpl0 {s : State} (h : s.cpl ≠ 0) (idx : Word) (v : MsrWord) : wrmsrTo idx v s = raiseGP0 s := by
  rw [wrmsrTo, if_pos h]

theorem movFromCr_outside_cpl0 {s : State} (h : s.cpl ≠ 0) (n : CtlReg) (f : Word → Res State) :
    andThen (movFromCr n s) f = raiseGP0 s := by
  rw [movFromCr, if_pos h]
  rfl

theorem rdmsrFrom_outside_cpl0 {s : State} (h : s.cpl ≠ 0) (idx : Word) (f : MsrWord → Res State) :
    andThen (rdmsrFrom idx s) f = raiseGP0 s := by
  rw [rdmsrFrom, if_pos h]
  rfl

theorem movFromCr_at_cpl0 {s : State} (h : s.cpl = 0) (n : CtlReg) : movFromCr n s = .next (ctlRegValue s n) := by
  rw [movFromCr, if_neg (not_not.mpr h)]

theorem rdmsrFrom_efer_at_cpl0 {s : State} (h : s.cpl = 0) (hefer : s.params.features.efer = true) :
    rdmsrFrom eferIndex s = .next (eferValue s) := by
  rw [rdmsrFrom, if_neg (not_not.mpr h), if_neg (not_not.mpr rfl), if_neg (by simp [hefer])]

theorem rdmsrFrom_efer_absent {s : State} (hefer : s.params.features.efer = false) :
    rdmsrFrom eferIndex s = raiseGP0 s := by
  rw [rdmsrFrom]
  split_ifs with hcpl hidx habsent
  · rfl
  · exact absurd rfl hidx
  · rfl
  · simp [hefer] at habsent

end Sys2Proof.Machine

namespace Sys2Proof.Proofs

open Sys2Proof.Machine

/-! ### Writes of control registers and IA32_EFER that complete -/

/-- Settles O12. -/
theorem movToCr0Completes : Obligations.MovToCr0Completes :=
  fun _ _ _ hok hsame => movToCr0_of_named hok hsame

/-- Settles O13. -/
theorem movToCr3LoadsCr3OrFaults : Obligations.MovToCr3LoadsCr3OrFaults := by
  intro md r s
  change (_ → movToCr3 (readGpr s r) s = _) ∧ (_ → movToCr3 (readGpr s r) s = _)
  rw [movToCr3]
  constructor <;> intro hcpl
  · rw [if_neg (not_not.mpr hcpl)]; rfl
  · rw [if_pos hcpl]; rfl

/-- Settles O14. -/
theorem movToCr4Completes : Obligations.MovToCr4Completes :=
  fun _ _ _ hok hsame => movToCr4_of_named hok hsame

/-- Settles O16: the value differs from what RDMSR returns in bit 8 at most, and only the bit under the mask is
written. -/
theorem wrmsrWritesLme : Obligations.WrmsrWritesLme := by
  intro s hidx (hok : ¬ EferWriteFaults (readEdxEax s) s) (hsame : SameBitsBut [8, 10] s.efer (readEdxEax s)) hlma
  have hlma' : (readEdxEax s).getLsbD 10 = s.lma := (readEdxEax_getLsbD_low s (by decide)).trans hlma
  refine ⟨s.setEfer ((s.efer &&& ~~~eferNamed) ||| (readEdxEax s &&& eferNamed)), ?_, ?_, ?_, rfl⟩
  · rw [exec_wrmsr_efer hidx, wrmsrTo_efer_of_not_faults hok,
      changesOutside_eferNamed_eq_false_iff.mpr ⟨hsame, hlma'⟩]
    rfl
  · rw [State.setEfer_efer, eferWritten_getLsbD _ _ (by decide), if_pos rfl, readEdxEax_getLsbD_low s (by decide)]
  · intro i hi hne
    rw [State.setEfer_efer, eferWritten_getLsbD _ _ hi, if_neg (by simpa using hne)]

/-! ### Reads -/

/-- A general register written: it alone changes. -/
theorem writeGpr_frame (r : Reg) (v : Word) (s : State) :
    ∃ t, (.next (writeGpr r v s) : Res State) = .next t ∧ readGpr t r = v
      ∧ (∀ r', r' ≠ r → readGpr t r' = readGpr s r') ∧ t = { s with gprs := t.gprs } := by
  refine ⟨writeGpr r v s, rfl, readGpr_writeGpr_same r v s, fun r' hr => readGpr_writeGpr_other v s hr, ?_⟩
  obtain ⟨g, hg⟩ := writeGpr_eq_setGprs r v s
  rw [hg]
  rfl

/-- MOV r32, CRn at CPL 0, for each control register. -/
theorem movFromCr_frame {s : State} (hcpl : s.cpl = 0) (n : CtlReg) (r : Reg) :
    ∃ t, (andThen (movFromCr n s) fun v => .next (writeGpr r v s)) = .next t ∧ readGpr t r = ctlRegValue s n
      ∧ (∀ r', r' ≠ r → readGpr t r' = readGpr s r') ∧ t = { s with gprs := t.gprs } := by
  rw [movFromCr_at_cpl0 hcpl, andThen_next]
  exact writeGpr_frame r _ s

/-- Settles O15. -/
theorem movFromControlRegistersWritesTheRegister : Obligations.MovFromControlRegistersWritesTheRegister :=
  fun _ r _ hcpl => ⟨movFromCr_frame hcpl .cr0 r, movFromCr_frame hcpl .cr3 r, movFromCr_frame hcpl .cr4 r⟩

theorem exec_rdmsr_efer {s : State} (hidx : readGpr s .ecx = eferIndex) :
    exec .rdmsr s = andThen (rdmsrFrom eferIndex s) fun v => .next (writeEdxEax v s) := by
  rw [← hidx]
  rfl

/-- EAX and EDX after a 64-bit value is written to the pair. -/
theorem readGpr_writeEdxEax (v : MsrWord) (s : State) :
    readGpr (writeEdxEax v s) .eax = v.extractLsb' 0 32 ∧ readGpr (writeEdxEax v s) .edx = v.extractLsb' 32 32 :=
  ⟨rfl, rfl⟩

/-- Settles O17: the two halves of the value are its bits 31:0 and 63:32, and bit 10 is LMA. -/
theorem rdmsrReturnsEferWithLma : Obligations.RdmsrReturnsEferWithLma := by
  intro s hcpl hidx hefer
  obtain ⟨heax, hedx⟩ := readGpr_writeEdxEax (eferValue s) s
  refine ⟨writeEdxEax (eferValue s) s, ?_, fun i hi => ?_, fun i hi => ?_, fun r ha hd => ?_, rfl⟩
  · rw [exec_rdmsr_efer hidx, rdmsrFrom_efer_at_cpl0 hcpl hefer, andThen_next]
  · rw [heax, BitVec.getLsbD_extractLsb', decide_eq_true hi, Bool.true_and, Nat.zero_add,
      eferValue_getLsbD s (by omega), State.lma]
  · rw [hedx, BitVec.getLsbD_extractLsb', decide_eq_true hi, Bool.true_and, eferValue_getLsbD s (by omega),
      if_neg (by omega)]
  · rw [writeEdxEax, readGpr_writeGpr_other _ _ hd, readGpr_writeGpr_other _ _ ha]

/-! ### Faults and refusals -/

/-- Settles O19: each attempt is one of the conditions of its register write, or reads a number not implemented. -/
theorem theAddedForbiddenChangesFault : Obligations.TheAddedForbiddenChangesFault := by
  refine ⟨fun md r s => ⟨fun hpg hpe => ?pgWithoutPe, fun hon hclear hpcide => ?pgOffWithPcide,
    fun hfeature hoff hset hwhy => ?pcide⟩, fun s hidx hefer => ⟨?wrmsr, ?rdmsr⟩⟩
  case pgWithoutPe => exact movToCr0_of_faults (.inr (.inl ⟨hpg, hpe⟩))
  case pgOffWithPcide => exact movToCr0_of_faults (.inr (.inr (.inr ⟨hon, hclear, hpcide⟩)))
  case pcide =>
    have hpcide : cr4Pcide s.params.features (readGpr s r) = true := by rw [cr4Pcide, hfeature, hset]; rfl
    refine movToCr4_of_faults (.inr (.inr ⟨hoff, hpcide, hwhy.imp_left fun hlma hon => ?_⟩))
    rw [State.lma, hon.1, hon.2] at hlma
    exact absurd hlma nofun
  case wrmsr => exact (exec_wrmsr_efer hidx).trans (wrmsrTo_efer_of_faults (.inr (.inl hefer)))
  case rdmsr =>
    rw [exec_rdmsr_efer hidx, rdmsrFrom_efer_absent hefer]
    rfl

/-- Settles O20: every operation on these registers looks at CPL first. -/
theorem everyInstructionNeedsPrivilegeLevelZero : Obligations.EveryInstructionNeedsPrivilegeLevelZero := by
  intro i s hcpl
  cases i with
  | movCr0R32 md r => exact movToCr0_of_faults (.inl hcpl)
  | movCr3R32 md r => exact (movToCr3LoadsCr3OrFaults md r s).2 hcpl
  | movCr4R32 md r => exact movToCr4_of_faults (.inl hcpl)
  | wrmsr => exact wrmsrTo_outside_cpl0 hcpl _ _
  | rdmsr => exact rdmsrFrom_outside_cpl0 hcpl _ _
  | movR32Cr0 md r | movR32Cr3 md r | movR32Cr4 md r => exact movFromCr_outside_cpl0 hcpl _ _

theorem changesOutside_eq_true_of_not_sameBitsBut {n : Nat} {named old new : BitVec n} {positions : List Nat}
    (hpos : ∀ i < n, named.getLsbD i = true ↔ i ∈ positions) (h : ¬ SameBitsBut positions old new) :
    changesOutside named old new = true := by
  rw [← Bool.not_eq_false]
  exact fun hc => h ((changesOutside_eq_false_iff_sameBitsBut hpos).mp hc)

/-- Settles O22: past the faults, what is left to check is the named bits; and another register number is refused
before anything else is looked at but CPL. -/
theorem unnamedBitsAndRegistersAreRefused : Obligations.UnnamedBitsAndRegistersAreRefused := by
  refine ⟨fun md r s hok hdiff => ?cr0, fun md r s hok hdiff => ?cr4,
    fun s hidx (hok : ¬ EferWriteFaults (readEdxEax s) s) hdiff => ?efer,
    fun s hcpl (hidx : readGpr s .ecx ≠ eferIndex) => ⟨?wrmsr, ?rdmsr⟩⟩
  case cr0 =>
    change movToCr0 _ _ = _
    rw [movToCr0_of_not_faults hok, changesOutside_eq_true_of_not_sameBitsBut cr0Named_bits hdiff, if_pos rfl]
  case cr4 =>
    change movToCr4 _ _ = _
    rw [movToCr4_of_not_faults hok, changesOutside_eq_true_of_not_sameBitsBut (cr4Named_bits _) hdiff, if_pos rfl]
  case efer =>
    have hout : changesOutside eferNamed (eferValue s) (readEdxEax s) = true := by
      rw [← Bool.not_eq_false, changesOutside_eferNamed_eq_false_iff, readEdxEax_getLsbD_low s (by decide)]
      exact hdiff
    rw [exec_wrmsr_efer hidx, wrmsrTo_efer_of_not_faults hok, hout, if_pos rfl]
  case wrmsr =>
    change wrmsrTo (readGpr s .ecx) _ s = _
    rw [wrmsrTo, if_neg (not_not.mpr hcpl), if_pos hidx]
  case rdmsr =>
    change andThen (rdmsrFrom (readGpr s .ecx) s) _ = _
    rw [rdmsrFrom, if_neg (not_not.mpr hcpl), if_pos hidx, andThen_refused]

/-! ### The frame (41_mode_enabling R130) -/

/-- Settles O23: each instruction, when it completes, has updated its own register and what walks remembered. -/
theorem instructionsTouchOnlyTheirRegisters : Obligations.InstructionsTouchOnlyTheirRegisters := by
  intro i s t h
  cases i with
  | movCr0R32 md r =>
    obtain ⟨-, -, -, rfl⟩ := movToCr0_next h
    simp
  | movCr3R32 md r =>
    obtain ⟨-, rfl⟩ := movToCr3_next h
    simp [forgetWalks]
  | movCr4R32 md r =>
    obtain ⟨-, -, rfl⟩ := movToCr4_next h
    simp
  | wrmsr =>
    obtain ⟨-, -, -, -, rfl⟩ := wrmsrTo_next h
    simp
  | rdmsr =>
    obtain ⟨v, -, h⟩ := andThen_eq_next.mp h
    obtain rfl : s.setGprs _ = t := Host.Outcome.next.inj h
    simp
  | movR32Cr0 md r | movR32Cr3 md r | movR32Cr4 md r =>
    obtain ⟨v, -, h⟩ := andThen_eq_next.mp h
    obtain ⟨g, hg⟩ := writeGpr_eq_setGprs r v s
    obtain rfl : s.setGprs g = t := hg.symm.trans (Host.Outcome.next.inj h)
    simp

/-! ### Changes of the paging mode by one instruction (41_mode_enabling R140, R141) -/

/-- Settles O26: a value with bit 31 clear meets no condition of a fault, and differs in bit 31 at most. -/
theorem clearingPgDisablesPaging : Obligations.ClearingPgDisablesPaging := by
  intro md r s hcpl hpcide hv
  have hmask : ∀ i < 32, i ≠ 31 → (0x7FFFFFFF : Word).getLsbD i = true := by decide
  have hclear : (readGpr s r).getLsbD 31 = false := by
    rw [hv, BitVec.getLsbD_and, show (0x7FFFFFFF : Word).getLsbD 31 = false by decide, Bool.and_false]
  have hok : ¬ Cr0WriteFaults (readGpr s r) s := by
    rintro (hf | ⟨hset, -⟩ | ⟨-, hset, -⟩ | ⟨-, -, hon⟩)
    · exact hf hcpl
    · exact absurd (hclear.symm.trans hset) nofun
    · exact absurd (hclear.symm.trans hset) nofun
    · exact absurd (hpcide.symm.trans hon) nofun
  have hsame : SameBitsBut [0, 16, 31] s.cr0 (readGpr s r) := fun i hi hne => by
    rw [hv, BitVec.getLsbD_and, hmask i hi fun h31 => hne (by simp [h31]), Bool.and_true]
  exact ⟨_, movToCr0Completes md r s hok hsame, (pagingMode_eq_noPaging_iff _).mpr hclear, hv, rfl, rfl, rfl⟩

/-- Settles O27: PAE is inverted, and PG, LME and PCIDE stay. -/
theorem changingPaeSwitchesBetween32BitAndPae : Obligations.ChangingPaeSwitchesBetween32BitAndPae := by
  intro md r s hcpl hfeature hpg hlme hv
  have hmask : ∀ i < 32, (0x20 : Word).getLsbD i = decide (i = 5) := by decide
  have hbit : ∀ i < 32, (readGpr s r).getLsbD i = (s.cr4.getLsbD i ^^ decide (i = 5)) := fun i hi => by
    rw [hv, BitVec.getLsbD_xor, hmask i hi]
  have hpcide : cr4Pcide s.params.features (readGpr s r) = s.pcide := by
    rw [cr4Pcide, hbit 17 (by decide), State.pcide, cr4Pcide]
    simp
  have hok : ¬ Cr4WriteFaults (readGpr s r) s := by
    simp +contextual [Cr4WriteFaults, hcpl, hlme, hpcide]
  have hsame : SameBitsBut (cr4NamedBits s.params.features) s.cr4 (readGpr s r) := fun i hi hne => by
    have h5 : i ≠ 5 := fun h => hne (by simp [cr4NamedBits, hfeature, h])
    rw [hbit i hi, decide_eq_false h5, Bool.xor_false]
  have hpae : cr4Pae s.params.features (readGpr s r) = !s.pae := by
    rw [pae_eq_cr4_bit hfeature, cr4Pae, hfeature, Bool.true_and, hbit 5 (by decide)]
    simp
  refine ⟨_, movToCr4Completes md r s hok hsame, ?_, ?_⟩ <;>
    rw [pagingMode_eq_paging32_iff, pagingMode_eq_pagingPae_iff]
  · rintro ⟨-, hoff⟩
    exact ⟨hpg, hpae.trans (by rw [hoff]; rfl), hlme⟩
  · rintro ⟨-, hon, -⟩
    exact ⟨hpg, hpae.trans (by rw [hon]; rfl)⟩

/-! ### Writes that make translations certain (70_reset_and_hazards R268) -/

theorem settled_of_walked_nil {s : State} (h : s.walked = []) : Settled s := by
  simp [Settled, h]

/-- A MOV to CR0 that completed met no condition of a fault and changed named bits only. -/
theorem movToCr0_completed {v : Word} {s t : State} (h : movToCr0 v s = .next t) :
    ¬ Cr0WriteFaults v s ∧ SameBitsBut [0, 16, 31] s.cr0 v := by
  have hok : ¬ Cr0WriteFaults v s := fun hf => by
    rw [movToCr0_of_faults hf] at h
    cases h
  refine ⟨hok, ?_⟩
  by_contra hdiff
  rw [movToCr0_of_not_faults hok, changesOutside_eq_true_of_not_sameBitsBut cr0Named_bits hdiff] at h
  cases h

/-- A MOV to CR4 that completed met no condition of a fault and changed named bits only. -/
theorem movToCr4_completed {v : Word} {s t : State} (h : movToCr4 v s = .next t) :
    ¬ Cr4WriteFaults v s ∧ SameBitsBut (cr4NamedBits s.params.features) s.cr4 v := by
  have hok : ¬ Cr4WriteFaults v s := fun hf => by
    rw [movToCr4_of_faults hf] at h
    cases h
  refine ⟨hok, ?_⟩
  by_contra hdiff
  rw [movToCr4_of_not_faults hok, changesOutside_eq_true_of_not_sameBitsBut (cr4Named_bits _) hdiff] at h
  cases h

/-- Settles O57: each of the three writes forgets what walks remembered. -/
theorem modeWritesMakeTranslationsCertain : Obligations.ModeWritesMakeTranslationsCertain := by
  refine fun v s t => ⟨fun h => ?cr3, fun h hchange => ?cr0, fun h hchange => ?cr4⟩ <;> apply settled_of_walked_nil
  case cr3 =>
    obtain ⟨-, rfl⟩ := movToCr3_next h
    rfl
  case cr0 =>
    obtain ⟨hok, hsame⟩ := movToCr0_completed h
    obtain rfl := Host.Outcome.next.inj ((movToCr0_of_named hok hsame).symm.trans h)
    exact if_neg fun hkept => hchange.elim (absurd hkept.1) (absurd hkept.2)
  case cr4 =>
    obtain ⟨hok, hsame⟩ := movToCr4_completed h
    obtain rfl := Host.Outcome.next.inj ((movToCr4_of_named hok hsame).symm.trans h)
    obtain ⟨i, hi, hne⟩ := hchange
    exact if_neg fun hkept => hne (hkept i hi)

end Sys2Proof.Proofs
end

section
/-! PROOFS. What a walk gives: addresses, rights, page faults and stale entries (43_32bit_paging, 40_paging_modes
R117, 60_exceptions R233 to R235, 70_reset_and_hazards R268). -/

namespace Sys2Proof.Machine

open Sys2Proof.Proofs

/-! ### The error code (60_exceptions R235) -/

theorem errorCode_getLsbD (s : State) (acc : Access) (p rsvd : Bool) {i : Nat} (hi : i < 32) :
    (errorCode s acc p rsvd).getLsbD i =
      ((p && decide (i = 0)) || (decide (acc.kind = .write) && decide (i = 1))
        || (decide (acc.mode = .user) && decide (i = 2)) || (rsvd && decide (i = 3))
        || ((decide (acc.kind = .fetch) && s.smep) && decide (i = 4))) := by
  simp only [errorCode, BitVec.getLsbD_or, bitIf_getLsbD _ hi]

theorem errorCode_p (s : State) (acc : Access) (p rsvd : Bool) : (errorCode s acc p rsvd).getLsbD 0 = p := by
  rw [errorCode_getLsbD _ _ _ _ (by decide)]
  simp

theorem errorCode_rsvd (s : State) (acc : Access) (p rsvd : Bool) : (errorCode s acc p rsvd).getLsbD 3 = rsvd := by
  rw [errorCode_getLsbD _ _ _ _ (by decide)]
  simp

/-- The code of a 4-MByte PDE that ends the walk says P = 0 or RSVD exactly where a reserved bit is set. -/
theorem finish4M_pageFault_code {s : State} {la code : Word} {acc : Access} {pde : EntryRead} {fl : List FlagUpdate}
    (h : finish4M s la acc pde = .pageFault code fl) :
    (code.getLsbD 0 = false ∨ code.getLsbD 3 = true) ↔ hasReserved (reservedPde4M s.params) pde.value = true := by
  unfold finish4M at h
  split_ifs at h with hres hdeny <;> obtain ⟨rfl, -⟩ := Translation.pageFault.inj h <;>
    rw [errorCode_p, errorCode_rsvd]
  · simp [hres]
  · simp [hres]

/-- The code of a PTE that ends the walk says P = 0 or RSVD exactly where the PTE has one or the other. -/
theorem finish4K_pageFault_code {s : State} {la code : Word} {acc : Access} {pde pte : EntryRead}
    {fl : List FlagUpdate} (h : finish4K s la acc pde pte = .pageFault code fl) :
    (code.getLsbD 0 = false ∨ code.getLsbD 3 = true) ↔
      (!entryP pte.value || hasReserved (reservedPte s.params) pte.value) = true := by
  unfold finish4K at h
  split_ifs at h with hp hres hdeny <;> obtain ⟨rfl, -⟩ := Translation.pageFault.inj h <;>
    rw [errorCode_p, errorCode_rsvd]
  · simp [hp]
  · simp [hres]
  · simp [hp, hres]

/-! ### Access rights (43_32bit_paging R207) -/

theorem accessPermitted_standard {s : State} (h : s.params.accessRights = .standard) (acc : Access) (pde : Word)
    (pte : Option Word) :
    accessPermitted s acc pde pte = standardRights s acc (combinedUs pde pte) (combinedRw pde pte) := by
  simp only [accessPermitted, h]

theorem standardRights_user {s : State} {acc : Access} {us rw : Bool} (hm : acc.mode = .user)
    (h : standardRights s acc us rw = true) : us = true ∧ (acc.kind = .write → rw = true) := by
  cases hk : acc.kind <;> simp only [standardRights, hm, hk, Bool.and_eq_true] at h
  case write => exact ⟨h.1, fun _ => h.2⟩
  case read | fetch => exact ⟨h, nofun⟩

theorem standardRights_supervisor {s : State} {acc : Access} {us rw : Bool} (hm : acc.mode = .supervisor)
    (h : standardRights s acc us rw = true) :
    (acc.kind = .write → s.wp = true → rw = true) ∧ (acc.kind = .fetch → s.smep = true → us = false)
      ∧ (acc.kind ≠ .fetch → s.smap = true → us = true → s.ac = true ∧ acc.explicit = true) := by
  cases hk : acc.kind <;> simp only [standardRights, hm, hk] at h
  case read => exact ⟨nofun, nofun, fun _ hsmap hus => by simpa [hsmap, hus] using h⟩
  case write =>
    obtain ⟨hwrite, huser⟩ := (Bool.and_eq_true _ _).mp h
    exact ⟨fun _ hwp => by simpa [hwp] using hwrite, nofun, fun _ hsmap hus => by simpa [hsmap, hus] using huser⟩
  case fetch => exact ⟨nofun, fun _ hsmep => by simpa [hsmep] using h, fun hne => absurd rfl hne⟩

/-! ### Frames (40_paging_modes R117) -/

theorem pdeAddr_of_same_region {la la' : Word} (h : la.toNat / 4096 = la'.toNat / 4096) (cr3 : Word) :
    pdeAddr cr3 la = pdeAddr cr3 la' := by
  apply BitVec.eq_of_toNat_eq
  rw [pdeAddr_toNat, pdeAddr_toNat]
  omega

theorem pteAddr_of_same_region {la la' : Word} (h : la.toNat / 4096 = la'.toNat / 4096) (pde : Word) :
    pteAddr pde la = pteAddr pde la' := by
  apply BitVec.eq_of_toNat_eq
  rw [pteAddr_toNat, pteAddr_toNat]
  omega

/-- The offset in a 4-KByte region is the linear address's, however the address is mapped. -/
theorem MappedBy.offset {s t : State} {la : Word} {acc : Access} {pa : PhysAddr} (h : MappedBy s la acc pa t) :
    pa.toNat % 4096 = la.toNat % 4096 := by
  cases h with
  | unpaged _ hpa _ => rw [hpa, unpagedAddr_toNat]
  | page4M pde _ _ _ _ _ hpa => rw [hpa, page4MAddr_toNat]; omega
  | page4K pde pte s1 _ _ _ _ _ hpa => rw [hpa, page4KAddr_toNat]; omega

/-- Two addresses of one region read the same entries, so their frames are one. -/
theorem MappedBy.frame {s t t' : State} {la la' : Word} {acc : Access} {pa pa' : PhysAddr}
    (hla : la.toNat / 4096 = la'.toNat / 4096) (h : MappedBy s la acc pa t) (h' : MappedBy s la' acc pa' t') :
    pa.toNat / 4096 = pa'.toNat / 4096 := by
  cases h with
  | unpaged hmode hpa _ =>
    cases h' with
    | unpaged _ hpa' _ => rw [hpa, hpa', unpagedAddr_toNat, unpagedAddr_toNat, hla]
    | page4M _ hmode' | page4K _ _ _ hmode' => exact absurd (hmode.symm.trans hmode') nofun
  | page4M pde hmode hpde hbig _ _ hpa =>
    rw [pdeAddr_of_same_region hla] at hpde
    cases h' with
    | unpaged hmode' => exact absurd (hmode.symm.trans hmode') nofun
    | page4M pde' _ hpde' _ _ _ hpa' =>
      obtain ⟨rfl, rfl⟩ : pde = pde' ∧ t = t' := by simpa [hpde] using hpde'
      rw [hpa, hpa', page4MAddr_toNat, page4MAddr_toNat]
      omega
    | page4K pde' _ _ _ hpde' hsmall =>
      obtain ⟨rfl, -⟩ : pde = pde' ∧ _ := by simpa [hpde] using hpde'
      exact absurd (hbig.symm.trans hsmall) nofun
  | page4K pde pte s1 hmode hpde hsmall hpte _ hpa =>
    rw [pdeAddr_of_same_region hla] at hpde
    cases h' with
    | unpaged hmode' => exact absurd (hmode.symm.trans hmode') nofun
    | page4M pde' _ hpde' hbig =>
      obtain ⟨rfl, -⟩ : pde = pde' ∧ _ := by simpa [hpde] using hpde'
      exact absurd (hbig.symm.trans hsmall) nofun
    | page4K pde' pte' s1' _ hpde' _ hpte' _ hpa' =>
      obtain ⟨rfl, rfl⟩ : pde = pde' ∧ s1 = s1' := by simpa [hpde] using hpde'
      rw [pteAddr_of_same_region hla] at hpte
      obtain ⟨rfl, -⟩ : pte = pte' ∧ _ := by simpa [hpte] using hpte'
      rw [hpa, hpa', page4KAddr_toNat, page4KAddr_toNat]
      omega

/-! ### The width of a physical address (43_32bit_paging R203, R212, R215) -/

theorem unpagedAddr_lt (la : Word) : (unpagedAddr la).toNat < 2 ^ 32 := by
  rw [unpagedAddr_toNat]
  exact la.isLt

theorem page4KAddr_lt (pte la : Word) : (page4KAddr pte la).toNat < 2 ^ 32 := by
  have hpte := pte.isLt
  rw [page4KAddr_toNat]
  omega

theorem two_pow_32_le_physBits (p : Params) : 2 ^ 32 ≤ 2 ^ p.physBits :=
  Nat.pow_le_pow_right (by decide) (Nat.le_add_right _ _)

theorem hasReserved_eq_false {mask e : Word} (h : hasReserved mask e = false) {i : Nat} (hi : mask.getLsbD i = true) :
    e.getLsbD i = false := by
  have hz : e &&& mask = 0 := by simpa [hasReserved] using h
  have hbit := congrArg (fun v => v.getLsbD i) hz
  simpa [hi] using hbit

/-- Bits 20:13 of a 4-MByte PDE, by position: those that supply no bit of the M-bit space are reserved. -/
theorem reservedPde4M_bit (p : Params) {k : Nat} (hk : k < 8) (hm : p.physBits - 32 ≤ k) :
    (reservedPde4M p).getLsbD (13 + k) = true := by
  have hmask : ∀ k < 8, (0x001FE000 : Word).getLsbD (13 + k) = true := by decide
  have hall : ∀ k < 8, (0x003FE000 : Word).getLsbD (13 + k) = true := by decide
  rw [reservedPde4M, BitVec.getLsbD_or]
  cases p.pse36 with
  | false =>
    simp only [Bool.false_eq_true, if_false]
    rw [hall k hk, Bool.or_true]
  | true =>
    have hlow : p.physBits - 19 + (13 + k - (p.physBits - 19)) = 13 + k := by
      have : 32 ≤ p.physBits := Nat.le_add_right _ _
      omega
    simp only [if_true]
    rw [pdeBitsAboveM, BitVec.getLsbD_shiftLeft, BitVec.getLsbD_ushiftRight, hlow, hmask k hk,
      decide_eq_true (by omega), decide_eq_false (by omega)]
    simp

/-- A 4-MByte PDE without reserved bits maps inside the M-bit space. -/
theorem page4MAddr_lt {p : Params} {pde : Word} (h : hasReserved (reservedPde4M p) pde = false) (la : Word) :
    (page4MAddr pde la).toNat < 2 ^ p.physBits := by
  have hbits : (pde.extractLsb' 13 8).toNat < 2 ^ (p.physBits - 32) := by
    refine Nat.lt_pow_two_of_testBit _ fun k hk => ?_
    rw [BitVec.testBit_toNat, BitVec.getLsbD_extractLsb']
    by_cases h8 : k < 8
    · rw [hasReserved_eq_false h (reservedPde4M_bit p h8 hk), Bool.and_false]
    · rw [decide_eq_false h8, Bool.false_and]
  have hlow : pde.toNat / 2 ^ 22 * 2 ^ 22 + la.toNat % 2 ^ 22 < 2 ^ 32 := by
    have hpde := pde.isLt
    omega
  have hsplit : 2 ^ p.physBits = 2 ^ (p.physBits - 32) * 2 ^ 32 := by
    have hm : 32 ≤ p.physBits := Nat.le_add_right _ _
    rw [← pow_add, Nat.sub_add_cancel hm]
  rw [BitVec.extractLsb'_toNat, Nat.shiftRight_eq_div_pow] at hbits
  rw [page4MAddr_toNat, hsplit, Nat.add_assoc]
  calc pde.toNat / 2 ^ 13 % 2 ^ 8 * 2 ^ 32 + (pde.toNat / 2 ^ 22 * 2 ^ 22 + la.toNat % 2 ^ 22)
      < pde.toNat / 2 ^ 13 % 2 ^ 8 * 2 ^ 32 + 2 ^ 32 := Nat.add_lt_add_left hlow _
    _ = (pde.toNat / 2 ^ 13 % 2 ^ 8 + 1) * 2 ^ 32 := (Nat.succ_mul _ _).symm
    _ ≤ 2 ^ (p.physBits - 32) * 2 ^ 32 := Nat.mul_le_mul_right _ hbits

theorem MappedBy.lt_physBits {s t : State} {la : Word} {acc : Access} {pa : PhysAddr} (h : MappedBy s la acc pa t) :
    pa.toNat < 2 ^ s.params.physBits := by
  cases h with
  | unpaged _ hpa _ => exact hpa ▸ (unpagedAddr_lt la).trans_le (two_pow_32_le_physBits _)
  | page4M pde _ _ _ hres _ hpa => exact hpa ▸ page4MAddr_lt hres la
  | page4K pde pte s1 _ _ _ _ _ hpa => exact hpa ▸ (page4KAddr_lt pte.value la).trans_le (two_pow_32_le_physBits _)

/-! ### The iterative procedure of 32-bit paging (42_hierarchical_overview R166) -/

theorem entryAt_four (m : List Host.Cell) (a : Nat) : entryAt m a 4 = (wordAt m a).setWidth 64 := rfl

theorem setWidth_32_of_64 (w : Word) : (w.setWidth 64).setWidth 32 = w := by
  rw [BitVec.setWidth_setWidth_of_le _ (by decide), BitVec.setWidth_eq]

theorem toNat_setWidth_64 (w : Word) : (w.setWidth 64).toNat = w.toNat :=
  BitVec.toNat_setWidth_of_le (by decide)

theorem entryPresent_setWidth (w : Word) : entryPresent (w.setWidth 64) = entryP w := by
  simp [entryPresent, entryP]

theorem entryPageSize_setWidth (w : Word) : entryPageSize (w.setWidth 64) = entryPs w := by
  simp [entryPageSize, entryPs]

/-- The entry a slice of ten bits selects. -/
theorem entryAddr_paging32 (slices : List Slice) {hi lo : Nat} (hsl : Slice.entries ⟨hi, lo⟩ = 1024) (table la : Nat) :
    (WalkParams.mk 32 4 slices).entryAddr ⟨hi, lo⟩ table la = table / 4096 * 4096 + la / 2 ^ lo % 1024 * 4 := by
  simp only [WalkParams.entryAddr, WalkParams.structureBytes, Slice.index, hsl]

/-- The last step of the procedure: the PTE ends it, or maps a 4-KByte page (43_32bit_paging R199 to R203). -/
theorem walkFrom_pageTable (s : State) (slices : List Slice) {pde pte la : Word}
    (hpte : pte = wordAt s.mem (pteAddr pde la).toNat) :
    walkFrom ⟨32, 4, slices⟩ (rules32 s) (fun a => entryAt s.mem a 4) la.toNat [⟨21, 12⟩] (pde.toNat / 2 ^ 12 * 2 ^ 12)
      = if !entryP pte || hasReserved (reservedPte s.params) pte then none else some (page4KAddr pte la).toNat := by
  have haddr : (WalkParams.mk 32 4 slices).entryAddr ⟨21, 12⟩ (pde.toNat / 2 ^ 12 * 2 ^ 12) la.toNat
      = (pteAddr pde la).toNat := by
    rw [entryAddr_paging32 slices rfl, pteAddr_toNat]
    omega
  have hres : (rules32 s).reserved ⟨21, 12⟩ (pte.setWidth 64) = hasReserved (reservedPte s.params) pte := by
    simp only [rules32, if_true, setWidth_32_of_64]
  have hframe : (rules32 s).frame ⟨21, 12⟩ (pte.setWidth 64) = pte.toNat / 2 ^ 12 * 2 ^ 12 := by
    simp only [rules32, if_true, toNat_setWidth_64]
  simp only [walkFrom, haddr, entryAt_four, ← hpte, entryPresent_setWidth, hres, hframe, true_or, if_true]
  have hdiv : pte.toNat / 2 ^ 12 * 2 ^ 12 / 2 ^ 12 * 2 ^ 12 + pageOffset la.toNat 12 = (page4KAddr pte la).toNat := by
    rw [page4KAddr_toNat, pageOffset, Nat.mul_div_cancel _ (by decide)]
  rw [hdiv]

/-- The procedure over what memory holds, with the entries it reads named. -/
theorem genericWalk32_eq {s : State} {pde la : Word} (hpde : pde = wordAt s.mem (pdeAddr s.cr3 la).toNat) :
    genericWalk32 s la =
      if !entryP pde
          || hasReserved (if maps4M s pde then reservedPde4M s.params else reservedPdeTable s.params) pde then none
      else if maps4M s pde then some (page4MAddr pde la).toNat
      else if !entryP (wordAt s.mem (pteAddr pde la).toNat)
          || hasReserved (reservedPte s.params) (wordAt s.mem (pteAddr pde la).toNat) then none
      else some (page4KAddr (wordAt s.mem (pteAddr pde la).toNat) la).toNat := by
  have haddr : (WalkParams.mk 32 4 [⟨31, 22⟩, ⟨21, 12⟩]).entryAddr ⟨31, 22⟩ (s.cr3.toNat / 2 ^ 12 * 2 ^ 12) la.toNat
      = (pdeAddr s.cr3 la).toNat := by
    have hla := la.isLt
    rw [entryAddr_paging32 _ rfl, pdeAddr_toNat]
    omega
  have hres : (rules32 s).reserved ⟨31, 22⟩ (pde.setWidth 64)
      = hasReserved (if maps4M s pde then reservedPde4M s.params else reservedPdeTable s.params) pde := by
    simp only [rules32, setWidth_32_of_64]
    cases maps4M s pde <;> rfl
  have hframe : (rules32 s).frame ⟨31, 22⟩ (pde.setWidth 64) / 2 ^ 22 * 2 ^ 22 + pageOffset la.toNat 22
      = (page4MAddr pde la).toNat := by
    simp only [rules32, toNat_setWidth_64, pageOffset, page4MAddr_toNat]
    rw [if_neg (by decide)]
    omega
  have hps : (entryPs pde = true ∧ s.pse = true) ↔ maps4M s pde = true := by
    rw [maps4M, Bool.and_eq_true, and_comm]
  have hfirst : (rules32 s).first = s.cr3.toNat / 2 ^ 12 * 2 ^ 12 := rfl
  have hnext : (rules32 s).next (pde.setWidth 64) = pde.toNat / 2 ^ 12 * 2 ^ 12 := by
    simp only [rules32, toNat_setWidth_64]
  have hentry : entryAt s.mem (pdeAddr s.cr3 la).toNat 4 = pde.setWidth 64 := by
    rw [entryAt_four, hpde]
  have hhonours : (rules32 s).honoursPs ⟨31, 22⟩ = s.pse := rfl
  rw [genericWalk32, genericWalk, walkParams, Option.bind_some, hfirst, walkFrom]
  simp only [haddr, hentry, entryPresent_setWidth, entryPageSize_setWidth, hres, hframe, hnext, hhonours, hps,
    walkFrom_pageTable s _ rfl, show ¬ (22 = 12) by decide, show 12 < 22 by decide, false_or, true_and]

end Sys2Proof.Machine

namespace Sys2Proof.Proofs

open Sys2Proof.Machine

/-- Settles O42: every part of the code is one bit, and all positions are below 5. -/
theorem errorCodeBits : Obligations.ErrorCodeBits := by
  intro s acc p rsvd
  refine ⟨errorCode_p s acc p rsvd, ?_, ?_, errorCode_rsvd s acc p rsvd, ?_, fun i hi => ?_⟩
  · rw [errorCode_getLsbD _ _ _ _ (by decide)]
    simp
  · rw [errorCode_getLsbD _ _ _ _ (by decide)]
    simp
  · rw [errorCode_getLsbD _ _ _ _ (by decide)]
    simp
  · by_cases h32 : i < 32
    · rw [errorCode_getLsbD _ _ _ _ h32]
      simp [show i ≠ 0 by omega, show i ≠ 1 by omega, show i ≠ 2 by omega, show i ≠ 3 by omega, show i ≠ 4 by omega]
    · exact BitVec.getLsbD_of_ge _ _ (by omega)

/-- Settles O39: with nothing stale the walk reads what memory holds, and then each of its ends is one of the
procedure's. -/
theorem translationFollowsTheIterativeProcedure : Obligations.TranslationFollowsTheIterativeProcedure := by
  intro la acc s t r hmode hs h
  rw [translateLinear_eq_next_iff hmode] at h
  cases h with
  | notPresent pde s1 hpde hp =>
    have hnone : genericWalk32 s la = none := by
      simp [genericWalk32_eq (readEntry_value hs hpde), hp]
    refine ⟨nofun, fun code fl hr => ?_⟩
    obtain ⟨rfl, -⟩ := Translation.pageFault.inj hr
    simp only [hnone, errorCode_p, true_or]
  | reserved pde s1 hpde hp hbig hres =>
    have hnone : genericWalk32 s la = none := by
      simp [genericWalk32_eq (readEntry_value hs hpde), hbig, hres]
    refine ⟨nofun, fun code fl hr => ?_⟩
    obtain ⟨rfl, -⟩ := Translation.pageFault.inj hr
    simp only [hnone, errorCode_rsvd, or_true]
  | page4M pde s1 hpde hp hbig =>
    have hwalk : genericWalk32 s la = if hasReserved (reservedPde4M s.params) pde.value then none
        else some (page4MAddr pde.value la).toNat := by
      simp [genericWalk32_eq (readEntry_value hs hpde), hp, hbig]
    refine ⟨fun pa fl hr => ?_, fun code fl hr => ?_⟩
    · obtain ⟨hres, -, rfl, -⟩ := finish4M_eq_mapped.mp hr
      rw [hwalk, hres]
      rfl
    · rw [finish4M_pageFault_code hr, hwalk]
      split_ifs with hend
      · exact iff_of_true rfl hend
      · exact iff_of_false nofun hend
  | page4K pde pte s1 s2 hpde hp hbig hres hpte =>
    have hvalue : pte.value = wordAt s.mem (pteAddr pde.value la).toNat := by
      rw [readEntry_value (readEntry_keeps_settled hs hpde) hpte, readEntry_mem hpde]
    have hwalk : genericWalk32 s la = if !entryP pte.value || hasReserved (reservedPte s.params) pte.value then none
        else some (page4KAddr pte.value la).toNat := by
      simp [genericWalk32_eq (readEntry_value hs hpde), hp, hbig, hres, hvalue]
    refine ⟨fun pa fl hr => ?_, fun code fl hr => ?_⟩
    · obtain ⟨hpp, hpres, -, rfl, -⟩ := finish4K_eq_mapped.mp hr
      rw [hwalk, hpp, hpres]
      rfl
    · rw [finish4K_pageFault_code hr, hwalk]
      split_ifs with hend
      · exact iff_of_true rfl hend
      · exact iff_of_false nofun hend

/-- Settles O40: the entries are read as memory holds them, and the tests follow in the order of R209. -/
theorem notPresentReservedAndForbiddenEntriesPageFault :
    Obligations.NotPresentReservedAndForbiddenEntriesPageFault := by
  intro la acc s pde hmode hs hram hpde
  obtain ⟨s1, hread, hs1, hmem, hparams⟩ := readEntry_of_ram hs hram
  rw [← hpde] at hread
  have hend : ∀ {r : Translation} {u : State}, Walk32 s la acc r u → translateLinear la acc s = .next (r, u) :=
    (translateLinear_eq_next_iff hmode).mpr
  refine ⟨fun hp => ?pdeAbsent, fun hp hbig => ⟨fun hres => ?page4MReserved, fun hres hdeny => ?page4MDenied⟩,
    fun hp hbig hres => ?pdeReserved, fun hp hbig hres pte hram' hpte => ?pte⟩
  case pdeAbsent => exact ⟨s1, hend (.notPresent _ s1 hread hp)⟩
  case page4MReserved =>
    have h := hend (.page4M _ s1 hread hp hbig)
    rw [finish4M, if_pos hres] at h
    exact ⟨s1, h⟩
  case page4MDenied =>
    have h := hend (.page4M _ s1 hread hp hbig)
    rw [finish4M, if_neg (by simp [hres]), if_pos (by simp [hdeny])] at h
    exact ⟨s1, _, h⟩
  case pdeReserved => exact ⟨s1, hend (.reserved _ s1 hread hp hbig hres)⟩
  case pte =>
    have hram1 : EntryInRam s1 (pteAddr pde la).toNat := by rwa [EntryInRam, hparams]
    obtain ⟨s2, hread', -, -, -⟩ := readEntry_of_ram hs1 hram1
    rw [hmem, ← hpte] at hread'
    have h := hend (.page4K _ _ s1 s2 hread hp hbig hres hread')
    refine ⟨fun (hpp : entryP pte = false) => ?_, fun (hpp : entryP pte = true) hpres => ?_,
      fun (hpp : entryP pte = true) hpres hdeny => ?_⟩
    · rw [finish4K, if_pos (by simp [hpp])] at h
      exact ⟨s2, _, h⟩
    · rw [finish4K, if_neg (by simp [hpp]), if_pos hpres] at h
      exact ⟨s2, _, h⟩
    · rw [finish4K, if_neg (by simp [hpp]), if_neg (by simp [hpres]), if_pos (by simp [hdeny])] at h
      exact ⟨s2, _, h⟩

/-- Settles O43: the rights test passed, and under the default predicate it asks US of every entry used, and RW for a
write. -/
theorem userModeReachesUserPagesOnly : Obligations.UserModeReachesUserPagesOnly := by
  refine ⟨fun s k explicit => ?_, fun la acc s t pa fl hmode hstd huser h => ?_⟩
  · simp only [accessAt, modeAt, Bool.not_eq_false']
    split_ifs with hcpl
    · exact iff_of_true rfl hcpl
    · exact iff_of_false nofun hcpl
  · cases translateLinear_mapped h with
    | unpaged hmode' => exact absurd (hmode.symm.trans hmode') nofun
    | page4M pde _ hpde hbig _ hrights _ =>
      rw [accessPermitted_standard hstd] at hrights
      obtain ⟨hus, hrw⟩ := standardRights_user huser hrights
      exact ⟨pde, t, hpde, hus, hrw, fun hsmall => absurd (hbig.symm.trans hsmall) nofun⟩
    | page4K pde pte s1 _ hpde _ hpte hrights _ =>
      rw [accessPermitted_standard hstd] at hrights
      obtain ⟨hus, hrw⟩ := standardRights_user huser hrights
      simp only [combinedUs, combinedRw, Bool.and_eq_true] at hus hrw
      exact ⟨pde, s1, hpde, hus.1, fun hk => (hrw hk).1, fun _ => ⟨pte, t, hpte, hus.2, fun hk => (hrw hk).2⟩⟩

/-- Settles O44: the rights test passed with the US and RW of the entries used. -/
theorem supervisorModeObeysWpSmepAndSmap : Obligations.SupervisorModeObeysWpSmepAndSmap := by
  intro la acc s t pa fl hmode hstd hsup h
  cases translateLinear_mapped h with
  | unpaged hmode' => exact absurd (hmode.symm.trans hmode') nofun
  | page4M pde _ hpde hbig _ hrights _ =>
    rw [accessPermitted_standard hstd] at hrights
    exact ⟨pde, t, _, _, hpde, fun _ => ⟨rfl, rfl⟩, fun hsmall => absurd (hbig.symm.trans hsmall) nofun,
      standardRights_supervisor hsup hrights⟩
  | page4K pde pte s1 _ hpde hsmall hpte hrights _ =>
    rw [accessPermitted_standard hstd] at hrights
    exact ⟨pde, s1, _, _, hpde, fun hbig => absurd (hsmall.symm.trans hbig) nofun, fun _ => ⟨pte, t, hpte, rfl, rfl⟩,
      standardRights_supervisor hsup hrights⟩

/-- Settles O45. -/
theorem samePageTranslatesToSameFrame : Obligations.SamePageTranslatesToSameFrame := by
  intro la la' acc s t t' pa pa' fl fl' hla h h'
  have hmapped := translateLinear_mapped h
  exact ⟨hmapped.frame hla (translateLinear_mapped h'), hmapped.offset⟩

/-- Settles O46: unpaged addresses and those of 4-KByte pages have 32 bits. -/
theorem onlyFourMBytePagesLieAboveFourGBytes : Obligations.OnlyFourMBytePagesLieAboveFourGBytes := by
  intro la acc s t pa fl h habove
  cases translateLinear_mapped h with
  | unpaged _ hpa _ => exact absurd (hpa ▸ unpagedAddr_lt la) (Nat.not_lt.mpr habove)
  | page4K pde pte s1 _ _ _ _ _ hpa => exact absurd (hpa ▸ page4KAddr_lt pte.value la) (Nat.not_lt.mpr habove)
  | page4M pde hmode hpde hbig _ _ _ =>
    obtain ⟨hpse, hps⟩ := (Bool.and_eq_true _ _).mp hbig
    exact ⟨hmode, hpse, pde, t, hpde, hps⟩

/-- Settles O47. -/
theorem translatedAddressesFitTheImplementation : Obligations.TranslatedAddressesFitTheImplementation :=
  fun _ _ _ _ _ _ h => (translateLinear_mapped h).lt_physBits

/-- Settles O56: the PDE read is the present one, and the PTE read is the present one or a remembered one, which the
walk's own PDE cannot be. -/
theorem aStaleTranslationIsTheOldOrTheNew : Obligations.AStaleTranslationIsTheOldOrTheNew := by
  intro la acc s t pde old new pa fl hmode hpde hfresh hsmall hnew hold hne h
  have hvalue : ∀ e s1, readEntry (pdeAddr s.cr3 la) s = .next (e, s1) → e.value = pde := by
    intro e s1 hread
    obtain ⟨-, ⟨hnow, -⟩ | ⟨hwalked, -⟩, -⟩ := readEntry_spec hread
    · exact hnow.trans hpde.symm
    · exact hfresh _ hwalked
  cases translateLinear_mapped h with
  | unpaged hmode' => exact absurd (hmode.symm.trans hmode') nofun
  | page4M e _ hread hbig =>
    rw [hvalue e _ hread] at hbig
    exact absurd (hsmall.symm.trans hbig) nofun
  | page4K e pte s1 _ hread _ hpte _ hpa =>
    rw [hvalue e _ hread] at hpte
    obtain ⟨-, -, w, k, rfl, hw⟩ := readEntry_spec hread
    obtain ⟨-, ⟨hnow, -⟩ | ⟨hwalked, -⟩, -⟩ := readEntry_spec hpte
    · exact .inl (by rw [hpa, hnow.trans hnew.symm])
    · obtain hmem | ⟨heq, -⟩ := hw _ hwalked
      · exact .inr (by rw [hpa, hold _ hmem])
      · exact absurd (congrArg Prod.fst heq) hne

end Sys2Proof.Proofs
end

section
/-! PROOFS. Physical memory, and accesses that reach it through one translation a piece (20_memory R66, R69 and
R71). -/

namespace Sys2Proof.Machine

open Sys2Proof.Proofs

/-! ### Bytes of memory in order -/

theorem bytesAt_add (m : List Host.Cell) (a j k : Nat) :
    bytesAt m a (j + k) = bytesAt m a j ++ bytesAt m (a + j) k := by
  induction j generalizing a with
  | zero => simp [bytesAt]
  | succ j ih =>
    rw [Nat.succ_add, bytesAt, ih, bytesAt, List.cons_append, Nat.add_right_comm, Nat.add_assoc]

theorem take_bytesAt (m : List Host.Cell) (a : Nat) {k n : Nat} (h : k ≤ n) :
    (bytesAt m a n).take k = bytesAt m a k := by
  obtain ⟨j, rfl⟩ := Nat.exists_eq_add_of_le h
  rw [bytesAt_add, List.take_left' (length_bytesAt m a k)]

theorem physRead_of_ram {s : State} {a n : Nat} (h : ∀ i < n, kindAt s.params (a + i) = some .ram) :
    physRead s a n = .next (bytesAt s.mem a n) := by
  rw [physRead, checkReads_of_ram h, andThen_next]

/-- The first byte of the word at an address is the byte there. -/
theorem byteAt_getLsbD (m : List Host.Cell) (a : Nat) {i : Nat} (hi : i < 8) :
    (byteAt m a).getLsbD i = (wordAt m a).getLsbD i := by
  rw [← (wordAt_bytes m a).1, BitVec.getLsbD_extractLsb', decide_eq_true hi, Bool.true_and, Nat.zero_add]

/-! ### Accesses of the spec -/

theorem accessWf_iff {la : Word} {n : Nat} : accessWf la n = true ↔ 1 ≤ n ∧ la.toNat + n ≤ 2 ^ 32 := by
  rw [accessWf, Bool.and_eq_true, decide_eq_true_eq, decide_eq_true_eq]

theorem accessWf_of_inside {la : Word} {n : Nat} (h1 : 1 ≤ n) (h2 : n ≤ roomInPage la) : accessWf la n = true := by
  have hla := la.isLt
  refine accessWf_iff.mpr ⟨h1, ?_⟩
  unfold roomInPage at h2
  omega

/-- The first piece of an access begins where the access does. -/
theorem splitPieces_head {fuel n : Nat} (la : Word) (hf : 0 < fuel) (hn : 0 < n) :
    ∃ len rest, splitPieces fuel la n = ⟨la, len⟩ :: rest := by
  obtain ⟨fuel, rfl⟩ := Nat.exists_eq_succ_of_ne_zero hf.ne'
  rw [splitPieces, if_neg hn.ne']
  split_ifs
  · exact ⟨n, [], rfl⟩
  · exact ⟨_, _, rfl⟩

/-- An access that crosses a page boundary: its first piece ends at the boundary, and the second begins there. -/
theorem pieces_of_crossing {la : Word} {n : Nat} (h : roomInPage la < n) :
    ∃ len rest, pieces la n = ⟨la, roomInPage la⟩ :: ⟨la + BitVec.ofNat 32 (roomInPage la), len⟩ :: rest := by
  have hroom : 0 < roomInPage la := by unfold roomInPage; omega
  obtain ⟨k, rfl⟩ := Nat.exists_eq_succ_of_ne_zero (show n ≠ 0 by omega)
  obtain ⟨len, rest, hrest⟩ := splitPieces_head (fuel := k) (n := k + 1 - roomInPage la)
    (la + BitVec.ofNat 32 (roomInPage la)) (by omega) (by omega)
  refine ⟨len, rest, ?_⟩
  rw [pieces, splitPieces, if_neg (by omega), if_neg (by omega), hrest]

theorem planPieces_singleton {la : Word} {acc : Access} {s t : State} {pa : PhysAddr} {fl : List FlagUpdate}
    (h : translateLinear la acc s = .next (.mapped pa fl, t)) (n : Nat) :
    planPieces acc [⟨la, n⟩] s = .next (.spans [⟨pa, n⟩] fl, t) := by
  simp [planPieces, h, Plan.after]

/-! ### Load, Store and Fetch as one family -/

/-- A Load, Store or Fetch stops as its access stops. -/
theorem perform_accessOp_of_fault {k : AccessKind} {la : Word} {v : List Byte} {explicit : Bool} {s : State} {f : Fault}
    (h : beginAccess la v.length (accessAt s k explicit) s = .fault f) :
    perform (accessOp k la v explicit) s = .fault f := by
  cases k with
  | read => simp [accessOp, perform, load, memRead, h]
  | write => simp [accessOp, perform, store, memWrite, h]
  | fetch => simp [accessOp, perform, fetch, memRead, h]

theorem perform_accessOp_of_refused {k : AccessKind} {la : Word} {v : List Byte} {explicit : Bool} {s : State}
    {r : Refusal} (h : beginAccess la v.length (accessAt s k explicit) s = .refused r) :
    perform (accessOp k la v explicit) s = .refused r := by
  cases k with
  | read => simp [accessOp, perform, load, memRead, h]
  | write => simp [accessOp, perform, store, memWrite, h]
  | fetch => simp [accessOp, perform, fetch, memRead, h]

/-- A Load or Fetch that completes has read its bytes. -/
theorem perform_accessOp_reads {k : AccessKind} {la : Word} {v : List Byte} {explicit : Bool} {s t : State}
    (hk : k ≠ .write) (h : perform (accessOp k la v explicit) s = .next t) :
    ∃ bs s1, memRead la v.length (accessAt s k explicit) s = .next (bs, s1) ∧ t = s1.setResult (.bytes bs) := by
  cases k with
  | write => exact absurd rfl hk
  | read | fetch =>
    obtain ⟨⟨bs, s1⟩, hread, h⟩ := andThen_eq_next.mp h
    exact ⟨bs, s1, hread, (Host.Outcome.next.inj h).symm⟩

theorem makesAccess_accessOp {k : AccessKind} {la la0 : Word} {v : List Byte} {explicit : Bool} {s : State} {n : Nat}
    {acc : Access} (h : MakesAccess (accessOp k la v explicit) s la0 n acc) :
    la0 = la ∧ n = v.length ∧ acc = accessAt s k explicit := by
  cases k <;> exact h

/-- The page fault of a Load, Store or Fetch is that of its access. -/
theorem perform_accessOp_pageFault {k : AccessKind} {la la' code : Word} {v : List Byte} {explicit : Bool}
    {s left : State} (h : perform (accessOp k la v explicit) s = .fault (.pageFault la' code left)) :
    beginAccess la v.length (accessAt s k explicit) s = .fault (.pageFault la' code left) := by
  obtain ⟨la0, n, acc, hacc, h⟩ := perform_pageFault h
  obtain ⟨rfl, rfl, rfl⟩ := makesAccess_accessOp hacc
  exact h

/-- A Load, Store or Fetch raises the page fault of its first failing piece, and leaves flags of its walks only. -/
theorem perform_accessOp_of_failing_piece {k : AccessKind} {la code : Word} {v : List Byte} {explicit : Bool}
    {s s1 s2 : State} {before after : List Piece} {p : Piece} {l : List Span} {fl fl2 : List FlagUpdate}
    (hw : accessWf la v.length = true) (hpieces : pieces la v.length = before ++ p :: after)
    (hbefore : planPieces (accessAt s k explicit) before s = .next (.spans l fl, s1))
    (hfail : translateLinear p.la (accessAt s k explicit) s1 = .next (.pageFault code fl2, s2)) :
    ∃ left, perform (accessOp k la v explicit) s = .fault (.pageFault p.la code left) ∧ FlagStep s left
      ∧ FlagsOf (fl ++ fl2) s.mem left.mem ∧ ∀ u ∈ fl2, FailedWalkFlag s1 p.la u := by
  have hplan := planPieces_eq_pageFault.mpr ⟨before, p, after, l, fl, fl2, s1, hpieces, rfl, hbefore, hfail, rfl⟩
  obtain ⟨left, hbegin, hstep, hflags⟩ := beginAccess_of_pageFault hw hplan
  exact ⟨left, perform_accessOp_of_fault hbegin, hstep, hflags, (translateLinear_flags hfail).2 code fl2 rfl⟩

/-! ### Flags that were set stay set -/

theorem FlagsOf.keeps_set {fl : List FlagUpdate} {m m' : List Host.Cell} (h : FlagsOf fl m m') {a i : Nat}
    (hi : (byteAt m a).getLsbD i = true) : (byteAt m' a).getLsbD i = true := by
  by_cases hsame : (byteAt m' a).getLsbD i = (byteAt m a).getLsbD i
  · exact hsame.trans hi
  · exact (h a i hsame).1

/-- A byte that no flag update names reads as before. -/
theorem FlagsOf.byteAt_eq {fl : List FlagUpdate} {m m' : List Host.Cell} (h : FlagsOf fl m m') {a : Nat}
    (ha : ∀ u ∈ fl, u.addr ≠ a) : byteAt m' a = byteAt m a := by
  apply BitVec.eq_of_getLsbD_eq
  intro i _
  by_contra hdiff
  obtain ⟨-, u, hu, haddr, -⟩ := h a i hdiff
  exact ha u hu haddr

theorem setFlag_sets {u : FlagUpdate} {s t : State} (hu : FlagUpdateOk u) (hc : u.certain = true)
    (h : setFlag u s = .next t) {i : Nat} (hi : i < 8) (hm : u.mask.getLsbD i = true) :
    (byteAt t.mem u.addr).getLsbD i = true := by
  have hbits : (u.mask &&& ~~~(wordAt s.mem u.addr)).getLsbD i = !(byteAt s.mem u.addr).getLsbD i := by
    rw [BitVec.getLsbD_and, BitVec.getLsbD_not, hm, byteAt_getLsbD _ _ hi, decide_eq_true (by omega)]
    simp
  unfold setFlag at h
  dsimp only at h
  rw [if_pos hc] at h
  split_ifs at h with hzero
  · obtain rfl := Host.Outcome.next.inj h
    rw [hzero] at hbits
    simpa using hbits
  · obtain ⟨-, rfl⟩ := orEntry_eq_next.mp h
    obtain ⟨hbyte, -⟩ := byteAt_orWord (m := s.mem) (and_or_mask (y := ~~~(wordAt s.mem u.addr)) hu.1) hu.2.1 hu.2.2
    change (byteAt (storeBytes _ _ _) _).getLsbD i = true
    rw [hbyte, BitVec.getLsbD_or, BitVec.getLsbD_extractLsb', decide_eq_true hi, Bool.true_and, Nat.zero_add, hbits]
    simp

/-- After the flag writes of an access, the flags of every entry used as memory holds it are set. -/
theorem setFlags_sets {us : List FlagUpdate} {s t : State} (hu : ∀ u ∈ us, FlagUpdateOk u)
    (h : setFlags us s = .next t) {u : FlagUpdate} (hmem : u ∈ us) (hc : u.certain = true) {i : Nat} (hi : i < 8)
    (hm : u.mask.getLsbD i = true) : (byteAt t.mem u.addr).getLsbD i = true := by
  induction us generalizing s with
  | nil => cases hmem
  | cons w us ih =>
    obtain ⟨s1, h1, h2⟩ := andThen_eq_next.mp h
    have hus : ∀ v ∈ us, FlagUpdateOk v := fun v hv => hu v (List.mem_cons_of_mem _ hv)
    obtain rfl | hmem := List.mem_cons.mp hmem
    · exact (setFlags_flagsOf hus h2).keeps_set (setFlag_sets (hu u (by simp)) hc h1 hi hm)
    · exact ih hus h2 hmem

theorem setFlag_of_ram {u : FlagUpdate} {s : State} (h : EntryInRam s u.addr) : ∃ t, setFlag u s = .next t := by
  unfold setFlag
  dsimp only
  split_ifs
  · exact ⟨_, rfl⟩
  · exact ⟨_, orEntry_eq_next.mpr ⟨h, rfl⟩⟩
  · exact ⟨_, rfl⟩

/-- Flags of entries in read-write memory can be written. -/
theorem setFlags_of_ram {us : List FlagUpdate} {s : State} (hu : ∀ u ∈ us, FlagUpdateOk u)
    (hr : ∀ u ∈ us, EntryInRam s u.addr) : ∃ t, setFlags us s = .next t := by
  induction us generalizing s with
  | nil => exact ⟨s, rfl⟩
  | cons u us ih =>
    obtain ⟨s1, h1⟩ := setFlag_of_ram (hr u (by simp))
    have hparams := (setFlag_flagStep (hu u (by simp)) h1).regs.params_eq
    obtain ⟨t, ht⟩ := ih (s := s1) (fun v hv => hu v (List.mem_cons_of_mem _ hv)) fun v hv => by
      rw [EntryInRam, hparams]
      exact hr v (List.mem_cons_of_mem _ hv)
    exact ⟨t, by rw [setFlags, h1, andThen_next, ht]⟩

/-- An access inside one region whose address is mapped begins: its place is the one the walk gives, and the flags
of the entries used are set. -/
theorem beginAccess_of_mapped {la : Word} {n : Nat} {acc : Access} {s s1 : State} {pa : PhysAddr}
    {fl : List FlagUpdate} (h1 : 1 ≤ n) (h2 : n ≤ roomInPage la) (hsad : s.params.setsAccessedDirty = true)
    (ht : translateLinear la acc s = .next (.mapped pa fl, s1)) (hr : ∀ u ∈ fl, EntryInRam s u.addr) :
    ∃ s2, beginAccess la n acc s = .next ([⟨pa, n⟩], s2) ∧ FlagStep s s2 ∧ FlagsOf fl s.mem s2.mem
      ∧ ∀ u ∈ fl, u.certain = true → ∀ i < 8, u.mask.getLsbD i = true → (byteAt s2.mem u.addr).getLsbD i = true := by
  obtain ⟨hs1, (hok : ∀ u ∈ fl, FlagUpdateOk u)⟩ := translateLinear_spec ht
  have hparams := hs1.regs.params_eq
  obtain ⟨s2, hset⟩ := setFlags_of_ram (s := s1) hok fun u hu => by
    rw [EntryInRam, hparams]
    exact hr u hu
  have hbegin : beginAccess la n acc s = .next ([⟨pa, n⟩], s2) := by
    rw [beginAccess, if_neg (by simp [accessWf_of_inside h1 h2]), pieces_of_inside h1 h2, planPieces_singleton ht,
      andThen_next]
    change commitPlan (.spans [⟨pa, n⟩] fl) s1 = _
    rw [commitPlan, hparams, if_pos hsad, hset, andThen_next]
  refine ⟨s2, hbegin, beginAccess_next hbegin, ?_, fun u hu hc i hi hm => setFlags_sets hok hset hu hc hi hm⟩
  rw [← translateLinear_mem ht]
  exact setFlags_flagsOf hok hset

end Sys2Proof.Machine
end

section
/-! PROOFS. Accesses with paging off (40_paging_modes R111), and accesses the spec refuses (40_paging_modes R112,
20_memory R69). -/

namespace Sys2Proof.Machine

open Sys2Proof.Proofs

/-! ### Every piece is in place -/

/-- Where a piece stands with paging off. -/
def unpagedSpan (p : Piece) : Span := ⟨unpagedAddr p.la, p.len⟩

theorem planPieces_unpaged {s : State} (hpg : s.pg = false) (acc : Access) (ps : List Piece) :
    planPieces acc ps s = .next (.spans (ps.map unpagedSpan) [], s) := by
  induction ps with
  | nil => rfl
  | cons p ps ih =>
    rw [planPieces, translateLinear_unpaged hpg, andThen_next]
    dsimp only
    rw [ih]
    rfl

theorem beginAccess_unpaged {s : State} (hpg : s.pg = false) {la : Word} {n : Nat} (hw : accessWf la n = true)
    (acc : Access) : beginAccess la n acc s = .next ((pieces la n).map unpagedSpan, s) := by
  rw [beginAccess, if_neg (by simp [hw]), planPieces_unpaged hpg, andThen_next]
  cases hsad : s.params.setsAccessedDirty <;> simp [commitPlan, hsad, setFlags]

/-- The pieces of an access stand side by side, so together they are the bytes at the address. -/
theorem readSpans_unpaged {s : State} {fuel n : Nat} {la : Word} (hf : n ≤ fuel) (htop : la.toNat + n ≤ 2 ^ 32)
    (hr : ∀ i < n, kindAt s.params (la.toNat + i) = some .ram) :
    readSpans ((splitPieces fuel la n).map unpagedSpan) s = .next (bytesAt s.mem la.toNat n) := by
  induction fuel generalizing la n with
  | zero =>
    obtain rfl : n = 0 := Nat.le_zero.mp hf
    rfl
  | succ fuel ih =>
    rw [splitPieces]
    split_ifs with hzero hone
    · rw [hzero]; rfl
    · simp [readSpans, unpagedSpan, unpagedAddr_toNat, physRead_of_ram hr]
    · have hroom : 0 < roomInPage la := by unfold roomInPage; omega
      have hnext : (la + BitVec.ofNat 32 (roomInPage la)).toNat = la.toNat + roomInPage la := by
        rw [BitVec.toNat_add, BitVec.toNat_ofNat]
        omega
      have hrest := ih (n := n - roomInPage la) (la := la + BitVec.ofNat 32 (roomInPage la)) (by omega)
        (by rw [hnext]; omega) fun i hi => by
          rw [hnext, Nat.add_assoc]
          exact hr _ (by omega)
      have hfirst := physRead_of_ram (s := s) (a := la.toNat) (n := roomInPage la) fun i hi => hr i (by omega)
      rw [List.map_cons, readSpans, hrest, hnext]
      simp only [unpagedSpan, unpagedAddr_toNat, hfirst, andThen_next]
      rw [← bytesAt_add, Nat.add_sub_cancel' (by omega)]

theorem memRead_unpaged {s : State} (hpg : s.pg = false) {la : Word} {n : Nat} (h1 : 1 ≤ n)
    (htop : la.toNat + n ≤ 2 ^ 32) (hr : ∀ i < n, kindAt s.params (la.toNat + i) = some .ram) (acc : Access) :
    memRead la n acc s = .next (bytesAt s.mem la.toNat n, s) := by
  rw [memRead, beginAccess_unpaged hpg (accessWf_iff.mpr ⟨h1, htop⟩), andThen_next]
  dsimp only
  rw [pieces, readSpans_unpaged le_rfl htop hr, andThen_next]

/-! ### The length of an instruction (30_encoding R98) -/

theorem instrLength_two_or_three (i : Instr) : instrLength i = 2 ∨ instrLength i = 3 := by
  cases i with
  | wrmsr | rdmsr => exact .inl rfl
  | movCr0R32 | movCr3R32 | movCr4R32 | movR32Cr0 | movR32Cr3 | movR32Cr4 => exact .inr rfl

/-- The first two bytes tell the length. -/
theorem needsModrm_take_encode (i : Instr) : needsModrm ((encode i).take 2) = decide (instrLength i = 3) := by
  cases i <;> rfl

/-! ### Modes without a translation -/

/-- An access of the spec is refused where its first byte's translation is. -/
theorem beginAccess_of_refused {la : Word} {n : Nat} {acc : Access} {s : State} {r : Refusal}
    (hw : accessWf la n = true) (h : translateLinear la acc s = .refused r) : beginAccess la n acc s = .refused r := by
  obtain ⟨hn, -⟩ := accessWf_iff.mp hw
  obtain ⟨len, rest, hpieces⟩ := splitPieces_head (fuel := n) la hn hn
  rw [beginAccess, if_neg (by simp [hw]), pieces, hpieces, planPieces, h]
  rfl

end Sys2Proof.Machine

namespace Sys2Proof.Proofs

open Sys2Proof.Machine

/-- Settles O50: the places are the linear addresses, no flag is written, and the bytes read are those at the
address. -/
theorem unpagedFetchCompletes : Obligations.UnpagedFetchCompletes := by
  intro la n explicit s hpg h1 htop hr
  change fetch la n explicit s = _
  rw [fetch, memRead_unpaged hpg h1 htop hr, andThen_next]

/-- Settles O9: the first two bytes are those of the instruction, so they tell its length, and the access of that
length gives all of it. -/
theorem unpagedFetchGivesTheBytesAtEip : Obligations.UnpagedFetchGivesTheBytesAtEip := by
  intro s i hpg htop hr hbytes
  have htwo : 2 ≤ instrLength i := by
    obtain h | h := instrLength_two_or_three i <;> omega
  have hlook : memRead s.eip 2 (codeAccess s) s = .next ((encode i).take 2, s) := by
    rw [memRead_unpaged hpg (by decide) (by omega) fun k hk => hr k (by omega), ← hbytes, take_bytesAt _ _ htwo]
  rw [fetchCode, hlook, andThen_next]
  dsimp only
  rw [needsModrm_take_encode]
  obtain hlen | hlen := instrLength_two_or_three i
  · have hall : (encode i).take 2 = encode i := List.take_of_length_le (Nat.le_of_eq hlen)
    rw [if_neg (by simp [hlen]), hall]
  · rw [hlen] at htop hr hbytes
    rw [if_pos (by simp [hlen]), memRead_unpaged hpg (by decide) htop hr, hbytes]

/-- Settles O55: the access is one of the spec in the first two clauses, and its first piece has no translation; in
the third it is none. -/
theorem accessesTheSpecRefuses : Obligations.AccessesTheSpecRefuses := by
  intro k la v explicit s h1
  refine ⟨fun htop hmode => ?_, fun htop hmode => ?_, fun habove => ?_⟩ <;> refine perform_accessOp_of_refused ?_
  · exact beginAccess_of_refused (accessWf_iff.mpr ⟨h1, htop⟩) (by simp only [translateLinear, hmode])
  · exact beginAccess_of_refused (accessWf_iff.mpr ⟨h1, htop⟩) (by simp only [translateLinear, hmode])
  · have hw : ¬ accessWf la v.length = true := fun hw => by
      obtain ⟨-, htop⟩ := accessWf_iff.mp hw
      omega
    rw [beginAccess, if_pos (by simp [hw])]

/-- Settles O59: the bytes written stand in read-write memory, which can be read. -/
theorem physicalWritesReadBack : Obligations.PhysicalWritesReadBack := by
  intro a bs s t hinv h
  obtain ⟨hram, rfl⟩ := physWrite_eq_next.mp h
  refine ⟨?_, fun x hx => byteAt_storeBytes_other s.mem bs hx, memoryInv_storeBytes hram hinv, rfl⟩
  rw [physRead_of_ram (s := s.setMem (storeBytes s.mem a bs)) hram, State.setMem_mem, bytesAt_storeBytes]

end Sys2Proof.Proofs
end

section
/-! PROOFS. What accesses under 32-bit paging complete with (43_32bit_paging R208 and R209, 20_memory R69 and R71). -/

namespace Sys2Proof.Machine

/-! ### Walks through entries in read-write memory, with nothing stale -/

/-- A present, permitting 4-KByte page is reached, with the accessed and dirty flags of R208. -/
theorem translateLinear_page4K {s : State} {la : Word} {acc : Access} {pde pte : Word}
    (hmode : pagingMode s = .paging32) (hs : Settled s) (hram : EntryInRam s (pdeAddr s.cr3 la).toNat)
    (hpde : pde = wordAt s.mem (pdeAddr s.cr3 la).toNat) (hp : entryP pde = true) (hbig : maps4M s pde = false)
    (hres : hasReserved (reservedPdeTable s.params) pde = false) (hram' : EntryInRam s (pteAddr pde la).toNat)
    (hpte : pte = wordAt s.mem (pteAddr pde la).toNat) (hpp : entryP pte = true)
    (hpres : hasReserved (reservedPte s.params) pte = false) (hrights : accessPermitted s acc pde (some pte) = true) :
    ∃ t, translateLinear la acc s = .next (.mapped (page4KAddr pte la)
      [flagA ⟨(pdeAddr s.cr3 la).toNat, pde, true⟩, flagAD acc ⟨(pteAddr pde la).toNat, pte, true⟩], t) := by
  obtain ⟨s1, hread, hs1, hmem, hparams⟩ := readEntry_of_ram hs hram
  have hram1 : EntryInRam s1 (pteAddr pde la).toNat := by rwa [EntryInRam, hparams]
  obtain ⟨s2, hread', -, -, -⟩ := readEntry_of_ram hs1 hram1
  rw [← hpde] at hread
  rw [hmem, ← hpte] at hread'
  have hwalk : Walk32 s la acc (finish4K s la acc ⟨_, pde, true⟩ ⟨_, pte, true⟩) s2 :=
    .page4K _ _ s1 s2 hread hp hbig hres hread'
  have hend : finish4K s la acc ⟨(pdeAddr s.cr3 la).toNat, pde, true⟩ ⟨(pteAddr pde la).toNat, pte, true⟩ = _ :=
    finish4K_eq_mapped.mpr ⟨hpp, hpres, hrights, rfl, rfl⟩
  exact ⟨s2, (translateLinear_eq_next_iff hmode).mpr (hend ▸ hwalk)⟩

/-- A present, permitting 4-MByte page is reached, with the accessed and dirty flags of R208. -/
theorem translateLinear_page4M {s : State} {la : Word} {acc : Access} {pde : Word}
    (hmode : pagingMode s = .paging32) (hs : Settled s) (hram : EntryInRam s (pdeAddr s.cr3 la).toNat)
    (hpde : pde = wordAt s.mem (pdeAddr s.cr3 la).toNat) (hp : entryP pde = true) (hbig : maps4M s pde = true)
    (hres : hasReserved (reservedPde4M s.params) pde = false) (hrights : accessPermitted s acc pde none = true) :
    ∃ t, translateLinear la acc s = .next (.mapped (page4MAddr pde la)
      [flagAD acc ⟨(pdeAddr s.cr3 la).toNat, pde, true⟩], t) := by
  obtain ⟨s1, hread, -, -, -⟩ := readEntry_of_ram hs hram
  rw [← hpde] at hread
  have hwalk : Walk32 s la acc (finish4M s la acc ⟨_, pde, true⟩) s1 := .page4M _ s1 hread hp hbig
  have hend : finish4M s la acc ⟨(pdeAddr s.cr3 la).toNat, pde, true⟩ = _ :=
    finish4M_eq_mapped.mpr ⟨hres, hrights, rfl, rfl⟩
  exact ⟨s1, (translateLinear_eq_next_iff hmode).mpr (hend ▸ hwalk)⟩

/-- A read sets the accessed flag alone. -/
theorem flagAD_of_not_write {acc : Access} (h : acc.kind ≠ .write) (e : EntryRead) : flagAD acc e = flagA e := by
  rw [flagAD, if_neg h, flagA]

theorem WalkFlag.mask_of_not_write {s : State} {la : Word} {acc : Access} {u : FlagUpdate} (h : WalkFlag s la acc u)
    (hk : acc.kind ≠ .write) : u.mask = 0x20 := by
  obtain ⟨e, -, ⟨hmask, -⟩ | ⟨hw, -⟩⟩ := h
  · exact hmask
  · exact absurd hw hk

theorem PiecesFlag.mask_of_not_write {acc : Access} {ps : List Piece} {s : State} {u : FlagUpdate}
    (h : PiecesFlag acc ps s u) (hk : acc.kind ≠ .write) : u.mask = 0x20 := by
  obtain ⟨_, _, _, _, _, _, -, -, hwalk⟩ := h
  exact hwalk.mask_of_not_write hk

/-- A byte that gets accessed and dirty flags by flag updates of its address has both, and its other bits as before.
-/
theorem byteAt_of_flagAD {fl : List FlagUpdate} {m m' : List Host.Cell} {a : Nat} (h : FlagsOf fl m m')
    (hmask : ∀ u ∈ fl, u.mask = 0x60)
    (hset : ∀ i < 8, (0x60 : Word).getLsbD i = true → (byteAt m' a).getLsbD i = true) :
    byteAt m' a = byteAt m a ||| 0x60 := by
  have hlow : ∀ i < 8, (0x60 : Byte).getLsbD i = (0x60 : Word).getLsbD i := by decide
  apply BitVec.eq_of_getLsbD_eq
  intro i hi
  rw [BitVec.getLsbD_or, hlow i hi]
  cases hbit : (0x60 : Word).getLsbD i
  · rw [Bool.or_false]
    by_contra hdiff
    obtain ⟨-, u, hu, -, hm⟩ := h a i hdiff
    rw [hmask u hu, hbit] at hm
    exact absurd hm nofun
  · rw [Bool.or_true, hset i hi hbit]

end Sys2Proof.Machine

namespace Sys2Proof.Proofs

open Sys2Proof.Machine

/-- Settles O48: the walk maps the page, the flags of both entries are set, and the bytes are read after them. -/
theorem loadThroughAFourKBytePage : Obligations.LoadThroughAFourKBytePage := by
  rintro la n explicit s pdeA pteA pa pde pte hmode hs hsad h1 h2 rfl hram hpde hp hbig hres rfl hram' hpte hpp hpres
    hrights rfl hdata
  obtain ⟨s1, ht⟩ := translateLinear_page4K hmode hs hram hpde hp hbig hres hram' hpte hpp hpres hrights
  have hkind : (accessAt s .read explicit).kind ≠ .write := nofun
  rw [flagAD_of_not_write hkind] at ht
  obtain ⟨s2, hbegin, hstep, hflags, hset⟩ := beginAccess_of_mapped h1 h2 hsad ht (by
    simp only [List.forall_mem_cons, List.not_mem_nil, false_imp_iff, implies_true, and_true]
    exact ⟨hram, hram'⟩)
  have hread : readSpans [⟨page4KAddr pte la, n⟩] s2 = .next (bytesAt s2.mem (page4KAddr pte la).toNat n) := by
    have hdata2 : ∀ i < n, kindAt s2.params ((page4KAddr pte la).toNat + i) = some .ram := by
      rw [hstep.regs.params_eq]
      exact hdata
    simp [readSpans, physRead_of_ram hdata2]
  have hbit : maskA.getLsbD 5 = true := by decide
  refine ⟨s2.setResult (.bytes (bytesAt s2.mem (page4KAddr pte la).toNat n)), ?_, rfl, ?_, ?_, fun a hne hne' => ?_,
    hstep.flags, hstep.regs, hstep.run⟩
  · change load la n explicit s = _
    rw [load, memRead, hbegin, andThen_next]
    dsimp only
    rw [hread]
    rfl
  · rw [State.setResult_mem, ← byteAt_getLsbD _ _ (by decide)]
    exact hset _ (List.mem_cons_self ..) rfl 5 (by decide) hbit
  · rw [State.setResult_mem, ← byteAt_getLsbD _ _ (by decide)]
    exact hset _ (List.mem_cons_of_mem _ (List.mem_singleton_self _)) rfl 5 (by decide) hbit
  · refine hflags.byteAt_eq ?_
    simp only [List.forall_mem_cons, List.not_mem_nil, false_imp_iff, implies_true, and_true]
    exact ⟨hne.symm, hne'.symm⟩

/-- Settles O49: the walk maps the page and the PDE gets both flags, then the bytes are stored at the one place. -/
theorem storeThroughAFourMBytePage : Obligations.StoreThroughAFourMBytePage := by
  rintro la v explicit s pdeA pa pde hmode hs hsad h1 h2 rfl hram hpde hp hbig hres hrights rfl hdata
  obtain ⟨s1, ht⟩ := translateLinear_page4M hmode hs hram hpde hp hbig hres hrights
  obtain ⟨s2, hbegin, hstep, hflags, hset⟩ := beginAccess_of_mapped h1 h2 hsad ht (List.forall_mem_singleton.mpr hram)
  have hcheck : checkSpans s2.params [⟨page4MAddr pde la, v.length⟩] = .next () := by
    have hwrites := checkWrites_eq_next.mpr (hstep.regs.params_eq ▸ hdata)
    simp [checkSpans, hwrites]
  have hstore : storeSpans s2.mem [⟨page4MAddr pde la, v.length⟩] v
      = storeBytes s2.mem (page4MAddr pde la).toNat v := by
    simp [storeSpans]
  refine ⟨s2.setMem (storeBytes s2.mem (page4MAddr pde la).toNat v), ?_, bytesAt_storeBytes _ _ v,
    fun a hne hout => ?_, fun hout => ?_, hstep.regs, hstep.run, hstep.result⟩
  · change memWrite la v _ s = _
    rw [memWrite, hbegin, andThen_next]
    dsimp only
    rw [hcheck, andThen_next, hstore]
  · rw [State.setMem_mem, byteAt_storeBytes_other _ _ hout]
    exact hflags.byteAt_eq (List.forall_mem_singleton.mpr hne.symm)
  · rw [State.setMem_mem, byteAt_storeBytes_other _ _ hout]
    have hmask : ∀ u ∈ [flagAD (accessAt s .write explicit) ⟨(pdeAddr s.cr3 la).toNat, pde, true⟩], u.mask = 0x60 := by
      simp only [List.mem_singleton, forall_eq]
      rfl
    exact byteAt_of_flagAD hflags hmask (hset _ (List.mem_singleton_self _) rfl)

/-- Settles O51: what a read changes is what its beginning changes, the flags of its plan, none of them dirty. -/
theorem readingSetsAccessedFlagsOnly : Obligations.ReadingSetsAccessedFlagsOnly := by
  intro k la v explicit s t hk h
  obtain ⟨bs, s1, hread, rfl⟩ := perform_accessOp_reads hk h
  obtain ⟨hstep, l, hbegin, -⟩ := memRead_next hread
  obtain ⟨fl, s0, hplan, hok, hflags, hset⟩ := beginAccess_plan hbegin
  have hmask : ∀ u ∈ fl, u.mask = 0x20 := fun u hu => (planPieces_flags hplan u hu).mask_of_not_write hk
  refine ⟨hstep.regs, hstep.run, l, fl, s0, hplan, hmask, hflags, fun hsad u hu hc => ?_⟩
  rw [if_pos hsad] at hset
  exact setFlags_sets hok hset hu hc (by decide) (by rw [hmask u hu]; decide)

/-- Settles O52: the store begins as its access does, and then stores at the places it gave. -/
theorem storingChangesItsBytesAndFlagsOnly : Obligations.StoringChangesItsBytesAndFlagsOnly := by
  intro la v explicit s s1 t l hbegin h
  obtain ⟨l', s1', hbegin', hstep, -, rfl⟩ := memWrite_next h
  obtain ⟨rfl, rfl⟩ : l = l' ∧ s1 = s1' := by simpa [hbegin] using hbegin'
  obtain ⟨fl, s0, hplan, -, hflags, -⟩ := beginAccess_plan hbegin
  exact ⟨hstep.regs, hstep.run, hstep.result, hstep.flags, ⟨fl, s0, hplan, hflags⟩,
    fun a ha => byteAt_storeSpans_other s1.mem l v ha⟩

end Sys2Proof.Proofs
end

section
/-! PROOFS. Accesses that do not write flags, and accesses that end in a page fault (43_32bit_paging R208,
60_exceptions R234 and R249, 20_memory R69). -/

namespace Sys2Proof.Machine

/-! ### Where no flag is written -/

theorem beginAccess_mem_without_flags {la : Word} {n : Nat} {acc : Access} {s t : State} {l : List Span}
    (hsad : s.params.setsAccessedDirty = false) (h : beginAccess la n acc s = .next (l, t)) : t.mem = s.mem := by
  obtain ⟨fl, s0, hplan, -, -, hset⟩ := beginAccess_plan h
  rw [if_neg (by simp [hsad])] at hset
  rw [hset, planPieces_mem hplan]

theorem beginAccess_pageFault_mem_without_flags {la la' code : Word} {n : Nat} {acc : Access} {s left : State}
    (hsad : s.params.setsAccessedDirty = false) (h : beginAccess la n acc s = .fault (.pageFault la' code left)) :
    left.mem = s.mem := by
  obtain ⟨-, fl, s0, hplan, -⟩ := beginAccess_eq_pageFault h
  have hparams := (planPieces_spec hplan).1.regs.params_eq
  unfold beginAccess at h
  split_ifs at h
  rw [hplan, andThen_next] at h
  simp only [commitPlan, raisePF, hparams, hsad, Bool.false_eq_true, if_false, Host.Outcome.fault.injEq,
    Fault.pageFault.injEq, true_and] at h
  rw [← h, planPieces_mem hplan]

end Sys2Proof.Machine

namespace Sys2Proof.Proofs

open Sys2Proof.Machine

/-- Settles O53: planning writes no memory, and without flag updates beginning an access adds nothing to that. -/
theorem withoutFlagUpdatesWalksWriteNothing : Obligations.WithoutFlagUpdatesWalksWriteNothing := by
  intro s hsad
  refine ⟨fun la n acc l t => beginAccess_mem_without_flags hsad,
    fun la n acc la' code t => beginAccess_pageFault_mem_without_flags hsad, fun k la v explicit t hk h => ?_,
    fun la v explicit t h => ?_, fun k la v explicit la' code t h => ?_⟩
  · obtain ⟨bs, s1, hread, rfl⟩ := perform_accessOp_reads hk h
    obtain ⟨-, l, hbegin, -⟩ := memRead_next hread
    have hmem : s1.mem = s.mem := beginAccess_mem_without_flags hsad hbegin
    exact hmem
  · obtain ⟨l, s1, hbegin, -, -, rfl⟩ := memWrite_next h
    refine ⟨l, s1, hbegin, fun a ha => ?_⟩
    rw [← beginAccess_mem_without_flags hsad hbegin]
    exact byteAt_storeSpans_other s1.mem l v ha
  · exact beginAccess_pageFault_mem_without_flags hsad (perform_accessOp_pageFault h)

/-- Settles O41: the access is one piece, and it is the first to fail. -/
theorem aFailedTranslationRaisesThePageFault : Obligations.AFailedTranslationRaisesThePageFault := by
  intro k la v explicit s t code fl h1 h2 h
  obtain ⟨left, hfault, hstep, hflags, hfailed⟩ := perform_accessOp_of_failing_piece (accessWf_of_inside h1 h2)
    (before := []) (pieces_of_inside h1 h2) rfl h
  exact ⟨left, hfault, hstep.regs, hflags, fun u hu => ⟨(hfailed u hu).1, hfailed u hu⟩⟩

/-- Settles O54: in each clause one piece is the first to fail; the pieces below it are none, the first, or any. -/
theorem aCrossingAccessIsAllOrNothing : Obligations.ACrossingAccessIsAllOrNothing := by
  intro k la v explicit s hcross htop
  have hw : accessWf la v.length = true := accessWf_iff.mpr ⟨by omega, htop⟩
  obtain ⟨len, rest, hpieces⟩ := pieces_of_crossing hcross
  refine ⟨fun code fl t hfail => ?first, ?second, fun before p after l fl fl2 code s1 s2 hp hbefore hfail => ?any⟩
  case first =>
    obtain ⟨left, hfault, hstep, hflags, hfailed⟩ := perform_accessOp_of_failing_piece hw (before := [])
      hpieces rfl hfail
    exact ⟨left, hfault, hstep.regs, hstep.result, hflags, hfailed⟩
  case second =>
    rintro la2 pa fl fl2 code s1 s2 rfl hmapped hfail
    obtain ⟨left, hfault, hstep, hflags, hfailed⟩ := perform_accessOp_of_failing_piece hw
      (before := [⟨la, roomInPage la⟩]) hpieces (planPieces_singleton hmapped _) hfail
    exact ⟨left, hfault, hstep.regs, hstep.result, hflags, (translateLinear_flags hmapped).1 pa fl rfl, hfailed⟩
  case any =>
    obtain ⟨left, hfault, hstep, hflags, hfailed⟩ := perform_accessOp_of_failing_piece hw hp hbefore hfail
    exact ⟨left, hfault, hstep.regs, hstep.result, hflags, planPieces_flags hbefore, hfailed⟩

/-- Settles O32: the exception is that of the operation's own access, or #GP(0) from a register operation, which for
`execute` follows a completed fetch. -/
theorem exceptionsLeaveRegistersAndMemory : Obligations.ExceptionsLeaveRegistersAndMemory := by
  intro s left la code
  constructor
  · intro h
    obtain ⟨op, rest, hrun, h⟩ := step_fault h
    obtain ⟨la0, n, acc, hacc, hbegin⟩ := perform_pageFault h
    obtain ⟨hstep, fl, s2, hplan, hflags⟩ := beginAccess_eq_pageFault hbegin
    obtain ⟨before, p, after, l, fl1, fl2, s1, hpieces, rfl, hbefore, hfail, rfl⟩ := planPieces_eq_pageFault.mp hplan
    refine ⟨hstep.regs, op, rest, la0, n, acc, before, p, after, l, fl1, fl2, s1, s2, hrun, ?_, hpieces, rfl, hbefore,
      hfail, hflags, planPieces_flags hbefore, (translateLinear_flags hfail).2 code fl2 rfl⟩
    cases op <;> exact hacc
  · intro h
    obtain ⟨op, rest, hrun, h⟩ := step_fault h
    have hstep : FlagStep (takeOp rest s) left := perform_exception_flagStep (la := la) (.inl h)
    obtain ⟨hcode, hwhy⟩ := perform_generalProtection h
    refine ⟨hcode, hstep.regs, fun hother => ?_, fun rest' hrun' => ?_⟩
    · obtain ⟨-, rfl⟩ | ⟨rfl, -⟩ := hwhy
      · rfl
      · exact absurd hrun (hother rest)
    · obtain ⟨rfl, rfl⟩ : op = .execute ∧ rest = rest' := by simpa [hrun] using hrun'
      obtain ⟨hop, -⟩ | ⟨-, bytes, hfetch⟩ := hwhy
      · exact absurd rfl hop
      obtain ⟨n, hn, hread⟩ := fetchCode_eq_memRead hfetch
      obtain ⟨-, l, hbegin, -⟩ := memRead_next hread
      obtain ⟨fl, s1, hplan, -, hflags, -⟩ := beginAccess_plan hbegin
      exact ⟨bytes, n, l, fl, s1, hfetch, hn, hplan, hflags, fun u hu =>
        have hpiece := planPieces_flags hplan u hu
        ⟨hpiece.mask_of_not_write nofun, hpiece⟩⟩

end Sys2Proof.Proofs
end
